-- ==== Sys2Proof/Word.lean ====
section
/-! DEFINITION. The word types: a byte, a byte array of fixed length, a bus address (spec/00_scope.md R12,
spec/20_memory.md R60). Nothing of this hardware is wider than a byte or a byte string (R62, R64). -/
namespace Sys2Proof

/-- Every register and every location of the register space is one byte (R60, R64). Bit 7 is the most significant (R12). -/
abbrev Byte := BitVec 8

/-- An array of byte registers, such as `A_ID[0..7]` (R20): index 0 first, which is wire order (R12, R62). -/
abbrev Bytes (n : Nat) := Vector Byte n

/-- An address of the register space: 0x000 to 0xFFF (R60). -/
abbrev BusAddr := BitVec 12

end Sys2Proof
end

