-- ==== Sys2Proof/Config.lean ====
section
/-! DEFINITION. What an integration fixes (spec/00_scope.md R10, spec/92_eei_decisions.md D3 "Open parameters in one
place"): the parameters as plain data, and the AEAD instances the spec does not describe as opaque functions. -/
namespace Sys2Proof

/-- Which AEAD engine stands behind the AEAD port (R235): selected when the block is built, not by the host. -/
inductive AeadKind where
  /-- AES-128-GCM (R242 to R247), the default of R10's table. -/
  | aes128Gcm
  /-- The null test double (R252). -/
  | nullDouble
  /-- Any other instance that meets R240 (U19); its functions are `Config.otherAeadEnc i` and `Config.otherAeadDec i`. -/
  | other (i : Nat)
  deriving DecidableEq, Repr

/-- The parameters of R10. The spec calls them arguments of the step function (R38); here they stand in State, where
no step changes them (notes/assumptions/3.md). -/
structure Params where
  /-- `ASSOC_N`, entries of the association table, 1..64 (checked by `Params.wf`, U18). -/
  assocN : Nat
  /-- `SCRATCH_BYTES`, size of the scratch memory (R37). -/
  scratchBytes : Nat
  /-- `NEED_ENC_RAW` (R173). -/
  needEncRaw : Nat
  /-- `NEED_DEC_RAW` (R181). -/
  needDecRaw : Nat
  /-- `NEED_ENC_SEC` (R190). -/
  needEncSec : Nat
  /-- `NEED_DEC_SEC` (R221). -/
  needDecSec : Nat
  /-- `AEAD`, the function pair (R235). -/
  aead : AeadKind
  deriving DecidableEq, Repr

/-- The parameters at reset: `ASSOC_N = 8` and AES-128-GCM are the spec's defaults (R10, D3). DESIGN CHOICE, unsafe
(notes/assumptions/3.md): the spec gives no number for the scratch sizes; all are 0, so `SCRATCH_BYTES` is "at or above
every NEED_*". -/
def Params.default : Params where
  assocN := 8
  scratchBytes := 0
  needEncRaw := 0
  needDecRaw := 0
  needEncSec := 0
  needDecSec := 0
  aead := .aes128Gcm

/-- `AeadEnc` of the instance `i` that the spec does not describe: key, IV, authenticated data, plaintext to
`none` (`ok = 0`) or ciphertext and tag (R236). Opaque, so nothing can be proved of its values; being a function, it is
pure, deterministic and total (R240 (a), (e)). -/
opaque Config.otherAeadEnc (i : Nat) (key iv aad pt : List Byte) : Option (List Byte × List Byte)

/-- `AeadDec` of the instance `i` that the spec does not describe: key, IV, authenticated data, ciphertext, tag to
`none` (`ok = 0`) or the plaintext (R237). Opaque in the same way. -/
opaque Config.otherAeadDec (i : Nat) (key iv aad ct tag : List Byte) : Option (List Byte)

end Sys2Proof
end

