-- ==== Sys2Proof/Syntax.lean ====
section
/-! DEFINITION. The commands: one constructor per row of spec/opcode_table.json (spec/30_encoding.md R111). -/
namespace Sys2Proof

/-- The seventeen commands of the SFC (R3, R111). A command has no operand fields (R90): every operand stands in a
register or buffer that the host loads before it writes `CMD` (R113), so every constructor is plain. -/
inductive Instr where
  /-- 0x00 `NOP` (R255). -/
  | nop
  /-- 0x01 `ENC_HDR`, encode a header (R131). -/
  | encHdr
  /-- 0x02 `DEC_HDR`, decode and validate a header (R136). -/
  | decHdr
  /-- 0x03 `ENC_NS`, build a non-secure frame (R153). -/
  | encNs
  /-- 0x04 `DEC_NS`, verify a non-secure frame (R157). -/
  | decNs
  /-- 0x05 `PAD32`, pad a plaintext in place (R166). -/
  | pad32
  /-- 0x06 `UNPAD32`, read the data length of a padded block (R168). -/
  | unpad32
  /-- 0x07 `ENC_RAW`, build a secure frame with the nonce in `IV` (R172). -/
  | encRaw
  /-- 0x08 `DEC_RAW`, authenticate and decrypt with the nonce in `IV` (R180). -/
  | decRaw
  /-- 0x09 `ENC_SEC`, build a secure frame for this node (R190). -/
  | encSec
  /-- 0x0A `DEC_SEC`, top-level secure receive with the replay guard (R220). -/
  | decSec
  /-- 0x0B `CTR_CMP`, compare two message counters (R201). -/
  | ctrCmp
  /-- 0x0C `CTR_ADD`, add a byte to a message counter (R204). -/
  | ctrAdd
  /-- 0x0D `RX_LOOKUP`, resolve an ID prefix (R210). -/
  | rxLookup
  /-- 0x0E `RX_VALIDATE`, replay check (R213). -/
  | rxValidate
  /-- 0x0F `RX_COMMIT`, compare-and-set of a stored counter (R216). -/
  | rxCommit
  /-- 0xFF `SRST`, soft reset (R257). -/
  | srst
  deriving DecidableEq, Repr

end Sys2Proof
end

