-- ==== Sys2Proof/WellFormed.lean ====
section
/-! DEFINITION. Well-formedness of the syntax and of the parameters. The third check, on the host notation's lines, stands
beside them (`Machine.Line.wf`, Sys2Proof/Machine/HostNotation.lean). -/
namespace Sys2Proof

/-- A command has no operand fields (R90), so there is nothing in it that could be out of range. -/
def Instr.wf : Instr → Bool
  | .nop | .encHdr | .decHdr | .encNs | .decNs | .pad32 | .unpad32 | .encRaw | .decRaw | .encSec | .decSec
  | .ctrCmp | .ctrAdd | .rxLookup | .rxValidate | .rxCommit | .srst => true

/-- `ASSOC_N` is 1..64 (R10); "`refuse` 0 and values above 64" (U18). -/
def Params.wf (p : Params) : Bool := decide (1 ≤ p.assocN ∧ p.assocN ≤ 64)

end Sys2Proof
end

