-- ==== Sys2Proof/Decode.lean ====
section
/-! DEFINITION. Decoding and encoding of commands (spec/30_encoding.md R90, R110 to R112): the one format `CMD8`, whose
bits 7:0 are the opcode. -/
namespace Sys2Proof

/-- The opcode map of R111, in its order. -/
def opcodeMap : List (Byte × Instr) :=
  [(0x00, .nop), (0x01, .encHdr), (0x02, .decHdr), (0x03, .encNs), (0x04, .decNs), (0x05, .pad32),
   (0x06, .unpad32), (0x07, .encRaw), (0x08, .decRaw), (0x09, .encSec), (0x0A, .decSec), (0x0B, .ctrCmp),
   (0x0C, .ctrAdd), (0x0D, .rxLookup), (0x0E, .rxValidate), (0x0F, .rxCommit), (0xFF, .srst)]

/-- Why bytes do not decode. -/
inductive DecodeError where
  /-- There is no byte. -/
  | noByte
  /-- A reserved code, 0x10..0xFE (R112). -/
  | reservedCode (c : Byte)
  deriving DecidableEq, Repr

/-- The command a code selects (R111); `none` for a reserved code (R112). -/
def commandOf (c : Byte) : Option Instr := (opcodeMap.find? fun row => row.1 == c).map (·.2)

/-- Decode the command at the head of a byte list and give the rest. Total: any byte selects a command or is rejected
by name (R110). -/
def decode : List Byte → Except DecodeError (Instr × List Byte)
  | [] => .error .noByte
  | c :: rest =>
    match commandOf c with
    | some i => .ok (i, rest)
    | none => .error (.reservedCode c)

/-- The code of a command (R111). -/
def opcode : Instr → Byte
  | .nop => 0x00
  | .encHdr => 0x01
  | .decHdr => 0x02
  | .encNs => 0x03
  | .decNs => 0x04
  | .pad32 => 0x05
  | .unpad32 => 0x06
  | .encRaw => 0x07
  | .decRaw => 0x08
  | .encSec => 0x09
  | .decSec => 0x0A
  | .ctrCmp => 0x0B
  | .ctrAdd => 0x0C
  | .rxLookup => 0x0D
  | .rxValidate => 0x0E
  | .rxCommit => 0x0F
  | .srst => 0xFF

/-- The bytes of a command (R90): one byte, the opcode. -/
def encode (i : Instr) : List Byte := [opcode i]

/-- The bytes of a table word: `n` of them, bits 7:0 first (a command is one byte, so no byte order arises, R62). -/
def tableBytes : Nat → Nat → List Byte
  | 0, _ => []
  | n + 1, w => BitVec.ofNat 8 w :: tableBytes n (w / 256)

/-- What the decoder reads from an instruction of spec/opcode_table.json whose `nbits` bits are `w`
(notes/assumptions/20.md). -/
def decodeTableWord (nbits w : Nat) : Option Instr :=
  match decode (tableBytes ((nbits + 7) / 8) w) with
  | .ok (i, _) => some i
  | .error _ => none

end Sys2Proof
end

