-- ==== Sys2Proof/Machine/Constants.lean ====
section
/-! DEFINITION. The constants of the source (spec/00_scope.md R7, R8) and its unaudited literals (R9), each named once. -/
namespace Sys2Proof.Machine

/-- `FB_SIZE`: frame buffer capacity (R7). -/
abbrev fbSize : Nat := 64
/-- The plaintext/body buffer `PB[0..63]` (R20, R33). -/
abbrev pbSize : Nat := 64
/-- `MAX_FL`: "small-frame ceiling 63 after the length byte" (R7). -/
abbrev maxFl : Nat := 63
/-- Smallest legal frame length (R104). -/
abbrev minFl : Nat := 4
/-- `MAX_IL`: "max ID length" (R7). -/
abbrev maxIl : Nat := 8
/-- `TAG_LEN` (R7). -/
abbrev tagLen : Nat := 16
/-- `CTR_LEN` (R7). -/
abbrev ctrLen : Nat := 6
/-- `NONCE_ID`: ID bytes in the nonce (R8). -/
abbrev nonceId : Nat := 6
/-- `ENC_BODY`: padded plaintext and ciphertext size (R7). -/
abbrev encBody : Nat := 32
/-- `PT_MAX`: largest plaintext that pads (R7). -/
abbrev ptMax : Nat := 31
/-- `TL_SECURE`: secure trailer, 6 + 16 + 1 (R7). -/
abbrev tlSecure : Nat := 23
/-- `TL_NONSECURE`: the CRC byte (R7). -/
abbrev tlNonSecure : Nat := 1
/-- `FORMAT_BYTE`: last byte of a secure trailer (R7). -/
abbrev formatByte : Byte := 0x80
/-- `CRC_SEED` (R7). -/
abbrev crcSeed : Byte := 0x7F
/-- `FT_NONE`: reserved frame type (R7). -/
abbrev ftNone : Byte := 0x00
/-- `FT_INVALID_HIGH`: reserved frame type (R7). -/
abbrev ftInvalidHigh : Byte := 0x7F
/-- `ENC_SEC_MAX_IL_BODY` (R8). -/
abbrev encSecMaxIlBody : Nat := 6
/-- `MIN_DEC_BUFLEN` (R9; UNVERIFIED literal, notes/assumptions/15.md). -/
abbrev minDecBufLen : Nat := 5
/-- `RESULT_NO_BODY` (R9, R183; UNVERIFIED literal, notes/assumptions/15.md). -/
abbrev resultNoBody : Nat := 1
/-- `ENC_RAW_MAX_PT` (R9, R174; UNVERIFIED literal, notes/assumptions/15.md). -/
abbrev encRawMaxPt : Nat := 32

/-- Bus address of `FB[0]` (R70). -/
abbrev fbBase : Nat := 0x080
/-- Bus address of `PB[0]` (R70). -/
abbrev pbBase : Nat := 0x0C0
/-- Bus address of `ASSOC[k].VALID`; `ID[0..7]` follow at +1, `CTR[0..5]` at +9, and +15 is reserved (R70). -/
def assocBase (k : Nat) : Nat := 0x100 + 16 * k
/-- `ASSOC_IDX` when no entry matched (R32). -/
abbrev noEntry : Byte := 0xFF

end Sys2Proof.Machine
end

