-- ==== Sys2Proof/Machine/State.lean ====
section
/-! DEFINITION. The machine's state (spec/10_state.md R20), its reset (R39, R290), and the reasons a step can stop. -/
namespace Sys2Proof.Machine

/-- What the host, or the outside, does to the block between two commands (R11, R80: "an interleaving of whole bus
accesses and whole commands in the order the host issued them"). -/
inductive HostAction where
  /-- `MemRead(a, 1)` (R60): the byte comes back in `State.rdata`. -/
  | read (a : BusAddr)
  /-- `MemWrite(a, 1, v)` (R60); to `CMD` it starts a command (R65, R110). -/
  | write (a : BusAddr) (v : Byte)
  /-- The notation's read-modify-write "`CTRL` with bit 0 set" (R120): a read, then a write with the bits of `m` set. -/
  | setBits (a : BusAddr) (m : Byte)
  /-- The notation's "only if `ERR = 0`" (R120): a read of `ERR`, then the write if it returned 0. -/
  | writeIfOk (a : BusAddr) (v : Byte)
  /-- The input `commit_ok` takes the level `b` (R61, R217). -/
  | driveCommitOk (b : Bool)
  /-- The `rst` input is asserted and released (R290). -/
  | hardReset
  deriving DecidableEq, Repr

/-- Bytes by address, in one canonical form: addresses strictly rising, no entry equal to what an unlisted address reads as
(`Memory.wf` in Sys2Proof/Machine/Ops.lean). -/
abbrev Memory := List Host.Cell

/-- The complete state of the block (R20), field by field in the order of the spec's table; after it the model's own four
fields, which R38 calls arguments of the step function. `STATUS`, `H_BOFF`, `H_TL`, `H_TOFF` are computed on every read
(R28, R35). -/
structure State where
  /-- `CMD`, last command code written. -/
  cmd : Byte
  /-- `RESULT`, return value of the last command. -/
  result : Byte
  /-- `ERR`, failure code of the last command (R265). -/
  err : Byte
  /-- `FSM`, state of the last receive attempt (R34). -/
  fsm : Byte
  /-- `FSM_TRACE`, set of FSM states entered in it (R34). -/
  fsmTrace : Byte
  /-- `CTRL`: bit 0 `KEY_OK`, bit 1 `IV_OK`, bit 2 `PT_WANT` (R36). -/
  ctrl : Byte
  /-- `A_FTYPE` (R23). -/
  aFtype : Byte
  /-- `A_SECURE` (R23). -/
  aSecure : BitVec 1
  /-- `A_SEQ` (R23). -/
  aSeq : BitVec 4
  /-- `A_IL` (R23). -/
  aIl : Byte
  /-- `A_BL` (R23). -/
  aBl : Byte
  /-- `A_TL` (R23). -/
  aTl : Byte
  /-- `A_ID[0..7]` (R22). -/
  aId : Bytes 8
  /-- `FB_LEN`, received length or capacity (R24). -/
  fbLen : Byte
  /-- `PB_LEN`, body or plaintext length (R24). -/
  pbLen : Byte
  /-- `PB_CAP`, plaintext output capacity (R24). -/
  pbCap : Byte
  /-- `DELTA`, counter increment (R24). -/
  delta : Byte
  /-- `H_FL`, 0 means the header is invalid (R25, R26). -/
  hFl : Byte
  /-- `H_TYPE`, the type byte as on the wire (R25). -/
  hType : Byte
  /-- `H_SEQIL`, sequence number and ID length (R25). -/
  hSeqIl : Byte
  /-- `H_BL`, body length (R25). -/
  hBl : Byte
  /-- `H_ID[0..7]` (R25). -/
  hId : Bytes 8
  /-- `CTR_A[0..5]`, big-endian (R29). -/
  ctrA : Bytes 6
  /-- `CTR_B[0..5]`, big-endian (R29). -/
  ctrB : Bytes 6
  /-- `IV[0..11]`, the nonce (R31). -/
  iv : Bytes 12
  /-- `KEY[0..15]`, write-only (R31). -/
  key : Bytes 16
  /-- `TX_ID[0..7]` (R32). -/
  txId : Bytes 8
  /-- `NODE_ID[0..7]` (R32). -/
  nodeId : Bytes 8
  /-- `ASSOC_IDX`, 0xFF for none (R32). -/
  assocIdx : Byte
  /-- `FB[0..63]`, `PB[0..63]` and the association table: the windows of the register space that are memory, by bus
  address (R33, R30, R70). -/
  mem : Memory
  /-- The scratch memory, by offset (R37). -/
  scratch : Memory
  /-- MODEL: the parameters of R10; no step changes them (notes/assumptions/3.md). -/
  params : Params
  /-- MODEL: the level of the input `COMMIT_OK` (R10, R217; notes/assumptions/4.md). -/
  commitOk : Bool
  /-- MODEL: the byte the last bus read returned, `rdata` of R61 (notes/assumptions/5.md). -/
  rdata : Byte
  /-- MODEL: what the host and the outside do next, oldest first (notes/assumptions/1.md). -/
  host : List HostAction
  deriving DecidableEq, Repr

/-- The machine stops with a fault: never. Every command is total (R130, R297), a failure ends the command and not the
machine (R260, R263), and "bus accesses never fail" (R281). So there is no constructor. -/
inductive Fault where
  deriving DecidableEq, Repr

/-- The machine refuses. -/
inductive Refusal where
  /-- Raised by `exec` for a command without a meaning yet. Safe: nothing is claimed of such a command. No arm raises it. -/
  | notModelled (mnemonic : String)
  /-- Raised by `step` when the parameter `ASSOC_N` is 0 or above 64: U18 says "`refuse` 0 and values above 64". Safe: no
  such block exists (R10), and no step changes the parameter. -/
  | assocSizeOutOfRange
  deriving DecidableEq, Repr

/-- Hardware reset (R39, R290): every register, buffer byte, table byte and scratch byte is zero, but `ASSOC_IDX = 0xFF`
and `FSM_TRACE = 0x01`. The model's own fields: the default parameters and `COMMIT_OK = 1` (R10), `rdata` zero
(DESIGN CHOICE, unsafe: notes/assumptions/5.md), and nothing for the host to do (R292: the block "executes nothing until
the host writes `CMD`"). -/
def State.reset : State where
  cmd := 0
  result := 0
  err := 0
  fsm := 0
  fsmTrace := 1
  ctrl := 0
  aFtype := 0
  aSecure := 0
  aSeq := 0
  aIl := 0
  aBl := 0
  aTl := 0
  aId := Vector.replicate 8 0
  fbLen := 0
  pbLen := 0
  pbCap := 0
  delta := 0
  hFl := 0
  hType := 0
  hSeqIl := 0
  hBl := 0
  hId := Vector.replicate 8 0
  ctrA := Vector.replicate 6 0
  ctrB := Vector.replicate 6 0
  iv := Vector.replicate 12 0
  key := Vector.replicate 16 0
  txId := Vector.replicate 8 0
  nodeId := Vector.replicate 8 0
  assocIdx := 0xFF
  mem := []
  scratch := []
  params := Params.default
  commitOk := true
  rdata := 0
  host := []

end Sys2Proof.Machine
end

