-- ==== Sys2Proof/Machine/Ops.lean ====
section
/-! DEFINITION. The named operations over memory and registers, and the failure mechanism (spec/60_exceptions.md R260 to
R263), which is the block's only exceptional event: `Ended`, `finish`, `command`. There is no return from it (R273). -/
namespace Sys2Proof.Machine

/-! ## Memory -/

/-- What an address without an entry reads as: 0x00, the reset value of every buffer and table byte (R39, R290;
notes/assumptions/19.md). -/
def Memory.unlisted : Byte := 0x00

/-- The byte at an address. -/
def Memory.read : Memory → Nat → Byte
  | [], _ => Memory.unlisted
  | (a, v) :: m, x => if a = x then v else Memory.read m x

/-- Insert an entry before the first entry with a greater address. -/
def Memory.insert : Memory → Nat → Byte → Memory
  | [], a, v => [(a, v)]
  | (b, w) :: m, a, v => if a < b then (a, v) :: (b, w) :: m else (b, w) :: Memory.insert m a v

/-- Remove every entry of an address. -/
def Memory.erase (m : Memory) (a : Nat) : Memory := m.filter fun c => c.1 != a

/-- Write one byte, keeping the canonical form: writing what an unlisted address reads as removes the entry. -/
def Memory.write (m : Memory) (a : Nat) (v : Byte) : Memory :=
  if v = Memory.unlisted then Memory.erase m a else Memory.insert (Memory.erase m a) a v

/-- Write a byte list to rising addresses ("`FB[i..j] <- x` writes a byte list in index order", R14). -/
def Memory.writeBytes : Memory → Nat → List Byte → Memory
  | m, _, [] => m
  | m, a, v :: vs => Memory.writeBytes (Memory.write m a v) (a + 1) vs

/-- Every address of the memory is above `a`. -/
def Memory.above (a : Nat) : Memory → Bool
  | [] => true
  | c :: m => decide (a < c.1) && Memory.above a m

/-- The canonical form: addresses strictly rising, no entry equal to what an unlisted address reads as. -/
def Memory.wf : Memory → Bool
  | [] => true
  | (a, v) :: m => v != Memory.unlisted && Memory.above a m && Memory.wf m

/-! ## The frame buffer, the plaintext buffer and the association table

A command reaches them by index (R60, R72). The guards `< 64` are R73: "No command reads or writes `FB[i]` with `i > 63` or
`PB[i]` with `i > 63`". For a valid header they change nothing (R142); log notes/assumptions/10.md. -/

/-- `FB[i]`. -/
def fbByte (m : Memory) (i : Nat) : Byte := if i < fbSize then Memory.read m (fbBase + i) else 0x00

/-- `FB[i .. i + n - 1]`. -/
def fbBytes (m : Memory) (i n : Nat) : List Byte := (List.range n).map fun j => fbByte m (i + j)

/-- `FB[i ..] <- bs`. -/
def fbWrite (m : Memory) (i : Nat) (bs : List Byte) : Memory := Memory.writeBytes m (fbBase + i) (bs.take (fbSize - i))

/-- `PB[i]`. -/
def pbByte (m : Memory) (i : Nat) : Byte := if i < pbSize then Memory.read m (pbBase + i) else 0x00

/-- `PB[i .. i + n - 1]`. -/
def pbBytes (m : Memory) (i n : Nat) : List Byte := (List.range n).map fun j => pbByte m (i + j)

/-- `PB[i ..] <- bs`. -/
def pbWrite (m : Memory) (i : Nat) (bs : List Byte) : Memory := Memory.writeBytes m (pbBase + i) (bs.take (pbSize - i))

/-- `ASSOC[k].VALID`: one bit (R30, R65). -/
def assocValid (m : Memory) (k : Nat) : Bool := (Memory.read m (assocBase k)).getLsbD 0

/-- `ASSOC[k].ID[0..7]` (R30). -/
def assocId (m : Memory) (k : Nat) : Bytes 8 := Vector.ofFn fun j => Memory.read m (assocBase k + 1 + j.val)

/-- `ASSOC[k].CTR[0..5]` (R30). -/
def assocCtr (m : Memory) (k : Nat) : Bytes 6 := Vector.ofFn fun j => Memory.read m (assocBase k + 9 + j.val)

/-- `ASSOC[k].CTR[0..5] <- c`: the only write a command makes to the table (R30, R218). -/
def setAssocCtr (m : Memory) (k : Nat) (c : Bytes 6) : Memory := Memory.writeBytes m (assocBase k + 9) c.toList

/-! ## The failure codes (R265) -/

/-- The failures a command can end with. -/
inductive Err where
  | fType | idLen | hdrFit | bodyLen | trailerLen | bufShort | flSmall | flBig | idLenFl | lastByte | hdrInvalid
  | trailerFmt | bodySize | seq | ptLen | idLenBody | crc | auth | encrypt | pad | unknownId | replay | commit
  | scratch | frameFit | ptCap | noKey | noIv | ctrOverflow | badCmd
  deriving DecidableEq, Repr

/-- The value `ERR` takes (R265). -/
def Err.code : Err → Byte
  | .fType => 0x10
  | .idLen => 0x11
  | .hdrFit => 0x12
  | .bodyLen => 0x13
  | .trailerLen => 0x14
  | .bufShort => 0x15
  | .flSmall => 0x16
  | .flBig => 0x17
  | .idLenFl => 0x18
  | .lastByte => 0x19
  | .hdrInvalid => 0x1A
  | .trailerFmt => 0x1B
  | .bodySize => 0x1C
  | .seq => 0x1D
  | .ptLen => 0x1E
  | .idLenBody => 0x1F
  | .crc => 0x20
  | .auth => 0x21
  | .encrypt => 0x22
  | .pad => 0x23
  | .unknownId => 0x30
  | .replay => 0x31
  | .commit => 0x32
  | .scratch => 0x40
  | .frameFit => 0x41
  | .ptCap => 0x42
  | .noKey => 0x43
  | .noIv => 0x44
  | .ctrOverflow => 0x50
  | .badCmd => 0x7F

/-! ## How a command ends (R14, R262, R263) -/

/-- How an operation ends: `return v` or `raise Fail(e)`, each with the state its steps have made so far (R263 (1): they
"have taken effect and are not undone"; `Ended.revertHeader` is the one exception, notes/assumptions/21.md). -/
inductive Ended where
  | done (s : State) (v : Nat)
  | failed (s : State) (e : Err)

/-- Scratch is zeroed (R239, R263 (4); notes/assumptions/18.md). -/
def State.zeroScratch (s : State) : State := { s with scratch := [] }

/-- The end of a command (R262). Success: `RESULT <- v`, `ERR <- 0x00`. Failure, which is all the exception entry this
block has (R263): scratch is zeroed, `RESULT <- 0`, `ERR <- code`; nothing is saved, no mode changes, control goes nowhere
(R260, R273). -/
def finish : Ended → State
  | .done s v => { s with result := BitVec.ofNat 8 v, err := 0x00 }
  | .failed s e => { s.zeroScratch with result := 0x00, err := e.code }

/-- A whole command (R110, R262): `CMD` is written first with the code, the body runs, `RESULT` and `ERR` are written last.
Every command ends in a next state: nothing stops the block (R260, R282). -/
def command (i : Instr) (s : State) (body : State → Ended) : Host.Outcome State Fault Refusal :=
  .next (finish (body { s with cmd := opcode i }))

/-- The first failing check of an ordered list of checks, each "condition to fail, failure" (R266: "the first in the order
of its rule"). -/
def firstFailing : List (Bool × Err) → Option Err
  | [] => none
  | (bad, e) :: rest => if bad then some e else firstFailing rest

/-! ## The header registers (R27) -/

/-- All header registers are committed together (R27). -/
def State.commitHeader (s : State) (fl type seqIl bl : Byte) (id : Bytes 8) : State :=
  { s with hType := type, hSeqIl := seqIl, hBl := bl, hId := id, hFl := fl }

/-- `H_FL <- 0`: the header is invalid, the other header registers keep their values (R27, R134, R139). -/
def State.invalidateHeader (s : State) : State := { s with hFl := 0x00 }

/-- The header registers but `H_FL` as they are in `old` (R264; notes/assumptions/21.md). -/
def State.revertHeader (s old : State) : State :=
  { s with hType := old.hType, hSeqIl := old.hSeqIl, hBl := old.hBl, hId := old.hId }

/-- The end of a frame encode whose header encode has succeeded in the state `old`: when a later step fails, `H_TYPE`,
`H_SEQIL`, `H_BL` and `H_ID` are "as before the command" (R264, D7, U3; notes/assumptions/21.md). -/
def Ended.revertHeader (old : State) : Ended → Ended
  | .done s v => .done s v
  | .failed s e => .failed (s.revertHeader old) e

end Sys2Proof.Machine
end

