-- ==== Sys2Proof/Machine/Flags.lean ====
section
/-! DEFINITION. Flags: `STATUS` (spec/10_state.md R35), the bits of `CTRL` (R36), and the receive state machine `FSM`,
`FSM_TRACE` (R34, spec/44_replay_guard.md R226 to R228). There are no condition codes (R35). -/
namespace Sys2Proof.Machine

/-- `STATUS`, computed on every read (R35): bit 1 `OK`, bit 2 `HDR_VALID`. Bit 0 `BUSY` is 0 at every point at which a host
can look, because commands are atomic ("a model may take `BUSY` as always 0"; notes/assumptions/6.md). -/
def State.status (s : State) : Byte :=
  (if s.err = 0x00 then 0x02 else 0x00) ||| (if s.hFl = 0x00 then 0x00 else 0x04)

/-- `CTRL.KEY_OK` (R36). -/
def State.keyOk (s : State) : Bool := s.ctrl.getLsbD 0

/-- `CTRL.IV_OK` (R36). -/
def State.ivOk (s : State) : Bool := s.ctrl.getLsbD 1

/-- `CTRL.PT_WANT` (R36). -/
def State.ptWant (s : State) : Bool := s.ctrl.getLsbD 2

/-- The states of one receive attempt (R226). Code 6 does not exist (R34, U14). -/
inductive RxState where
  | headerPending | headerValid | idResolved | counterChecked | authenticated | counterCommitted | rejected
  deriving DecidableEq, Repr

/-- The code of a state in `FSM`, and its bit in `FSM_TRACE` (R34). -/
def RxState.code : RxState → Nat
  | .headerPending => 0
  | .headerValid => 1
  | .idResolved => 2
  | .counterChecked => 3
  | .authenticated => 4
  | .counterCommitted => 5
  | .rejected => 7

/-- A new receive attempt begins: `FSM <- 0; FSM_TRACE <- 0x01` (R136, R221). -/
def State.beginAttempt (s : State) : State := { s with fsm := 0x00, fsmTrace := 0x01 }

/-- `FSM <- k; FSM_TRACE <- FSM_TRACE | (1 << k)` (R136, R221). -/
def State.enter (s : State) (k : RxState) : State :=
  { s with fsm := BitVec.ofNat 8 k.code, fsmTrace := s.fsmTrace ||| (1#8 <<< k.code) }

/-- A `raise` inside a receive attempt is preceded by state `Rejected` (R136, R221). -/
def reject (s : State) (e : Err) : Ended := .failed (s.enter .rejected) e

end Sys2Proof.Machine
end

