-- ==== Sys2Proof/Machine/Operands.lean ====
section
/-! DEFINITION. Operand forms: the header's fields and derived views (spec/10_state.md R28, spec/20_memory.md R72), message
counters as numbers (spec/44_replay_guard.md R200), and the nonce (spec/30_encoding.md R118). -/
namespace Sys2Proof.Machine

/-! ## Byte strings as numbers -/

/-- `be(b)`: the big-endian value of a byte list (R12, R200). -/
def be (bs : List Byte) : Nat := bs.foldl (fun n b => n * 256 + b.toNat) 0

/-- The value of a message counter (R200): byte 0 is the most significant. -/
def ctrValue (c : Bytes 6) : Nat := be c.toList

/-- The counter of a value: byte `i` is `(n >> (8 * (5 - i))) AND 0xFF` (R204). -/
def ctrOfNat (n : Nat) : Bytes 6 := Vector.ofFn fun i => BitVec.ofNat 8 (n >>> (8 * (5 - i.val)))

/-! ## Header fields -/

/-- The ID length of a seq/il byte: bits 3:0 (R103). -/
def ilOf (b : Byte) : Nat := (b.extractLsb' 0 4).toNat

/-- The sequence number of a seq/il byte: bits 7:4 (R103). -/
def seqOf (b : Byte) : BitVec 4 := b.extractLsb' 4 4

/-- The seq/il byte: `(seq << 4) | il` (R103). -/
def seqIlByte (seq : BitVec 4) (il : Nat) : Byte := (seq.zeroExtend 8 <<< 4) ||| BitVec.ofNat 8 il

/-- The type byte: bit 7 the secure flag, bits 6:0 the frame type (R102). -/
def typeByte (secure : Bool) (ftype : Byte) : Byte := ftype ||| (if secure then 0x80 else 0x00)

/-- The secure flag of a type byte (R102). -/
def isSecure (t : Byte) : Bool := t.getLsbD 7

/-- The first `il` bytes of an ID, the rest zero (R25, R133, R138). -/
def idPrefix (il : Nat) (id : Bytes 8) : Bytes 8 := Vector.ofFn fun i => if i.val < il then id[i] else 0x00

/-- `il` of the header registers: `H_SEQIL[3:0]` (R28). -/
def State.headerIl (s : State) : Nat := ilOf s.hSeqIl

/-- `H_BOFF` (R28): body offset `4 + il`, 0 for an invalid header. -/
def State.hBoff (s : State) : Nat := if s.hFl = 0x00 then 0 else 4 + s.headerIl

/-- `H_TL` (R28): trailer length `H_FL - 3 - il - H_BL`, 0 for an invalid header. The subtraction "cannot go negative for a
valid header"; where no run leads (notes/assumptions/10.md) it stops at 0. -/
def State.hTl (s : State) : Nat := if s.hFl = 0x00 then 0 else s.hFl.toNat - 3 - s.headerIl - s.hBl.toNat

/-- `H_TOFF` (R28): trailer offset `4 + il + H_BL`, 0 for an invalid header. -/
def State.hToff (s : State) : Nat := if s.hFl = 0x00 then 0 else 4 + s.headerIl + s.hBl.toNat

/-! ## The nonce -/

/-- `IV[0..5]` = the first six bytes of a full ID, `IV[6..11]` = the message counter (R118, R170). -/
def nonceOf (id : Bytes 8) (ctr : Bytes 6) : Bytes 12 :=
  Vector.ofFn fun i => if i.val < nonceId then (id.toList.getD i.val 0x00) else (ctr.toList.getD (i.val - nonceId) 0x00)

/-- The sequence number of a secure frame: `IV[11][3:0]` (R118, R171). -/
def nonceSeq (iv : Bytes 12) : BitVec 4 := (iv[11]).extractLsb' 0 4

/-- The message counter in a nonce: `IV[6..11]` (R118). -/
def nonceCtr (iv : Bytes 12) : List Byte := iv.toList.drop nonceId

/-- `IV` is built and `CTRL.IV_OK` set (R190, R221). -/
def State.setNonce (s : State) (id : Bytes 8) (ctr : Bytes 6) : State :=
  { s with iv := nonceOf id ctr, ctrl := s.ctrl ||| 0x02 }

end Sys2Proof.Machine
end

