-- ==== Sys2Proof/Machine/AddressMap.lean ====
section
/-! DEFINITION. The register space (spec/20_memory.md R60, R65, R70): the name of every address, and what a bus read or a bus
write of a named location does. The write that starts a command is in Sys2Proof/Machine/HostPort.lean. -/
namespace Sys2Proof.Machine

/-- A location of the register space by its name (R70); an array element carries its index. -/
inductive Loc where
  | cmd | status | result | err | fsm | fsmTrace | ctrl | assocIdx
  | aFtype | aSecure | aSeq | aIl | aBl | aTl | fbLen | pbLen | pbCap | delta
  | aId (i : Nat) | hId (i : Nat)
  | hFl | hType | hSeqIl | hBl | hBoff | hTl | hToff
  | ctrA (i : Nat) | ctrB (i : Nat) | iv (i : Nat) | key (i : Nat) | txId (i : Nat) | nodeId (i : Nat)
  | fb (i : Nat) | pb (i : Nat)
  | assocValid (k : Nat) | assocId (k j : Nat) | assocCtr (k j : Nat)
  /-- A reserved or unmapped address. -/
  | reserved
  deriving DecidableEq, Repr

/-- A row of the map: first address, number of addresses, name of the address at an offset. -/
structure Region where
  base : Nat
  size : Nat
  loc : Nat → Loc

/-- The map of R70 below the association table, in its order; what no row holds is reserved. -/
def regions : List Region :=
  [⟨0x000, 1, fun _ => .cmd⟩, ⟨0x001, 1, fun _ => .status⟩, ⟨0x002, 1, fun _ => .result⟩, ⟨0x003, 1, fun _ => .err⟩,
   ⟨0x004, 1, fun _ => .fsm⟩, ⟨0x005, 1, fun _ => .fsmTrace⟩, ⟨0x006, 1, fun _ => .ctrl⟩, ⟨0x007, 1, fun _ => .assocIdx⟩,
   ⟨0x008, 1, fun _ => .aFtype⟩, ⟨0x009, 1, fun _ => .aSecure⟩, ⟨0x00A, 1, fun _ => .aSeq⟩, ⟨0x00B, 1, fun _ => .aIl⟩,
   ⟨0x00C, 1, fun _ => .aBl⟩, ⟨0x00D, 1, fun _ => .aTl⟩, ⟨0x00E, 1, fun _ => .fbLen⟩, ⟨0x00F, 1, fun _ => .pbLen⟩,
   ⟨0x010, 1, fun _ => .pbCap⟩, ⟨0x011, 1, fun _ => .delta⟩,
   ⟨0x018, 8, .aId⟩, ⟨0x020, 8, .hId⟩,
   ⟨0x028, 1, fun _ => .hFl⟩, ⟨0x029, 1, fun _ => .hType⟩, ⟨0x02A, 1, fun _ => .hSeqIl⟩, ⟨0x02B, 1, fun _ => .hBl⟩,
   ⟨0x02C, 1, fun _ => .hBoff⟩, ⟨0x02D, 1, fun _ => .hTl⟩, ⟨0x02E, 1, fun _ => .hToff⟩,
   ⟨0x030, 6, .ctrA⟩, ⟨0x038, 6, .ctrB⟩, ⟨0x040, 12, .iv⟩, ⟨0x050, 16, .key⟩, ⟨0x060, 8, .txId⟩, ⟨0x068, 8, .nodeId⟩,
   ⟨0x080, 64, .fb⟩, ⟨0x0C0, 64, .pb⟩]

/-- The name of byte `j` of entry `k` of the association table (R70). -/
def tableLoc (k j : Nat) : Loc :=
  if j = 0 then .assocValid k else if j ≤ 8 then .assocId k (j - 1) else if j ≤ 14 then .assocCtr k (j - 9) else .reserved

/-- The name of an address (R70). `n` is `ASSOC_N`. -/
def locOf (n : Nat) (a : BusAddr) : Loc :=
  let x := a.toNat
  if assocBase 0 ≤ x then
    if x < assocBase n then tableLoc ((x - assocBase 0) / 16) ((x - assocBase 0) % 16) else .reserved
  else
    match regions.find? fun r => decide (r.base ≤ x ∧ x < r.base + r.size) with
    | some r => r.loc (x - r.base)
    | none => .reserved

/-- The address of a named location (R70); a reserved location has no name to write down, and stands at 0x012. -/
def Loc.addr : Loc → BusAddr
  | .cmd => 0x000
  | .status => 0x001
  | .result => 0x002
  | .err => 0x003
  | .fsm => 0x004
  | .fsmTrace => 0x005
  | .ctrl => 0x006
  | .assocIdx => 0x007
  | .aFtype => 0x008
  | .aSecure => 0x009
  | .aSeq => 0x00A
  | .aIl => 0x00B
  | .aBl => 0x00C
  | .aTl => 0x00D
  | .fbLen => 0x00E
  | .pbLen => 0x00F
  | .pbCap => 0x010
  | .delta => 0x011
  | .aId i => BitVec.ofNat 12 (0x018 + i)
  | .hId i => BitVec.ofNat 12 (0x020 + i)
  | .hFl => 0x028
  | .hType => 0x029
  | .hSeqIl => 0x02A
  | .hBl => 0x02B
  | .hBoff => 0x02C
  | .hTl => 0x02D
  | .hToff => 0x02E
  | .ctrA i => BitVec.ofNat 12 (0x030 + i)
  | .ctrB i => BitVec.ofNat 12 (0x038 + i)
  | .iv i => BitVec.ofNat 12 (0x040 + i)
  | .key i => BitVec.ofNat 12 (0x050 + i)
  | .txId i => BitVec.ofNat 12 (0x060 + i)
  | .nodeId i => BitVec.ofNat 12 (0x068 + i)
  | .fb i => BitVec.ofNat 12 (fbBase + i)
  | .pb i => BitVec.ofNat 12 (pbBase + i)
  | .assocValid k => BitVec.ofNat 12 (assocBase k)
  | .assocId k j => BitVec.ofNat 12 (assocBase k + 1 + j)
  | .assocCtr k j => BitVec.ofNat 12 (assocBase k + 9 + j)
  | .reserved => 0x012

/-- The location exists, for `ASSOC_N = n`: every index is in its array (R20, R70). -/
def Loc.wf (n : Nat) : Loc → Bool
  | .aId i | .hId i | .txId i | .nodeId i => decide (i < 8)
  | .ctrA i | .ctrB i => decide (i < 6)
  | .iv i => decide (i < 12)
  | .key i => decide (i < 16)
  | .fb i | .pb i => decide (i < 64)
  | .assocValid k => decide (k < n)
  | .assocId k j => decide (k < n ∧ j < 8)
  | .assocCtr k j => decide (k < n ∧ j < 6)
  | .reserved => false
  | .cmd | .status | .result | .err | .fsm | .fsmTrace | .ctrl | .assocIdx | .aFtype | .aSecure | .aSeq | .aIl | .aBl
  | .aTl | .fbLen | .pbLen | .pbCap | .delta | .hFl | .hType | .hSeqIl | .hBl | .hBoff | .hTl | .hToff => true

/-- A bit as a byte: the bits above it read 0 (R65). -/
def bitByte (b : Bool) : Byte := if b then 0x01 else 0x00

/-- `min(v, 64)`: what a write to `FB_LEN` or `PB_CAP` stores (R24, R65). -/
def saturate64 (v : Byte) : Byte := if 64 < v.toNat then 64 else v

/-- What a bus read of a location returns (R65, R70): registers narrower than a byte read 0 above their bits, computed views
are recomputed (R28, R35), `KEY` and reserved locations read 0x00. -/
def readLoc (s : State) : Loc → Byte
  | .cmd => s.cmd
  | .status => s.status
  | .result => s.result
  | .err => s.err
  | .fsm => s.fsm
  | .fsmTrace => s.fsmTrace
  | .ctrl => s.ctrl
  | .assocIdx => s.assocIdx
  | .aFtype => s.aFtype
  | .aSecure => s.aSecure.zeroExtend 8
  | .aSeq => s.aSeq.zeroExtend 8
  | .aIl => s.aIl
  | .aBl => s.aBl
  | .aTl => s.aTl
  | .fbLen => s.fbLen
  | .pbLen => s.pbLen
  | .pbCap => s.pbCap
  | .delta => s.delta
  | .aId i => s.aId.toList.getD i 0x00
  | .hId i => s.hId.toList.getD i 0x00
  | .hFl => s.hFl
  | .hType => s.hType
  | .hSeqIl => s.hSeqIl
  | .hBl => s.hBl
  | .hBoff => BitVec.ofNat 8 s.hBoff
  | .hTl => BitVec.ofNat 8 s.hTl
  | .hToff => BitVec.ofNat 8 s.hToff
  | .ctrA i => s.ctrA.toList.getD i 0x00
  | .ctrB i => s.ctrB.toList.getD i 0x00
  | .iv i => s.iv.toList.getD i 0x00
  | .key _ => 0x00
  | .txId i => s.txId.toList.getD i 0x00
  | .nodeId i => s.nodeId.toList.getD i 0x00
  | .fb i => fbByte s.mem i
  | .pb i => pbByte s.mem i
  | .assocValid k => bitByte (assocValid s.mem k)
  | .assocId k j => Memory.read s.mem (assocBase k + 1 + j)
  | .assocCtr k j => Memory.read s.mem (assocBase k + 9 + j)
  | .reserved => 0x00

/-- What a bus write stores in a location (R65, R70): narrow registers keep their low bits, `FB_LEN` and `PB_CAP` saturate,
read-only and reserved locations ignore the write. `CMD` is not stored here: a write to it starts a command. -/
def writeLoc (s : State) (v : Byte) : Loc → State
  | .ctrl => { s with ctrl := v &&& 0x07 }
  | .aFtype => { s with aFtype := v }
  | .aSecure => { s with aSecure := v.extractLsb' 0 1 }
  | .aSeq => { s with aSeq := v.extractLsb' 0 4 }
  | .aIl => { s with aIl := v }
  | .aBl => { s with aBl := v }
  | .aTl => { s with aTl := v }
  | .fbLen => { s with fbLen := saturate64 v }
  | .pbLen => { s with pbLen := v }
  | .pbCap => { s with pbCap := saturate64 v }
  | .delta => { s with delta := v }
  | .aId i => { s with aId := s.aId.setIfInBounds i v }
  | .ctrA i => { s with ctrA := s.ctrA.setIfInBounds i v }
  | .ctrB i => { s with ctrB := s.ctrB.setIfInBounds i v }
  | .iv i => { s with iv := s.iv.setIfInBounds i v }
  | .key i => { s with key := s.key.setIfInBounds i v }
  | .txId i => { s with txId := s.txId.setIfInBounds i v }
  | .nodeId i => { s with nodeId := s.nodeId.setIfInBounds i v }
  | .fb i => { s with mem := fbWrite s.mem i [v] }
  | .pb i => { s with mem := pbWrite s.mem i [v] }
  | .assocValid k => { s with mem := Memory.write s.mem (assocBase k) (v &&& 0x01) }
  | .assocId k j => { s with mem := Memory.write s.mem (assocBase k + 1 + j) v }
  | .assocCtr k j => { s with mem := Memory.write s.mem (assocBase k + 9 + j) v }
  | .cmd | .status | .result | .err | .fsm | .fsmTrace | .assocIdx | .hId _ | .hFl | .hType | .hSeqIl | .hBl
  | .hBoff | .hTl | .hToff | .reserved => s

/-- `MemRead(a, 1)` (R60, R65): it never fails (R281). -/
def busRead (s : State) (a : BusAddr) : Byte := readLoc s (locOf s.params.assocN a)

end Sys2Proof.Machine
end

