-- ==== Sys2Proof/Machine/Counter.lean ====
section
/-! DEFINITION. Counter arithmetic (spec/44_replay_guard.md R200 to R206): `CTR_CMP`, `CTR_ADD`. -/
namespace Sys2Proof.Machine

/-- The sign code of a comparison: 0x00 equal, 0x01 greater, 0xFF less (R201). -/
def signCode (a b : Nat) : Nat := if a = b then 0x00 else if b < a then 0x01 else 0xFF

/-- `CTR_CMP` (R201). -/
def execCtrCmp (s : State) : Host.Outcome State Fault Refusal :=
  command .ctrCmp s fun s => .done s (signCode (ctrValue s.ctrA) (ctrValue s.ctrB))

/-- `CTR_ADD` (R204): `CTR_A` is written only when the sum fits 48 bits. -/
def execCtrAdd (s : State) : Host.Outcome State Fault Refusal :=
  command .ctrAdd s fun s =>
    let sum := ctrValue s.ctrA + s.delta.toNat
    if 2 ^ 48 - 1 < sum then .failed s .ctrOverflow else .done { s with ctrA := ctrOfNat sum } 1

end Sys2Proof.Machine
end

