-- ==== Sys2Proof/Machine/Header.lean ====
section
/-! DEFINITION. The header codec (spec/41_header_codec.md): `HdrEncode`, `HdrDecode`, `ENC_HDR`, `DEC_HDR`. -/
namespace Sys2Proof.Machine

/-! ## HdrEncode -/

/-- The five checks of `HdrEncode` in their order (R132). `cap` is `FB_LEN`. -/
def hdrEncodeError (secure : Bool) (ftype : Byte) (il bl tl cap : Nat) : Option Err :=
  firstFailing
    [(ftype == ftNone || ftInvalidHigh.ule ftype, .fType),
     (decide (maxIl < il), .idLen),
     (decide (cap < 4 + il), .hdrFit),
     (decide (59 - il < bl), .bodyLen),
     (if secure then decide (tl < 1 ∨ maxFl < 3 + il + bl + tl) else decide (tl ≠ tlNonSecure), .trailerLen)]

/-- `HdrEncode(secure, ftype, seq, id, il, bl, tl)` (R132 to R134): on success the `4 + il` header bytes go to `FB`, the header
registers are committed, and the result is `4 + il`; on failure `H_FL <- 0` and no byte of `FB` is written. -/
def hdrEncode (s : State) (secure : Bool) (ftype : Byte) (seq : BitVec 4) (id : Bytes 8) (il bl tl : Nat) : Ended :=
  match hdrEncodeError secure ftype il bl tl s.fbLen.toNat with
  | some e => .failed s.invalidateHeader e
  | none =>
    let fl := BitVec.ofNat 8 (3 + il + bl + tl)
    let t := typeByte secure ftype
    let q := seqIlByte seq il
    let b := BitVec.ofNat 8 bl
    let s := { s with mem := fbWrite s.mem 0 ([fl, t, q] ++ id.toList.take il ++ [b]) }
    .done (s.commitHeader fl t q b (idPrefix il id)) (4 + il)

/-! ## HdrDecode -/

/-- The ten checks of `HdrDecode` in their order (R137). `n` is `FB_LEN`. -/
def hdrDecodeError (m : Memory) (n : Nat) : Option Err :=
  let fl := (fbByte m 0).toNat
  let t := (fbByte m 1).extractLsb' 0 7
  let il := ilOf (fbByte m 2)
  let bl := (fbByte m (3 + il)).toNat
  let last := fbByte m fl
  let tl := fl - 3 - il - bl
  firstFailing
    [(decide (n < minDecBufLen), .bufShort),
     (decide (fl < minFl), .flSmall),
     (decide (maxFl < fl), .flBig),
     (t == 0x00#7 || t == 0x7F#7, .fType),
     (decide (maxIl < il), .idLen),
     (decide (fl - 4 < il), .idLenFl),
     (decide (n < 4 + il), .hdrFit),
     (decide (fl - (4 + il) < bl), .bodyLen),
     (decide (fl < n) && (last == 0x00 || last == 0xFF), .lastByte),
     (if isSecure (fbByte m 1) then decide (tl < 1) else decide (tl ≠ tlNonSecure), .trailerLen)]

/-- The ID bytes of the frame in `FB`: `FB[3 + i]` for `i < il`, zero above (R138). -/
def frameId (m : Memory) (il : Nat) : Bytes 8 := idPrefix il (Vector.ofFn fun i => fbByte m (3 + i.val))

/-- `HdrDecode()` (R137 to R139): `H_FL` is cleared first; on success the header registers are committed and the result is
`4 + il`; on failure `H_FL` stays 0. `FB` is not written. -/
def hdrDecode (s : State) : Ended :=
  match hdrDecodeError s.mem s.fbLen.toNat with
  | some e => .failed s.invalidateHeader e
  | none =>
    let il := ilOf (fbByte s.mem 2)
    .done
      (s.invalidateHeader.commitHeader (fbByte s.mem 0) (fbByte s.mem 1) (fbByte s.mem 2) (fbByte s.mem (3 + il))
        (frameId s.mem il))
      (4 + il)

/-! ## The commands -/

/-- `ENC_HDR` (R131). -/
def execEncHdr (s : State) : Host.Outcome State Fault Refusal :=
  command .encHdr s fun s =>
    hdrEncode s (s.aSecure == 1#1) s.aFtype s.aSeq s.aId s.aIl.toNat s.aBl.toNat s.aTl.toNat

/-- `DEC_HDR` (R136): a new receive attempt begins, and ends in `HeaderValid` or `Rejected`. -/
def execDecHdr (s : State) : Host.Outcome State Fault Refusal :=
  command .decHdr s fun s =>
    match hdrDecode s.beginAttempt with
    | .failed s e => reject s e
    | .done s hl => .done (s.enter .headerValid) hl

end Sys2Proof.Machine
end

