-- ==== Sys2Proof/Machine/NonSecure.lean ====
section
/-! DEFINITION. The non-secure frame codec (spec/42_nonsecure_codec.md): the CRC, `ENC_NS`, `DEC_NS`. The CRC's bit-level
algorithm is the spec's "from general knowledge" (R150, G1; notes/assumptions/16.md). -/
namespace Sys2Proof.Machine

/-! ## CRC-7/5B -/

/-- One data bit (R150): shift, and fold the generator 0x37 in when the bits differ. -/
def crc7Bit (crc : Byte) (d : Bool) : Byte :=
  if (crc.getLsbD 6 ^^ d) then (crc <<< 1) ^^^ 0x37 else crc <<< 1

/-- `Crc7Step(crc, d)` (R150): the bits of `d`, most significant first, and the low seven bits of the register. -/
def crc7Step (crc d : Byte) : Byte :=
  ([7, 6, 5, 4, 3, 2, 1, 0].foldl (fun c i => crc7Bit c (d.getLsbD i)) crc) &&& 0x7F

/-- The CRC register after a byte list, from the seed (R151). -/
def crc7 (bs : List Byte) : Byte := bs.foldl crc7Step crcSeed

/-- The trailer value: a computed 0x00 becomes 0x80 (R151). -/
def crcTrailer (bs : List Byte) : Byte := if crc7 bs = 0x00 then 0x80 else crc7 bs

/-- `CrcSpan(n)` (R151): the trailer value of `FB[0 .. n-1]`. -/
def crcSpan (m : Memory) (n : Nat) : Byte := crcTrailer (fbBytes m 0 n)

/-! ## The commands -/

/-- `ENC_NS` after its header (R153): the capacity test, the body after the header, the CRC in the last byte. -/
def encNsBody (s : State) (hl : Nat) : Ended :=
  let fl := s.hFl.toNat
  if s.fbLen.toNat < fl + 1 then .failed s.invalidateHeader .frameFit
  else
    let m := fbWrite s.mem hl (pbBytes s.mem 0 s.pbLen.toNat)
    .done { s with mem := fbWrite m fl [crcSpan m fl] } (fl + 1)

/-- `ENC_NS` (R153). A frame that does not fit leaves the old values in the header registers but `H_FL` (R264). -/
def execEncNs (s : State) : Host.Outcome State Fault Refusal :=
  command .encNs s fun s =>
    match hdrEncode s false s.aFtype s.aSeq s.aId s.aIl.toNat s.pbLen.toNat tlNonSecure with
    | .failed s e => .failed s e
    | .done t hl => (encNsBody t hl).revertHeader s

/-- The tests of `DEC_NS` in their order (R157). The secure flag is not tested (R158). -/
def decNsError (s : State) : Option Err :=
  firstFailing
    [(s.hFl == 0x00, .hdrInvalid),
     (decide (s.hTl ≠ tlNonSecure), .trailerLen),
     (decide (s.fbLen.toNat < s.hFl.toNat + 1), .frameFit),
     (crcSpan s.mem s.hFl.toNat != fbByte s.mem s.hFl.toNat, .crc)]

/-- `DEC_NS` (R157). -/
def execDecNs (s : State) : Host.Outcome State Fault Refusal :=
  command .decNs s fun s =>
    match decNsError s with
    | some e => .failed s e
    | none => .done s (s.hFl.toNat + 1)

end Sys2Proof.Machine
end

