-- ==== Sys2Proof/Machine/Aes.lean ====
section
/-! DEFINITION. AES-128 block encryption (spec/45_aead_interface.md R243, R244), the spec's "from general knowledge"
(G2; notes/assumptions/16.md). Only the forward cipher is used (R243). -/
namespace Sys2Proof.Machine

/-- Byte-wise exclusive or of byte strings (R242). -/
def xorBytes (a b : List Byte) : List Byte := List.zipWith (· ^^^ ·) a b

/-- `xtime(a)` = `a·2` in GF(2^8) modulo 0x11B (R243). -/
def xtime (a : Byte) : Byte := if a.getLsbD 7 then (a <<< 1) ^^^ 0x1B else a <<< 1

/-- The S-box by rows: row = high nibble, column = low nibble (R244). -/
def sboxRows : List (List Byte) :=
  [[0x63, 0x7c, 0x77, 0x7b, 0xf2, 0x6b, 0x6f, 0xc5, 0x30, 0x01, 0x67, 0x2b, 0xfe, 0xd7, 0xab, 0x76],
   [0xca, 0x82, 0xc9, 0x7d, 0xfa, 0x59, 0x47, 0xf0, 0xad, 0xd4, 0xa2, 0xaf, 0x9c, 0xa4, 0x72, 0xc0],
   [0xb7, 0xfd, 0x93, 0x26, 0x36, 0x3f, 0xf7, 0xcc, 0x34, 0xa5, 0xe5, 0xf1, 0x71, 0xd8, 0x31, 0x15],
   [0x04, 0xc7, 0x23, 0xc3, 0x18, 0x96, 0x05, 0x9a, 0x07, 0x12, 0x80, 0xe2, 0xeb, 0x27, 0xb2, 0x75],
   [0x09, 0x83, 0x2c, 0x1a, 0x1b, 0x6e, 0x5a, 0xa0, 0x52, 0x3b, 0xd6, 0xb3, 0x29, 0xe3, 0x2f, 0x84],
   [0x53, 0xd1, 0x00, 0xed, 0x20, 0xfc, 0xb1, 0x5b, 0x6a, 0xcb, 0xbe, 0x39, 0x4a, 0x4c, 0x58, 0xcf],
   [0xd0, 0xef, 0xaa, 0xfb, 0x43, 0x4d, 0x33, 0x85, 0x45, 0xf9, 0x02, 0x7f, 0x50, 0x3c, 0x9f, 0xa8],
   [0x51, 0xa3, 0x40, 0x8f, 0x92, 0x9d, 0x38, 0xf5, 0xbc, 0xb6, 0xda, 0x21, 0x10, 0xff, 0xf3, 0xd2],
   [0xcd, 0x0c, 0x13, 0xec, 0x5f, 0x97, 0x44, 0x17, 0xc4, 0xa7, 0x7e, 0x3d, 0x64, 0x5d, 0x19, 0x73],
   [0x60, 0x81, 0x4f, 0xdc, 0x22, 0x2a, 0x90, 0x88, 0x46, 0xee, 0xb8, 0x14, 0xde, 0x5e, 0x0b, 0xdb],
   [0xe0, 0x32, 0x3a, 0x0a, 0x49, 0x06, 0x24, 0x5c, 0xc2, 0xd3, 0xac, 0x62, 0x91, 0x95, 0xe4, 0x79],
   [0xe7, 0xc8, 0x37, 0x6d, 0x8d, 0xd5, 0x4e, 0xa9, 0x6c, 0x56, 0xf4, 0xea, 0x65, 0x7a, 0xae, 0x08],
   [0xba, 0x78, 0x25, 0x2e, 0x1c, 0xa6, 0xb4, 0xc6, 0xe8, 0xdd, 0x74, 0x1f, 0x4b, 0xbd, 0x8b, 0x8a],
   [0x70, 0x3e, 0xb5, 0x66, 0x48, 0x03, 0xf6, 0x0e, 0x61, 0x35, 0x57, 0xb9, 0x86, 0xc1, 0x1d, 0x9e],
   [0xe1, 0xf8, 0x98, 0x11, 0x69, 0xd9, 0x8e, 0x94, 0x9b, 0x1e, 0x87, 0xe9, 0xce, 0x55, 0x28, 0xdf],
   [0x8c, 0xa1, 0x89, 0x0d, 0xbf, 0xe6, 0x42, 0x68, 0x41, 0x99, 0x2d, 0x0f, 0xb0, 0x54, 0xbb, 0x16]]

/-- `S[a]` by the table (R244). -/
def sbox (a : Byte) : Byte := (sboxRows.getD (a.toNat / 16) []).getD (a.toNat % 16) 0x00

/-- Multiplication in GF(2^8) (R243), by the bits of the second factor. -/
def gf8Mul (a b : Byte) : Byte :=
  ((List.range 8).foldl
    (fun (acc : Byte × Byte) i => (if b.getLsbD i then acc.1 ^^^ acc.2 else acc.1, xtime acc.2)) (0x00, a)).1

/-- `Affine(x)` of R243: bit `i` is `x[i] XOR x[i+4] XOR x[i+5] XOR x[i+6] XOR x[i+7] XOR c[i]`, indices modulo 8, `c = 0x63`. -/
def affine (x : Byte) : Byte :=
  x ^^^ x.rotateLeft 1 ^^^ x.rotateLeft 2 ^^^ x.rotateLeft 3 ^^^ x.rotateLeft 4 ^^^ 0x63

/-- A word of the key schedule: four bytes (R243). -/
abbrev KeyWord := List Byte

/-- `t` of the key expansion at an index divisible by 4 (R243): rotate, substitute, add the round constant. -/
def scheduleCore (t : KeyWord) (rc : Byte) : KeyWord :=
  xorBytes ((t.drop 1 ++ t.take 1).map sbox) [rc, 0x00, 0x00, 0x00]

/-- The key expansion's loop (R243): `ws` holds the words so far, the last one first. -/
def expandKey : Nat → Nat → Byte → List KeyWord → List KeyWord
  | 0, _, _, ws => ws.reverse
  | n + 1, i, rc, ws =>
    let t := ws.getD 0 []
    let w4 := ws.getD 3 []
    if i % 4 = 0 then expandKey n (i + 1) (xtime rc) (xorBytes w4 (scheduleCore t rc) :: ws)
    else expandKey n (i + 1) rc (xorBytes w4 t :: ws)

/-- The words `w[0..43]` of a 16-byte key (R243). -/
def keySchedule (key : List Byte) : List KeyWord :=
  expandKey 40 4 0x01 [(key.drop 12).take 4, (key.drop 8).take 4, (key.drop 4).take 4, key.take 4]

/-- Round key `rk[r]` (R243). -/
def roundKey (ws : List KeyWord) (r : Nat) : List Byte := ((ws.drop (4 * r)).take 4).flatten

/-- ShiftRows (R243): `st'[i] = st[(i + 4 * (i mod 4)) mod 16]`. -/
def shiftRows (st : List Byte) : List Byte := (List.range 16).map fun i => st.getD ((i + 4 * (i % 4)) % 16) 0x00

/-- MixColumns on one column (R243). -/
def mixColumn (a0 a1 a2 a3 : Byte) : List Byte :=
  [xtime a0 ^^^ (xtime a1 ^^^ a1) ^^^ a2 ^^^ a3,
   a0 ^^^ xtime a1 ^^^ (xtime a2 ^^^ a2) ^^^ a3,
   a0 ^^^ a1 ^^^ xtime a2 ^^^ (xtime a3 ^^^ a3),
   (xtime a0 ^^^ a0) ^^^ a1 ^^^ a2 ^^^ xtime a3]

/-- MixColumns (R243): columns of four consecutive bytes. -/
def mixColumns : List Byte → List Byte
  | a0 :: a1 :: a2 :: a3 :: rest => mixColumn a0 a1 a2 a3 ++ mixColumns rest
  | _ => []

/-- One round (R243); the tenth has no MixColumns. -/
def aesRound (ws : List KeyWord) (st : List Byte) (r : Nat) : List Byte :=
  let st := shiftRows (st.map sbox)
  xorBytes (if r < 10 then mixColumns st else st) (roundKey ws r)

/-- `Aes(key, blk)` (R243): 16-byte key, 16-byte block. -/
def aes (key blk : List Byte) : List Byte :=
  let ws := keySchedule key
  [1, 2, 3, 4, 5, 6, 7, 8, 9, 10].foldl (aesRound ws) (xorBytes blk (roundKey ws 0))

end Sys2Proof.Machine
end

