-- ==== Sys2Proof/Machine/Aead.lean ====
section
/-! DEFINITION. The AEAD engine (spec/45_aead_interface.md): AES-128-GCM (R245 to R247), the null test double (R252), and the
interface the block calls (R235 to R240). A text that is absent ("`none`", R238) is the empty list: the block passes 32 bytes
or none (R236). GCM is the spec's "from general knowledge" (G3; notes/assumptions/16.md). -/
namespace Sys2Proof.Machine

/-! ## GHASH -/

/-- A 16-byte block as a 128-bit string whose bit 0 is the most significant bit of byte 0 (R245). -/
def blockOf (bs : List Byte) : BitVec 128 := BitVec.ofNat 128 (be bs)

/-- The 16 bytes of a 128-bit string (R245). -/
def bytesOf (b : BitVec 128) : List Byte := (List.range 16).map fun i => b.extractLsb' (8 * (15 - i)) 8

/-- `R` of R245: `e1` and fifteen zero bytes. -/
def gcmR : BitVec 128 := 0xe1#128 <<< 120

/-- One step of `GfMul` (R245): `x` is bit `i` of `X`. -/
def gfMulStep (x : Bool) (zv : BitVec 128 × BitVec 128) : BitVec 128 × BitVec 128 :=
  (if x then zv.1 ^^^ zv.2 else zv.1, if zv.2.getLsbD 0 then (zv.2 >>> 1) ^^^ gcmR else zv.2 >>> 1)

/-- `GfMul(X, Y)` in GF(2^128) (R245). -/
def gfMul (x y : BitVec 128) : BitVec 128 :=
  ((List.range 128).foldl (fun zv i => gfMulStep (x.getMsbD i) zv) (0#128, y)).1

/-- Cut a byte string into blocks of 16, at most `n` of them. -/
def blocks : Nat → List Byte → List (List Byte)
  | 0, _ => []
  | _ + 1, [] => []
  | n + 1, b :: bs => (b :: bs).take 16 :: blocks n ((b :: bs).drop 16)

/-- `GHash(H, D)` (R245). -/
def ghash (h : BitVec 128) (d : List Byte) : BitVec 128 :=
  (blocks d.length d).foldl (fun y blk => gfMul (y ^^^ blockOf blk) h) 0#128

/-! ## AES-128-GCM -/

/-- `pad16(s)`: the fewest zero bytes that make the length a multiple of 16 (R246). -/
def pad16 (bs : List Byte) : List Byte := bs ++ List.replicate ((16 - bs.length % 16) % 16) 0x00

/-- A number as `n` big-endian bytes. -/
def beBytes (n v : Nat) : List Byte := (List.range n).map fun i => BitVec.ofNat 8 (v >>> (8 * (n - 1 - i)))

/-- `len64(s)`: the length in bits as an 8-byte big-endian number (R246). -/
def len64 (bs : List Byte) : List Byte := beBytes 8 (8 * bs.length)

/-- The key stream of R246 for `n` bytes: `Aes(key, iv || be32(b + 2))` for block index `b`. -/
def gcmKeyStream (key iv : List Byte) (n : Nat) : List Byte :=
  (List.range ((n + 15) / 16)).flatMap fun b => aes key (iv ++ beBytes 4 (b + 2))

/-- The text under the key stream; encryption and decryption are the same (R246, R247). -/
def gcmText (key iv text : List Byte) : List Byte := xorBytes text (gcmKeyStream key iv text.length)

/-- The tag over authenticated data and ciphertext (R246). -/
def gcmTag (key iv aad ct : List Byte) : List Byte :=
  let h := blockOf (aes key (List.replicate 16 0x00))
  xorBytes (bytesOf (ghash h (pad16 aad ++ pad16 ct ++ (len64 aad ++ len64 ct)))) (aes key (iv ++ beBytes 4 1))

/-- `AeadEnc` of AES-128-GCM (R246); it never fails (R241). -/
def gcmEnc (key iv aad pt : List Byte) : Option (List Byte × List Byte) :=
  let ct := gcmText key iv pt
  some (ct, gcmTag key iv aad ct)

/-- `AeadDec` of AES-128-GCM (R247): the tag is checked before any plaintext is produced. -/
def gcmDec (key iv aad ct tag : List Byte) : Option (List Byte) :=
  if gcmTag key iv aad ct = tag then some (gcmText key iv ct) else none

/-! ## The null test double -/

/-- The tag of the null double: the IV and four zero bytes (R252). -/
def nullTag (iv : List Byte) : List Byte := iv ++ [0x00, 0x00, 0x00, 0x00]

/-- `AeadEnc` of the null double (R252). -/
def nullEnc (iv pt : List Byte) : Option (List Byte × List Byte) := some (pt, nullTag iv)

/-- `AeadDec` of the null double (R252). -/
def nullDec (iv ct tag : List Byte) : Option (List Byte) := if tag = nullTag iv then some ct else none

/-! ## The interface -/

/-- A byte string as exactly `n` bytes. An instance of R240 (d) answers texts and tags of the right length, and for those
this is the identity; it makes the lengths hold of every opaque instance (notes/assumptions/7.md). -/
def exactly (n : Nat) (bs : List Byte) : List Byte := (List.range n).map fun i => bs.getD i 0x00

/-- `AeadEnc(key, iv, aad, pt)` of the block's AEAD engine (R236): `none` is `ok = 0`. -/
def aeadEnc (k : AeadKind) (key iv aad pt : List Byte) : Option (List Byte × List Byte) :=
  match k with
  | .aes128Gcm => gcmEnc key iv aad pt
  | .nullDouble => nullEnc iv pt
  | .other i =>
    match Config.otherAeadEnc i key iv aad pt with
    | some (ct, tag) => some (exactly pt.length ct, exactly tagLen tag)
    | none => none

/-- `AeadDec(key, iv, aad, ct, tag)` of the block's AEAD engine (R237): `none` is `ok = 0`. -/
def aeadDec (k : AeadKind) (key iv aad ct tag : List Byte) : Option (List Byte) :=
  match k with
  | .aes128Gcm => gcmDec key iv aad ct tag
  | .nullDouble => nullDec iv ct tag
  | .other i =>
    match Config.otherAeadDec i key iv aad ct tag with
    | some pt => some (exactly ct.length pt)
    | none => none

end Sys2Proof.Machine
end

