-- ==== Sys2Proof/Machine/Secure.lean ====
section
/-! DEFINITION. The secure frame codec (spec/43_secure_codec.md): `PAD32`, `UNPAD32`, `RawEncode`, `ENC_RAW`, `RawDecode`,
`DEC_RAW`, `ENC_SEC`. -/
namespace Sys2Proof.Machine

/-! ## Padding -/

/-- What `Pad32(n)` writes to `PB[n .. 31]` (R117, R167): zeros up to index 30, then the count byte `31 - n`. -/
def padding (n : Nat) : List Byte := List.replicate (ptMax - n) 0x00 ++ [BitVec.ofNat 8 (ptMax - n)]

/-- `Pad32(n)` (R167). -/
def pad32 (s : State) (n : Nat) : Ended :=
  if ptMax < n then .failed s .ptLen else .done { s with mem := pbWrite s.mem n (padding n) } encBody

/-- `PAD32` (R166). -/
def execPad32 (s : State) : Host.Outcome State Fault Refusal :=
  command .pad32 s fun s => pad32 s s.pbLen.toNat

/-- `UNPAD32` (R168): only the count byte is read, the padding is not verified (R169). -/
def execUnpad32 (s : State) : Host.Outcome State Fault Refusal :=
  command .unpad32 s fun s =>
    let z := (pbByte s.mem 31).toNat
    if ptMax < z then .failed s .pad else .done s (ptMax - z)

/-! ## RawEncode -/

/-- The tests `RawEncode` makes before it writes anything, in the order of its rule (R173, R266; notes/assumptions/11.md). -/
def rawEncodeError (s : State) : Option Err :=
  firstFailing
    [(!s.keyOk, .noKey),
     (!s.ivOk, .noIv),
     (decide (encRawMaxPt < s.pbLen.toNat), .ptLen),
     (decide (s.params.scratchBytes < s.params.needEncRaw), .scratch)]

/-- `ebl` of R173: 0 without a plaintext, else 32. -/
def State.encryptedLen (s : State) : Nat := if s.pbLen = 0x00 then 0 else encBody

/-- "pads plaintext in place if non-empty" (R173, R176). -/
def padBody (s : State) : Ended := if s.pbLen = 0x00 then .done s 0 else pad32 s s.pbLen.toNat

/-- `RawEncode` once the header fits and the body is padded (R173): encrypt, then ciphertext, counter, tag and format byte
behind the header (R108). -/
def sealFrame (s : State) (hl ebl : Nat) : Ended :=
  match aeadEnc s.params.aead s.key.toList s.iv.toList (fbBytes s.mem 0 hl) (pbBytes s.mem 0 ebl) with
  | none => .failed s.invalidateHeader .encrypt
  | some (ct, tag) =>
    .done { s with mem := fbWrite s.mem hl (ct ++ nonceCtr s.iv ++ tag ++ [formatByte]) }.zeroScratch (s.hFl.toNat + 1)

/-- `RawEncode` from the header encode on (R173): "every failure first does `H_FL <- 0`". -/
def rawEncodeBody (s : State) (hl ebl : Nat) : Ended :=
  if s.fbLen.toNat < s.hFl.toNat + 1 then .failed s.invalidateHeader .frameFit
  else
    match padBody s with
    | .failed s e => .failed s.invalidateHeader e
    | .done s _ => sealFrame s hl ebl

/-- `RawEncode(id)` (R173). A failure after the header encode leaves the old values in the header registers but `H_FL`
(R264). -/
def rawEncode (s : State) (id : Bytes 8) : Ended :=
  match rawEncodeError s with
  | some e => .failed s e
  | none =>
    match hdrEncode s true s.aFtype (nonceSeq s.iv) id s.aIl.toNat s.encryptedLen tlSecure with
    | .failed s e => .failed s e
    | .done t hl => (rawEncodeBody t hl t.encryptedLen).revertHeader s

/-- `ENC_RAW` (R172). -/
def execEncRaw (s : State) : Host.Outcome State Fault Refusal :=
  command .encRaw s fun s => rawEncode s s.aId

/-! ## RawDecode -/

/-- The tests `RawDecode` makes before it calls the AEAD engine, in the order of its rule (R181). -/
def rawDecodeError (s : State) : Option Err :=
  firstFailing
    [(!s.keyOk, .noKey),
     (!s.ivOk, .noIv),
     (decide (s.params.scratchBytes < s.params.needDecRaw), .scratch),
     (s.hFl == 0x00, .hdrInvalid),
     (decide (s.hTl ≠ tlSecure), .trailerLen),
     (decide (s.fbLen.toNat < s.hFl.toNat + 1), .frameFit),
     (fbByte s.mem s.hFl.toNat != formatByte, .trailerFmt),
     (decide (s.hBl.toNat ≠ 0 ∧ s.hBl.toNat ≠ encBody), .bodySize),
     (seqOf s.hSeqIl != nonceSeq s.iv, .seq)]

/-- The authenticated data of the frame in `FB`: the `4 + il` header bytes as received (R181). -/
def State.frameAad (s : State) : List Byte := fbBytes s.mem 0 (4 + s.headerIl)

/-- The ciphertext of the frame in `FB`: 32 bytes, or none when `bl` is not 32 (R181). -/
def State.frameCt (s : State) : List Byte := if s.hBl.toNat = encBody then fbBytes s.mem (4 + s.headerIl) encBody else []

/-- The tag of the frame in `FB`: `FB[t+6 .. t+21]` (R181). -/
def State.frameTag (s : State) : List Byte := fbBytes s.mem (4 + s.headerIl + s.hBl.toNat + ctrLen) tagLen

/-- The plaintext length a decrypted block gives (R181, R184): `31 - count`, and 0 for a count byte above 31. -/
def unpaddedLen (pt : List Byte) : Nat :=
  let z := (pt.getD 31 0x00).toNat
  if ptMax < z then 0 else ptMax - z

/-- `RawDecode` after the tag has verified (R181 to R184): deliver the plaintext, or report `RESULT_NO_BODY`. -/
def deliver (s : State) (pt : List Byte) : Ended :=
  if s.ptWant ∧ s.hBl ≠ 0x00 then
    let n := unpaddedLen pt
    if ptMax < n ∨ s.pbCap.toNat < n then .failed s .ptCap
    else
      .done { s with mem := pbWrite s.mem 0 (pt.take n), pbLen := BitVec.ofNat 8 n }.zeroScratch (s.hFl.toNat + 1)
  else .done { s with pbLen := 0x00 }.zeroScratch resultNoBody

/-- `RawDecode()` (R181). -/
def rawDecode (s : State) : Ended :=
  match rawDecodeError s with
  | some e => .failed s e
  | none =>
    match aeadDec s.params.aead s.key.toList s.iv.toList s.frameAad s.frameCt s.frameTag with
    | none => .failed s .auth
    | some pt => deliver s pt

/-- `DEC_RAW` (R180). -/
def execDecRaw (s : State) : Host.Outcome State Fault Refusal :=
  command .decRaw s fun s => rawDecode s

/-! ## ENC_SEC -/

/-- The three tests of `ENC_SEC` in their order (R190). -/
def encSecError (s : State) : Option Err :=
  firstFailing
    [(decide (encSecMaxIlBody < s.aIl.toNat ∧ s.pbLen ≠ 0x00), .idLenBody),
     (s.aFtype == ftNone || ftInvalidHigh.ule s.aFtype, .fType),
     (decide (s.params.scratchBytes < s.params.needEncSec), .scratch)]

/-- `ENC_SEC` (R190): the nonce from `TX_ID` and `CTR_A`, then `RawEncode(TX_ID)`. `CTR_A` is not advanced (R191). -/
def execEncSec (s : State) : Host.Outcome State Fault Refusal :=
  command .encSec s fun s =>
    match encSecError s with
    | some e => .failed s e
    | none => rawEncode (s.setNonce s.txId s.ctrA) s.txId

end Sys2Proof.Machine
end

