-- ==== Sys2Proof/Machine/Replay.lean ====
section
/-! DEFINITION. The replay/association guard (spec/44_replay_guard.md R208 to R228): `Lookup`, `RX_LOOKUP`, `RX_VALIDATE`,
`RX_COMMIT`, `DEC_SEC`. -/
namespace Sys2Proof.Machine

/-- Entry `k` is valid and its ID starts with the first `len` bytes of `p` (R208). -/
def entryMatches (m : Memory) (p : Bytes 8) (len k : Nat) : Bool :=
  assocValid m k && (assocId m k).toList.take len == p.toList.take len

/-- `Lookup(p, len)` (R208): the first matching entry in ascending order. `n` is `ASSOC_N`. -/
def lookup (m : Memory) (n : Nat) (p : Bytes 8) (len : Nat) : Option Nat :=
  (List.range n).find? fun k => entryMatches m p len k

/-- The counter compares strictly greater than the stored counter of entry `k` (R213, R216, R221). -/
def isNewer (s : State) (c : Bytes 6) (k : Nat) : Bool := decide (ctrValue (assocCtr s.mem k) < ctrValue c)

/-- `RX_LOOKUP` (R210). -/
def execRxLookup (s : State) : Host.Outcome State Fault Refusal :=
  command .rxLookup s fun s =>
    if maxIl < s.aIl.toNat then .failed s .idLen
    else
      match lookup s.mem s.params.assocN s.aId s.aIl.toNat with
      | none => .failed { s with assocIdx := noEntry } .unknownId
      | some k =>
        .done { s with assocIdx := BitVec.ofNat 8 k, nodeId := assocId s.mem k, ctrB := assocCtr s.mem k } 1

/-- `RX_VALIDATE` (R213). -/
def execRxValidate (s : State) : Host.Outcome State Fault Refusal :=
  command .rxValidate s fun s =>
    match lookup s.mem s.params.assocN s.nodeId 8 with
    | none => .failed { s with assocIdx := noEntry } .unknownId
    | some k =>
      let s := { s with assocIdx := BitVec.ofNat 8 k }
      if isNewer s s.ctrA k then .done s 1 else .failed s .replay

/-- `RX_COMMIT` (R216): the strictly-greater test is made at the moment of the write, then `COMMIT_OK` is sampled (R217). -/
def execRxCommit (s : State) : Host.Outcome State Fault Refusal :=
  command .rxCommit s fun s =>
    match lookup s.mem s.params.assocN s.nodeId 8 with
    | none => .failed { s with assocIdx := noEntry } .unknownId
    | some k =>
      let s := { s with assocIdx := BitVec.ofNat 8 k }
      if !isNewer s s.ctrA k then .failed s .replay
      else if !s.commitOk then .failed s .commit
      else .done { s with mem := setAssocCtr s.mem k s.ctrA } 1

/-! ## DEC_SEC -/

/-- The tests of `DEC_SEC` between `HeaderValid` and the lookup, in their order (R221). -/
def decSecError (s : State) : Option Err :=
  firstFailing
    [(decide (s.params.scratchBytes < s.params.needDecSec), .scratch),
     (decide (s.hTl ≠ tlSecure), .trailerLen),
     (decide (s.fbLen.toNat < s.hFl.toNat + 1), .frameFit)]

/-- The message counter in the trailer: `FB[H_TOFF + j]` (R221). -/
def State.frameCtr (s : State) : Bytes 6 := Vector.ofFn fun j => fbByte s.mem (s.hToff + j.val)

/-- `DEC_SEC` once the frame is authenticated (R221): the commit, guarded by `COMMIT_OK` and by the strictly-greater test. -/
def decSecCommit (s : State) (k : Nat) (ctr : Bytes 6) (r : Nat) : Ended :=
  let s := s.enter .authenticated
  if !s.commitOk || !isNewer s ctr k then reject s .commit
  else .done (State.enter { s with mem := setAssocCtr s.mem k ctr } .counterCommitted) r

/-- `DEC_SEC` once the sender is resolved to entry `k` (R221): the replay check before any decryption (R223), the nonce,
`RawDecode`, the commit. -/
def decSecAuthenticate (s : State) (k : Nat) : Ended :=
  let s := s.enter .idResolved
  let ctr := s.frameCtr
  if !isNewer s ctr k then reject s .replay
  else
    match rawDecode ((s.enter .counterChecked).setNonce s.nodeId ctr) with
    | .failed s e => reject s e
    | .done s r => decSecCommit s k ctr r

/-- `DEC_SEC` with a valid header (R221): the structural tests and the lookup. -/
def decSecResolve (s : State) : Ended :=
  let s := s.enter .headerValid
  match decSecError s with
  | some e => reject s e
  | none =>
    match lookup s.mem s.params.assocN s.hId s.headerIl with
    | none => reject { s with assocIdx := noEntry } .unknownId
    | some k => decSecAuthenticate { s with assocIdx := BitVec.ofNat 8 k, nodeId := assocId s.mem k } k

/-- `DEC_SEC` (R220, R221). -/
def execDecSec (s : State) : Host.Outcome State Fault Refusal :=
  command .decSec s fun s =>
    let s := s.beginAttempt
    if s.hFl = 0x00 then reject s .hdrInvalid else decSecResolve s

end Sys2Proof.Machine
end

