-- ==== Sys2Proof/Machine/System.lean ====
section
/-! DEFINITION. System commands and resets (spec/46_system_commands.md; spec/70_reset_and_hazards.md R290): `NOP`, `SRST`, the
reserved codes, hardware reset. -/
namespace Sys2Proof.Machine

/-- `NOP` (R255): `CMD`, `RESULT`, `ERR`, nothing else. -/
def execNop (s : State) : Host.Outcome State Fault Refusal :=
  command .nop s fun s => .done s 0

/-- Hardware reset (R290): the block takes its reset values; the parameters, the inputs and what the host goes on to do are
not the block's (notes/assumptions/3.md, 4.md, 5.md). -/
def hardReset (s : State) : State :=
  { State.reset with params := s.params, commitOk := s.commitOk, rdata := s.rdata, host := s.host }

/-- The association table's part of memory, kept by a soft reset (R257); `FB` and `PB` lie below it (R70). -/
def keepTable (m : Memory) : Memory := m.filter fun c => decide (assocBase 0 ≤ c.1)

/-- `SRST` (R257): hardware-reset values but for the association table, and `CMD = 0xFF`. -/
def execSrst (s : State) : Host.Outcome State Fault Refusal :=
  command .srst s fun s => .done { hardReset s with mem := keepTable s.mem, cmd := s.cmd } 0

/-- A reserved code (R112, R258): `CMD` holds the code, `RESULT <- 0`, `ERR <- 0x7F`, "no other state changes"
(notes/assumptions/12.md). -/
def reservedCommand (c : Byte) (s : State) : State := { s with cmd := c, result := 0x00, err := Err.badCmd.code }

end Sys2Proof.Machine
end

