-- ==== Sys2Proof/Machine/Dispatch.lean ====
section
/-! DEFINITION. One arm per command (spec/30_encoding.md R111). -/
namespace Sys2Proof.Machine

-- Each arm is one direct call of the command's meaning.
def exec (i : Instr) (s : State) : Host.Outcome State Fault Refusal :=
  match i with
  | .nop => Sys2Proof.Machine.execNop s
  | .encHdr => Sys2Proof.Machine.execEncHdr s
  | .decHdr => Sys2Proof.Machine.execDecHdr s
  | .encNs => Sys2Proof.Machine.execEncNs s
  | .decNs => Sys2Proof.Machine.execDecNs s
  | .pad32 => Sys2Proof.Machine.execPad32 s
  | .unpad32 => Sys2Proof.Machine.execUnpad32 s
  | .encRaw => Sys2Proof.Machine.execEncRaw s
  | .decRaw => Sys2Proof.Machine.execDecRaw s
  | .encSec => Sys2Proof.Machine.execEncSec s
  | .decSec => Sys2Proof.Machine.execDecSec s
  | .ctrCmp => Sys2Proof.Machine.execCtrCmp s
  | .ctrAdd => Sys2Proof.Machine.execCtrAdd s
  | .rxLookup => Sys2Proof.Machine.execRxLookup s
  | .rxValidate => Sys2Proof.Machine.execRxValidate s
  | .rxCommit => Sys2Proof.Machine.execRxCommit s
  | .srst => Sys2Proof.Machine.execSrst s

end Sys2Proof.Machine
end

