-- ==== Sys2Proof/Machine/HostPort.lean ====
section
/-! DEFINITION. The host port (spec/20_memory.md R65, R80, spec/30_encoding.md R110): what each host action does, the write to
`CMD` that starts a command among them. -/
namespace Sys2Proof.Machine

/-- A write of `c` to `CMD` (R65, R110, R112): decode the code, run the command to completion; a reserved code takes
`E_BAD_CMD`. -/
def issueCommand (c : Byte) (s : State) : Host.Outcome State Fault Refusal :=
  match decode [c] with
  | .ok (i, _) => exec i s
  | .error _ => .next (reservedCommand c s)

/-- `MemWrite(a, 1, v)` (R60, R65). -/
def busWrite (s : State) (a : BusAddr) (v : Byte) : Host.Outcome State Fault Refusal :=
  match locOf s.params.assocN a with
  | .cmd => issueCommand v s
  | l => .next (writeLoc s v l)

/-- What a host action does, between two commands (R80). The byte a read returns is left in `rdata`. -/
def perform (s : State) : HostAction → Host.Outcome State Fault Refusal
  | .read a => .next { s with rdata := busRead s a }
  | .write a v => busWrite s a v
  | .setBits a m => busWrite { s with rdata := busRead s a } a (busRead s a ||| m)
  | .writeIfOk a v =>
    let s := { s with rdata := busRead s Loc.err.addr }
    if s.rdata = 0x00 then busWrite s a v else .next s
  | .driveCommitOk b => .next { s with commitOk := b }
  | .hardReset => .next (hardReset s)

/-- The next host action is taken from the list and performed (R80); with none pending the block "is idle and waits for bus
accesses" (R290; notes/assumptions/2.md). -/
def hostStep (s : State) : Host.Outcome State Fault Refusal :=
  match s.host with
  | [] => .next s
  | a :: rest => perform { s with host := rest } a

/-- The host writes the code in the low byte of `w` to `CMD` next (notes/assumptions/1.md). -/
def fetchAction (w : Nat) : HostAction := .write Loc.cmd.addr (BitVec.ofNat 8 w)

end Sys2Proof.Machine
end

