-- ==== Sys2Proof/Machine/Step.lean ====
section
/-! DEFINITION. One step of the machine: one host action, or nothing when none is pending. -/
namespace Sys2Proof.Machine

/-- One step (R80: "a model is a step function `state × host_action → state`"; the action is the oldest of `State.host`). A
block whose `ASSOC_N` is 0 or above 64 does not exist and is refused (R10, U18). -/
def step (s : State) : Host.Outcome State Fault Refusal :=
  if s.params.wf then hostStep s else .refused .assocSizeOutOfRange

/-- `s` with the instruction `w` where the next step takes it from: the host writes the code to `CMD` next. -/
def State.withFetchWord (s : State) (_nbits w : Nat) : State := { s with host := fetchAction w :: s.host }

end Sys2Proof.Machine
end

