-- ==== Sys2Proof/Safety.lean ====
section
/-! DEFINITION. What counts as a safe state and a safe step: the terms the statements use. -/
namespace Sys2Proof.Machine

/-- The outcome is a next state: neither a fault nor a refusal. -/
def Completes (o : Host.Outcome State Fault Refusal) : Prop := ∃ t, o = .next t

/-- What a valid header keeps, whichever command produced it (spec/41_header_codec.md R142). -/
structure HeaderOk (s : State) : Prop where
  /-- `4 <= H_FL`. -/
  flLow : 4 ≤ s.hFl.toNat
  /-- `H_FL <= 63`. -/
  flHigh : s.hFl.toNat ≤ 63
  /-- `H_TYPE[6:0]` in 0x01..0x7E. -/
  typeLow : 0x01 ≤ (s.hType.extractLsb' 0 7).toNat
  /-- `H_TYPE[6:0]` in 0x01..0x7E. -/
  typeHigh : (s.hType.extractLsb' 0 7).toNat ≤ 0x7E
  /-- `il = H_SEQIL[3:0] <= 8`. -/
  il : s.headerIl ≤ 8
  /-- `4 + il + H_BL <= H_FL`. -/
  fits : 4 + s.headerIl + s.hBl.toNat ≤ s.hFl.toNat
  /-- `H_TL = 1` if `H_TYPE[7] = 0`. -/
  crcTrailer : isSecure s.hType = false → s.hTl = 1
  /-- `H_ID[i] = 0x00` for `i >= il`. -/
  idZero : ∀ (i : Nat) (h : i < 8), s.headerIl ≤ i → s.hId[i] = 0x00

/-- The values `ERR` can take (spec/60_exceptions.md R265). -/
def legalErrs : List Byte :=
  [0x00, 0x10, 0x11, 0x12, 0x13, 0x14, 0x15, 0x16, 0x17, 0x18, 0x19, 0x1A, 0x1B, 0x1C, 0x1D, 0x1E, 0x1F,
   0x20, 0x21, 0x22, 0x23, 0x30, 0x31, 0x32, 0x40, 0x41, 0x42, 0x43, 0x44, 0x50, 0x7F]

/-- The pairs (`FSM`, `FSM_TRACE`) that a command can leave (spec/44_replay_guard.md R228): `FSM` is "the index of the highest
set bit". -/
def legalAttempts : List (Byte × Byte) :=
  [(0, 0x01), (1, 0x03), (7, 0x81), (7, 0x83), (7, 0x87), (7, 0x8F), (7, 0x9F), (5, 0x3F)]

/-- The addresses that are memory for `ASSOC_N = n` (R70): `FB`, `PB`, and the fields of the table's entries. -/
def isStorage (n a : Nat) : Prop :=
  (0x080 ≤ a ∧ a < 0x100) ∨ (0x100 ≤ a ∧ a < 0x100 + 16 * n ∧ a % 16 ≠ 15)

/-- The invariant of the block: what every step keeps. -/
structure Inv (s : State) : Prop where
  /-- `1 <= ASSOC_N <= 64` (R10). -/
  params : s.params.wf = true
  /-- Memory is in its canonical form. -/
  memWf : Memory.wf s.mem = true
  /-- Memory holds bytes only where the map has storage (R70): reserved and unmapped locations hold nothing (R65). -/
  storage : ∀ c ∈ s.mem, isStorage s.params.assocN c.1
  /-- `VALID` is one bit (R30, R65). -/
  validBit : ∀ k, (Memory.read s.mem (assocBase k)).toNat ≤ 1
  /-- Scratch is all zero between commands (R37, R239). -/
  scratch : s.scratch = []
  /-- `FB_LEN` holds 0..64 (R24). -/
  fbLen : s.fbLen.toNat ≤ 64
  /-- `PB_CAP` holds 0..64 (R24). -/
  pbCap : s.pbCap.toNat ≤ 64
  /-- `CTRL[7:3]` read 0 (R36). -/
  ctrl : s.ctrl.toNat < 8
  /-- The header registers are invalid or hold a header that passed its checks (R26, R142). -/
  header : s.hFl = 0x00 ∨ HeaderOk s
  /-- `FSM` and `FSM_TRACE` hold a pair of R228. -/
  attempt : (s.fsm, s.fsmTrace) ∈ legalAttempts
  /-- `ERR` holds a code of R265. -/
  err : s.err ∈ legalErrs
  /-- `ASSOC_IDX` is an index of the table or 0xFF (R32). -/
  assocIdx : s.assocIdx = 0xFF ∨ s.assocIdx.toNat < s.params.assocN

/-! ## What memory holds after a store -/

/-- `m'` reads as `m` does, but for the bytes `bs` at the addresses from `base` on: what was stored, and that nothing else
was. -/
def Stored (m : Memory) (base : Nat) (bs : List Byte) (m' : Memory) : Prop :=
  ∀ a, Memory.read m' a = if base ≤ a ∧ a < base + bs.length then bs.getD (a - base) 0x00 else Memory.read m a

/-! ## The spec's tests as a value of `ERR`

`0x00` when every test passes, else the code of the first test that fails (spec/60_exceptions.md R266). -/

/-- The five tests of `HdrEncode`, row by row (spec/41_header_codec.md R132). -/
def encodeVerdict (secure : Bool) (ftype : Byte) (il bl tl cap : Nat) : Byte :=
  if ftype = 0x00 ∨ 0x7F ≤ ftype.toNat then 0x10
  else if 8 < il then 0x11
  else if cap < 4 + il then 0x12
  else if 59 < il + bl then 0x13
  else if secure = true ∧ (tl < 1 ∨ 63 < 3 + il + bl + tl) then 0x14
  else if secure = false ∧ tl ≠ 1 then 0x14
  else 0x00

/-- The ten tests of `HdrDecode`, row by row (spec/41_header_codec.md R137). `fb` is the frame buffer, `n` is `FB_LEN`. -/
def decodeVerdict (fb : Nat → Byte) (n : Nat) : Byte :=
  let fl := (fb 0).toNat
  let t := (fb 1).toNat % 128
  let il := (fb 2).toNat % 16
  let bl := (fb (3 + il)).toNat
  if n < 5 then 0x15
  else if fl < 4 then 0x16
  else if 63 < fl then 0x17
  else if t = 0x00 ∨ 0x7F ≤ t then 0x10
  else if 8 < il then 0x11
  else if fl < 4 + il then 0x18
  else if n < 4 + il then 0x12
  else if fl < 4 + il + bl then 0x13
  else if fl < n ∧ (fb fl = 0x00 ∨ fb fl = 0xFF) then 0x19
  else if (fb 1).toNat < 128 ∧ fl ≠ 4 + il + bl then 0x14
  else 0x00

/-- The failure codes each command can raise: the column "raised by" of spec/60_exceptions.md R265. -/
def raisedBy : Instr → List Byte
  | .nop | .srst | .ctrCmp => []
  | .encHdr => [0x10, 0x11, 0x12, 0x13, 0x14]
  | .decHdr => [0x10, 0x11, 0x12, 0x13, 0x14, 0x15, 0x16, 0x17, 0x18, 0x19]
  | .encNs => [0x10, 0x11, 0x12, 0x13, 0x41]
  | .decNs => [0x14, 0x1A, 0x20, 0x41]
  | .pad32 => [0x1E]
  | .unpad32 => [0x23]
  | .encRaw => [0x10, 0x11, 0x12, 0x14, 0x1E, 0x22, 0x40, 0x41, 0x43, 0x44]
  | .decRaw => [0x14, 0x1A, 0x1B, 0x1C, 0x1D, 0x21, 0x40, 0x41, 0x42, 0x43, 0x44]
  | .encSec => [0x10, 0x11, 0x12, 0x14, 0x1E, 0x1F, 0x22, 0x40, 0x41, 0x43]
  | .decSec => [0x14, 0x1A, 0x1B, 0x1C, 0x1D, 0x21, 0x30, 0x31, 0x32, 0x40, 0x41, 0x42, 0x43]
  | .ctrAdd => [0x50]
  | .rxLookup => [0x11, 0x30]
  | .rxValidate => [0x30, 0x31]
  | .rxCommit => [0x30, 0x31, 0x32]

/-! ## Frames, blocks and entries in the spec's own terms -/

/-- The `4 + il` header bytes (spec/30_encoding.md R100): `fl`, the type byte, `(seq << 4) | il`, the ID bytes, `bl`. -/
def headerBytes (fl : Nat) (type : Byte) (seq il bl : Nat) (id : Bytes 8) : List Byte :=
  [BitVec.ofNat 8 fl, type, BitVec.ofNat 8 (16 * seq + il)] ++ id.toList.take il ++ [BitVec.ofNat 8 bl]

/-- The padded plaintext block of the data bytes `bs` (spec/30_encoding.md R117). -/
def paddedBlock (bs : List Byte) : List Byte :=
  bs ++ List.replicate (31 - bs.length) 0x00 ++ [BitVec.ofNat 8 (31 - bs.length)]

/-- The data length of a padded block as `DEC_RAW` takes it: `31 - count`, or 0 for a count byte above 31
(spec/43_secure_codec.md R181, R184). -/
def dataLen (pt : List Byte) : Nat := if 31 < (pt.getD 31 0x00).toNat then 0 else 31 - (pt.getD 31 0x00).toNat

/-- Entry `k` is valid and its ID agrees with `p` in the first `len` bytes (spec/44_replay_guard.md R208). -/
def EntryMatches (m : Memory) (p : Bytes 8) (len k : Nat) : Prop :=
  (Memory.read m (0x100 + 16 * k)).getLsbD 0 = true ∧
    ∀ (j : Nat) (h : j < 8), j < len → Memory.read m (0x100 + 16 * k + 1 + j) = p[j]

/-- `k` is what `Lookup(p, len)` gives in a table of `n` entries: it matches, and no entry before it does (R208). -/
def FirstMatch (m : Memory) (n : Nat) (p : Bytes 8) (len k : Nat) : Prop :=
  k < n ∧ EntryMatches m p len k ∧ ∀ j < k, ¬ EntryMatches m p len j

/-- No entry matches (R208). -/
def NoMatch (m : Memory) (n : Nat) (p : Bytes 8) (len : Nat) : Prop := ∀ k < n, ¬ EntryMatches m p len k

/-- What the AEAD engine must satisfy for a round trip (spec/45_aead_interface.md R240 (b), (d)), for the key and IV lengths
the block passes. -/
def AeadCorrect (k : AeadKind) : Prop :=
  ∀ key iv aad pt ct tag, key.length = 16 → iv.length = 12 → aeadEnc k key iv aad pt = some (ct, tag) →
    aeadDec k key iv aad ct tag = some pt ∧ ct.length = pt.length ∧ tag.length = 16

/-! ## Runs -/

/-- `n` steps; `none` when one of them does not give a next state. -/
def run : Nat → State → Option State
  | 0, s => some s
  | n + 1, s =>
    match step s with
    | .next t => run n t
    | .fault _ => none
    | .refused _ => none

/-- The host action leaves the association table to the engine: no bus write into it, no hardware reset. -/
def HostAction.sparesTable : HostAction → Bool
  | .write a _ | .setBits a _ | .writeIfOk a _ => decide (a.toNat < 0x100)
  | .hardReset => false
  | .read _ | .driveCommitOk _ => true

end Sys2Proof.Machine
end

