-- ==== Sys2Proof/Certificates/Slice0/Obligations.lean ====
section
/-! DEFINITION. The statements for the provers, in the order of OBLIGATIONS.json: one definition per obligation. Numbers are
the spec's own; `R<n>` is a numbered rule of spec/. A next state is written as the old state with the fields that change, so
each statement says its frame: every other register is unchanged, and `Stored` says the same of every other byte of
memory. -/

open Sys2Proof Sys2Proof.Machine

/-! ## Decoding (spec/30_encoding.md) -/

/-- The words of the opcode map of R111, row by row, decode to their commands. A sanity statement on fixed words. -/
def Obligations.OpcodeMapDecodes : Prop :=
  decode [0x00] = .ok (.nop, []) ∧ decode [0x01] = .ok (.encHdr, []) ∧ decode [0x02] = .ok (.decHdr, []) ∧
  decode [0x03] = .ok (.encNs, []) ∧ decode [0x04] = .ok (.decNs, []) ∧ decode [0x05] = .ok (.pad32, []) ∧
  decode [0x06] = .ok (.unpad32, []) ∧ decode [0x07] = .ok (.encRaw, []) ∧ decode [0x08] = .ok (.decRaw, []) ∧
  decode [0x09] = .ok (.encSec, []) ∧ decode [0x0A] = .ok (.decSec, []) ∧ decode [0x0B] = .ok (.ctrCmp, []) ∧
  decode [0x0C] = .ok (.ctrAdd, []) ∧ decode [0x0D] = .ok (.rxLookup, []) ∧ decode [0x0E] = .ok (.rxValidate, []) ∧
  decode [0x0F] = .ok (.rxCommit, []) ∧ decode [0xFF] = .ok (.srst, [])

/-- Decoding and encoding agree in both directions (R90, R110, R111): bytes decode to a command and a rest exactly when they
are that command's one byte followed by the rest. -/
def Obligations.DecodeAndEncodeAgree : Prop :=
  ∀ (i : Instr) (bs rest : List Byte), decode bs = .ok (i, rest) ↔ i.wf = true ∧ bs = encode i ++ rest

/-- R112: writing a reserved code to `CMD` sets `CMD`, `RESULT`, `ERR` and changes nothing else. -/
def Obligations.ReservedCodeOnlyReports : Prop :=
  ∀ (s : State) (c : Byte), 0x10 ≤ c.toNat → c.toNat ≤ 0xFE →
    busWrite s 0x000 c = .next { s with cmd := c, result := 0x00, err := 0x7F }

/-! ## The step -/

/-- A step whose oldest host action writes the code of a well-formed command to `CMD` is that command's meaning, run with the
action taken from the list; `withFetchWord` makes the very next step such a step (R65, R80, R110; the list of host actions
is the model's, notes/assumptions/1.md). -/
def Obligations.StepRunsTheDecodedCommand : Prop :=
  (∀ (s : State) (c : Byte) (i : Instr) (rest : List HostAction), s.params.wf = true →
    s.host = .write 0x000 c :: rest → decode [c] = .ok (i, []) → i.wf = true →
    step s = exec i { s with host := rest }) ∧
  (∀ (s : State) (w : Nat) (i : Instr), s.params.wf = true → decodeTableWord 8 w = some i →
    step (s.withFetchWord 8 w) = exec i s)

/-- What a step does for each host action but the conditional write and the hardware reset, which have statements of their
own. With nothing for the host to do the block idles (R290, R292; notes/assumptions/2.md); a bus read leaves everything but
the model's `rdata` as it was (R65, R80; notes/assumptions/5.md); a bus write is performed as `busWrite` says; the
read-modify-write of R120 is one action (notes/assumptions/9.md), spelt out for `CTRL`, whose bits 7:3 stay 0 (R36, R65);
driving `COMMIT_OK` changes that input only (R217; notes/assumptions/4.md); a block with an impossible `ASSOC_N` is refused
(R10; notes/assumptions/8.md). -/
def Obligations.HostActionSteps : Prop :=
  (∀ s : State, s.params.wf = true → s.host = [] → step s = .next s) ∧
  (∀ (s : State) (a : BusAddr) (rest : List HostAction), s.params.wf = true → s.host = .read a :: rest →
    step s = .next { s with host := rest, rdata := busRead s a }) ∧
  (∀ (s : State) (a : BusAddr) (v : Byte) (rest : List HostAction), s.params.wf = true → s.host = .write a v :: rest →
    step s = busWrite { s with host := rest } a v) ∧
  (∀ (s : State) (a : BusAddr) (m : Byte) (rest : List HostAction), s.params.wf = true → s.host = .setBits a m :: rest →
    step s = busWrite { s with host := rest, rdata := busRead s a } a (busRead s a ||| m)) ∧
  (∀ (s : State) (m : Byte) (rest : List HostAction), s.params.wf = true → s.host = .setBits 0x006 m :: rest →
    step s = .next { s with host := rest, rdata := s.ctrl, ctrl := (s.ctrl ||| m) &&& 0x07 }) ∧
  (∀ (s : State) (b : Bool) (rest : List HostAction), s.params.wf = true → s.host = .driveCommitOk b :: rest →
    step s = .next { s with host := rest, commitOk := b }) ∧
  (∀ s : State, s.params.assocN = 0 ∨ 64 < s.params.assocN → step s = .refused .assocSizeOutOfRange)

/-- The notation's "only if `ERR = 0`" (R120; one host action in the model, notes/assumptions/9.md): after a failure the command
is not issued; otherwise it runs. -/
def Obligations.ConditionalCommandNeedsSuccess : Prop :=
  ∀ (s : State) (c : Byte) (i : Instr) (rest : List HostAction), s.params.wf = true →
    s.host = .writeIfOk 0x000 c :: rest → decode [c] = .ok (i, []) →
    (s.err ≠ 0x00 → step s = .next { s with host := rest, rdata := s.err }) ∧
    (s.err = 0x00 → step s = exec i { s with host := rest, rdata := 0x00 })

/-! ## The register space (spec/20_memory.md) -/

/-- The address map (R70), for every table size: the name of a location's address is that location, and every address is
reserved or is the address of the existing location it names. -/
def Obligations.AddressMapIsOneToOne : Prop :=
  ∀ n : Nat, n ≤ 64 →
    (∀ l : Loc, l.wf n = true → locOf n l.addr = l) ∧
    (∀ a : BusAddr, locOf n a = .reserved ∨ ((locOf n a).wf n = true ∧ (locOf n a).addr = a))

/-- R65 for every address but `CMD`: a bus write always completes, changes what a read returns at its own address only, and
there stores what the map (R70) says: narrow registers keep their low bits, `FB_LEN` and `PB_CAP` saturate, `KEY` reads 0x00
(and its byte is stored), read-only, reserved and unmapped addresses keep what they returned. -/
def Obligations.BusWriteStoresAtItsAddressOnly : Prop :=
  ∀ (s : State) (a : BusAddr) (v : Byte), s.params.wf = true → a ≠ 0x000 →
    ∃ t, busWrite s a v = .next t ∧
      (∀ b, b ≠ a → busRead t b = busRead s b) ∧
      (∀ (i : Nat) (h : i < 16), t.key[i] = if a.toNat = 0x050 + i then v else s.key[i]) ∧
      busRead t a =
        (let x := a.toNat
         let n := s.params.assocN
         if x = 0x006 then v &&& 0x07
         else if x = 0x009 then v &&& 0x01
         else if x = 0x00A then v &&& 0x0F
         else if x = 0x00E ∨ x = 0x010 then (if 64 < v.toNat then 64 else v)
         else if x = 0x008 ∨ (0x00B ≤ x ∧ x ≤ 0x011) ∨ (0x018 ≤ x ∧ x ≤ 0x01F) ∨ (0x030 ≤ x ∧ x ≤ 0x035) ∨
             (0x038 ≤ x ∧ x ≤ 0x03D) ∨ (0x040 ≤ x ∧ x ≤ 0x04B) ∨ (0x060 ≤ x ∧ x ≤ 0x06F) ∨ (0x080 ≤ x ∧ x ≤ 0x0FF) then v
         else if 0x050 ≤ x ∧ x ≤ 0x05F then 0x00
         else if 0x100 ≤ x ∧ x < 0x100 + 16 * n then
           (if x % 16 = 0 then v &&& 0x01 else if x % 16 = 15 then 0x00 else v)
         else if (0x012 ≤ x ∧ x ≤ 0x017) ∨ x = 0x02F ∨ x = 0x036 ∨ x = 0x037 ∨ x = 0x03E ∨ x = 0x03F ∨
             (0x04C ≤ x ∧ x ≤ 0x04F) ∨ (0x070 ≤ x ∧ x ≤ 0x07F) ∨ 0x100 ≤ x then 0x00
         else busRead s a)

/-- R28 and R35: `H_BOFF`, `H_TL`, `H_TOFF` from the header registers, with no subtraction below zero, and `STATUS` from
`ERR` and `H_FL`, in every state that the invariant allows. That `STATUS.BUSY` reads 0 in every state is the model's, by
inference: its commands are atomic (notes/assumptions/6.md). -/
def Obligations.ComputedViewsFollowTheRegisters : Prop :=
  ∀ s : State, Inv s →
    (s.hFl = 0x00 → busRead s 0x02C = 0x00 ∧ busRead s 0x02D = 0x00 ∧ busRead s 0x02E = 0x00) ∧
    (s.hFl ≠ 0x00 →
      (busRead s 0x02C).toNat = 4 + s.hSeqIl.toNat % 16 ∧
      (busRead s 0x02D).toNat + 3 + s.hSeqIl.toNat % 16 + s.hBl.toNat = s.hFl.toNat ∧
      (busRead s 0x02E).toNat = 4 + s.hSeqIl.toNat % 16 + s.hBl.toNat) ∧
    (busRead s 0x001).toNat = (if s.err = 0x00 then 2 else 0) + (if s.hFl = 0x00 then 0 else 4)

/-! ## Reset (spec/70_reset_and_hazards.md) -/

/-- R291, for every value of the parameters and of the inputs: what the host reads just after reset, at every address. -/
def Obligations.ResetReads : Prop :=
  ∀ (p : Params) (b : Bool) (a : BusAddr), p.wf = true →
    busRead { State.reset with params := p, commitOk := b } a =
      if a = 0x001 then 0x02 else if a = 0x005 then 0x01 else if a = 0x007 then 0xFF else 0x00

/-- R297, for every value of the parameters and of the inputs: the outcome of every command issued just after reset. -/
def Obligations.EveryCommandHasAnOutcomeAfterReset : Prop :=
  ∀ (p : Params) (b : Bool) (i : Instr),
    ∃ t, exec i { State.reset with params := p, commitOk := b } = .next t ∧
      (t.err, t.result) =
        (match i with
        | .encHdr | .encNs | .encSec => (0x10, 0x00)
        | .decHdr => (0x15, 0x00)
        | .decNs | .decSec => (0x1A, 0x00)
        | .encRaw | .decRaw => (0x43, 0x00)
        | .rxLookup | .rxValidate | .rxCommit => (0x30, 0x00)
        | .pad32 => (0x00, 0x20)
        | .unpad32 => (0x00, 0x1F)
        | .ctrAdd => (0x00, 0x01)
        | .ctrCmp | .nop | .srst => (0x00, 0x00)) ∧
      (i = .pad32 → Memory.read t.mem 0x0DF = 0x1F)

/-! ## Invariants and rules over all commands -/

/-- The machine right after reset satisfies the invariant. -/
def Obligations.ResetSatisfiesTheInvariant : Prop := Inv State.reset

/-- Every step keeps the invariant, from every state that has it: memory in canonical form and only where the map has storage,
`VALID` one bit, scratch zero, `FB_LEN` and `PB_CAP` at most 64, `CTRL[7:3] = 0`, the header registers invalid or a header
that passed its checks (R26, R142), `FSM` and `FSM_TRACE` a pair of R228, `ERR` a code of R265, `ASSOC_IDX` an index. -/
def Obligations.EveryStepKeepsTheInvariant : Prop :=
  ∀ s t : State, Inv s → step s = .next t → Inv t

/-- R262 and R265: every command, in every state, ends in a next state with `CMD` its code, and either `ERR = 0x00`, or
`RESULT = 0` and `ERR` one of the codes that the table lets this command raise. -/
def Obligations.EveryCommandReportsItsOutcome : Prop :=
  ∀ (i : Instr) (s : State), ∃ t, exec i s = .next t ∧ t.cmd = opcode i ∧
    (t.err = 0x00 ∨ (t.result = 0x00 ∧ t.err ∈ raisedBy i))

/-- R21, R22, R36: what no command but a soft reset writes, with the exceptions R22 lists; `CTRL` only ever gains `IV_OK`, in
`ENC_SEC` and `DEC_SEC`. The last line is the model's choice, not a rule of the spec: the parameters, the level of
`COMMIT_OK`, the byte the host read last and the pending host actions are the model's own fields, and it lets no command
write them (notes/assumptions/1.md, 3.md, 4.md, 5.md). -/
def Obligations.CommandsKeepTheArgumentRegisters : Prop :=
  ∀ (i : Instr) (s t : State), i ≠ .srst → exec i s = .next t →
    (t.aFtype = s.aFtype ∧ t.aSecure = s.aSecure ∧ t.aSeq = s.aSeq ∧ t.aIl = s.aIl ∧ t.aBl = s.aBl ∧ t.aTl = s.aTl ∧
      t.aId = s.aId ∧ t.fbLen = s.fbLen ∧ t.pbCap = s.pbCap ∧ t.delta = s.delta ∧ t.key = s.key ∧ t.txId = s.txId) ∧
    (i ≠ .decRaw → i ≠ .decSec → t.pbLen = s.pbLen) ∧
    (i ≠ .ctrAdd → t.ctrA = s.ctrA) ∧
    (i ≠ .rxLookup → t.ctrB = s.ctrB) ∧
    (i ≠ .rxLookup → i ≠ .decSec → t.nodeId = s.nodeId) ∧
    (i ≠ .encSec → i ≠ .decSec → t.iv = s.iv ∧ t.ctrl = s.ctrl) ∧
    (t.ctrl = s.ctrl ∨ t.ctrl = s.ctrl ||| 0x02) ∧
    (i ≠ .rxLookup → i ≠ .rxValidate → i ≠ .rxCommit → i ≠ .decSec → t.assocIdx = s.assocIdx) ∧
    t.params = s.params ∧ t.commitOk = s.commitOk ∧ t.rdata = s.rdata ∧ t.host = s.host

/-- R227 and R228: who writes `FSM` and `FSM_TRACE`, and with what. -/
def Obligations.ReceiveStateWriters : Prop :=
  (∀ (i : Instr) (s t : State), exec i s = .next t →
    (i ≠ .decHdr → i ≠ .decSec → i ≠ .srst → t.fsm = s.fsm ∧ t.fsmTrace = s.fsmTrace) ∧
    (i = .srst → t.fsm = 0 ∧ t.fsmTrace = 0x01) ∧
    (i = .decHdr → t.err = 0x00 → t.fsm = 1 ∧ t.fsmTrace = 0x03) ∧
    (i = .decHdr → t.err ≠ 0x00 → t.fsm = 7 ∧ t.fsmTrace = 0x81) ∧
    (i = .decSec → t.err = 0x00 → t.fsm = 5 ∧ t.fsmTrace = 0x3F) ∧
    (i = .decSec → t.err ≠ 0x00 → t.fsm = 7 ∧ t.fsmTrace ∈ [0x81, 0x83, 0x87, 0x8F, (0x9F : Byte)])) ∧
  (∀ (s t : State) (a : BusAddr) (v : Byte), locOf s.params.assocN a ≠ .cmd → busWrite s a v = .next t →
    t.fsm = s.fsm ∧ t.fsmTrace = s.fsmTrace) ∧
  (State.reset.fsm = 0 ∧ State.reset.fsmTrace = 0x01)

/-- R142: what holds of the header registers after a command that leaves them valid by success, whichever command it was. -/
def Obligations.SuccessfulCodecLeavesAValidHeader : Prop :=
  ∀ (i : Instr) (s t : State), i ∈ [Instr.encHdr, .decHdr, .encNs, .encRaw, .encSec] → exec i s = .next t → t.err = 0x00 →
    4 ≤ t.hFl.toNat ∧ t.hFl.toNat ≤ 63 ∧
    1 ≤ t.hType.toNat % 128 ∧ t.hType.toNat % 128 ≤ 0x7E ∧
    t.hSeqIl.toNat % 16 ≤ 8 ∧
    4 + t.hSeqIl.toNat % 16 + t.hBl.toNat ≤ t.hFl.toNat ∧
    1 ≤ t.hTl ∧ (t.hType.toNat < 128 → t.hTl = 1) ∧
    t.hBoff = 4 + t.hSeqIl.toNat % 16 ∧ t.hBoff ≤ 12 ∧ t.hToff ≤ t.hFl.toNat ∧
    (∀ (j : Nat) (h : j < 8), t.hSeqIl.toNat % 16 ≤ j → t.hId[j] = 0x00)

/-- R26, R27, R264: only the header codecs and a soft reset write the header registers; a failed `ENC_HDR`, `DEC_HDR` or
`ENC_NS` leaves `H_FL = 0`; a failed `ENC_RAW` or `ENC_SEC` leaves 0 or the old value, which it keeps when it fails before its
header encode (R192); every failed command keeps the other four (R264, D7, U3; that it does so also when it fails after its
header encode succeeded, where R263 (1) taken to the letter says otherwise, is the model's reading,
notes/assumptions/21.md). -/
def Obligations.HeaderRegisterWriters : Prop :=
  ∀ (i : Instr) (s t : State), exec i s = .next t →
    (i ∉ [Instr.encHdr, .decHdr, .encNs, .encRaw, .encSec, .srst] →
      t.hFl = s.hFl ∧ t.hType = s.hType ∧ t.hSeqIl = s.hSeqIl ∧ t.hBl = s.hBl ∧ t.hId = s.hId) ∧
    (i ∈ [Instr.encHdr, .decHdr, .encNs] → t.err ≠ 0x00 → t.hFl = 0x00) ∧
    (t.err ≠ 0x00 →
      t.hType = s.hType ∧ t.hSeqIl = s.hSeqIl ∧ t.hBl = s.hBl ∧ t.hId = s.hId) ∧
    (i ∈ [Instr.encRaw, .encSec] → t.err ≠ 0x00 → t.hFl = 0x00 ∨ t.hFl = s.hFl)

/-- R30, R218, R264: commands never write `VALID` or `ID`; a stored counter changes only in a successful `RX_COMMIT` or
`DEC_SEC`, and then strictly increases; a failed command leaves the whole table as it was. -/
def Obligations.StoredCountersOnlyIncrease : Prop :=
  ∀ (i : Instr) (s t : State), exec i s = .next t →
    (∀ k, Memory.read t.mem (0x100 + 16 * k) = Memory.read s.mem (0x100 + 16 * k) ∧ assocId t.mem k = assocId s.mem k) ∧
    (∀ k, assocCtr t.mem k = assocCtr s.mem k ∨
      ((i = .rxCommit ∨ i = .decSec) ∧ t.err = 0x00 ∧ t.assocIdx = BitVec.ofNat 8 k ∧
        ctrValue (assocCtr s.mem k) < ctrValue (assocCtr t.mem k))) ∧
    (t.err ≠ 0x00 → ∀ a, 0x100 ≤ a → Memory.read t.mem a = Memory.read s.mem a)

/-- No command but a soft reset, which zeroes both buffers (R257), writes `FB` at an index from `FB_LEN` on (R33, R73) or `PB`
at an index from 32 on (R166, R176, R182: padding and plaintext stay in `PB[0..31]`). -/
def Obligations.CommandsStayInsideTheBuffers : Prop :=
  ∀ (i : Instr) (s t : State), i ≠ .srst → exec i s = .next t →
    (∀ j, s.fbLen.toNat ≤ j → j < 64 → Memory.read t.mem (0x080 + j) = Memory.read s.mem (0x080 + j)) ∧
    (∀ j, 32 ≤ j → j < 64 → Memory.read t.mem (0x0C0 + j) = Memory.read s.mem (0x0C0 + j)) ∧
    (∀ a, a < 0x080 → Memory.read t.mem a = Memory.read s.mem a)

/-- R256, R275: only the four secure commands can depend on `KEY`. With another key every other command does the same and
carries that key along (a soft reset erases it). -/
def Obligations.PlainCommandsDoNotDependOnTheKey : Prop :=
  ∀ (i : Instr) (s t : State) (key : Bytes 16), i ∉ [Instr.encRaw, .decRaw, .encSec, .decSec] → exec i s = .next t →
    exec i { s with key := key } = .next { t with key := if i = .srst then t.key else key }

/-! ## System commands (spec/46_system_commands.md) -/

/-- R255: `NOP` writes `CMD`, `RESULT`, `ERR` and nothing else; `STATUS.OK` (bit 1) then reads 1. -/
def Obligations.NopOnlyClearsTheOutcome : Prop :=
  ∀ s : State,
    exec .nop s = .next { s with cmd := 0x00, result := 0x00, err := 0x00 } ∧
    (∀ t, exec .nop s = .next t → (busRead t 0x001).getLsbD 1 = true)

/-- R257: `SRST` gives every element its hardware-reset value, but `CMD`, which holds the code, and the association table, which
is unchanged; `STATUS` then reads 0x02. R290: hardware reset between two commands gives every element its reset value and
erases the table too. The parameters, the inputs and what the host goes on to do are not the block's
(notes/assumptions/3.md, 4.md, 5.md). -/
def Obligations.ResetsTakeTheResetValues : Prop :=
  (∀ s : State, ∃ m,
    exec .srst s = .next { State.reset with
      cmd := 0xFF, mem := m, params := s.params, commitOk := s.commitOk, rdata := s.rdata, host := s.host } ∧
    (∀ a, Memory.read m a = if 0x100 ≤ a then Memory.read s.mem a else 0x00) ∧
    (∀ t, exec .srst s = .next t → t.status = 0x02)) ∧
  (∀ (s : State) (rest : List HostAction), s.params.wf = true → s.host = .hardReset :: rest →
    ∃ t, step s = .next t ∧
      t = { State.reset with params := s.params, commitOk := s.commitOk, rdata := s.rdata, host := rest } ∧
      ∀ a, Memory.read t.mem a = 0x00)

/-! ## Header codec (spec/41_header_codec.md) -/

/-- R131 to R133: `ENC_HDR` with arguments that pass the five tests. -/
def Obligations.EncHdrWritesTheHeader : Prop :=
  ∀ s : State,
    encodeVerdict (s.aSecure == 1#1) s.aFtype s.aIl.toNat s.aBl.toNat s.aTl.toNat s.fbLen.toNat = 0x00 →
    ∃ m,
      exec .encHdr s = .next { s with
        cmd := 0x01, result := BitVec.ofNat 8 (4 + s.aIl.toNat), err := 0x00,
        hFl := BitVec.ofNat 8 (3 + s.aIl.toNat + s.aBl.toNat + s.aTl.toNat),
        hType := s.aFtype ||| (if s.aSecure = 1#1 then 0x80 else 0x00),
        hSeqIl := BitVec.ofNat 8 (16 * s.aSeq.toNat + s.aIl.toNat),
        hBl := s.aBl,
        hId := Vector.ofFn fun j => if j.val < s.aIl.toNat then s.aId[j] else 0x00,
        mem := m } ∧
      Stored s.mem 0x080
        (headerBytes (3 + s.aIl.toNat + s.aBl.toNat + s.aTl.toNat) (s.aFtype ||| (if s.aSecure = 1#1 then 0x80 else 0x00))
          s.aSeq.toNat s.aIl.toNat s.aBl.toNat s.aId) m

/-- R132, R134: `ENC_HDR` fails with the first of the five tests that fails; `H_FL <- 0`, no byte of memory is written. -/
def Obligations.EncHdrFailsByTheFirstTest : Prop :=
  ∀ (s : State) (e : Byte),
    encodeVerdict (s.aSecure == 1#1) s.aFtype s.aIl.toNat s.aBl.toNat s.aTl.toNat s.fbLen.toNat = e → e ≠ 0x00 →
    exec .encHdr s = .next { s with cmd := 0x01, result := 0x00, err := e, hFl := 0x00, scratch := [] }

/-- R136 to R138: `DEC_HDR` on a buffer that passes the ten tests. -/
def Obligations.DecHdrReadsTheHeader : Prop :=
  ∀ (s : State) (il : Nat), decodeVerdict (fbByte s.mem) s.fbLen.toNat = 0x00 → il = (fbByte s.mem 2).toNat % 16 →
    exec .decHdr s = .next { s with
      cmd := 0x02, result := BitVec.ofNat 8 (4 + il), err := 0x00, fsm := 1, fsmTrace := 0x03,
      hFl := fbByte s.mem 0, hType := fbByte s.mem 1, hSeqIl := fbByte s.mem 2, hBl := fbByte s.mem (3 + il),
      hId := Vector.ofFn fun j => if j.val < il then fbByte s.mem (3 + j.val) else 0x00 }

/-- R136, R137, R139: `DEC_HDR` fails with the first of the ten tests that fails; `H_FL` is 0, the other header registers and
all memory are unchanged, the receive attempt is rejected. -/
def Obligations.DecHdrFailsByTheFirstTest : Prop :=
  ∀ (s : State) (e : Byte), decodeVerdict (fbByte s.mem) s.fbLen.toNat = e → e ≠ 0x00 →
    exec .decHdr s = .next { s with
      cmd := 0x02, result := 0x00, err := e, fsm := 7, fsmTrace := 0x81, hFl := 0x00, scratch := [] }

/-! ## Non-secure codec (spec/42_nonsecure_codec.md) -/

/-- The check values of the CRC: the byte strings of R152, and four single steps of R150, which the spec marks as general
knowledge and the model presumes (notes/assumptions/16.md). -/
def Obligations.CrcCheckValues : Prop :=
  crc7Step 0x7F 0x08 = 0x3A ∧ crc7Step 0x00 0x01 = 0x37 ∧ crc7Step 0x00 0x80 = 0x1A ∧ crc7Step 0x40 0x00 = 0x1A ∧
  [1, 2, 3, 4, 5, 6, 7, 8].map (fun n => crc7 (([0x08, 0x4f, 0x02, 0x80, 0x81, 0x02, 0x00, 0x01] : List Byte).take n)) =
    [0x3A, 0x10, 0x33, 0x4F, 0x26, 0x69, 0x0C, 0x23] ∧
  crcTrailer [] = 0x7F ∧ crcTrailer [0x00] = 0x5B ∧ crcTrailer [0xff] = 0x37 ∧ crcTrailer [0x7f] = 0x2D ∧
  crc7 [0x05, 0x4f, 0x00, 0x01, 0x13] = 0x00 ∧ crcTrailer [0x05, 0x4f, 0x00, 0x01, 0x13] = 0x80

/-- R151: the trailer value is in 0x01..0x7F or is 0x80, so never a forbidden 0x00 or 0xFF. -/
def Obligations.CrcTrailerIsNeverForbidden : Prop :=
  ∀ bs : List Byte, ((1 ≤ (crcTrailer bs).toNat ∧ (crcTrailer bs).toNat ≤ 0x7F) ∨ crcTrailer bs = 0x80) ∧
    crcTrailer bs ≠ 0x00 ∧ crcTrailer bs ≠ 0xFF

/-- From R150 (the spec's "from general knowledge", notes/assumptions/16.md) and R151: two byte strings that differ in
exactly one bit have different trailers. -/
def Obligations.CrcSeesEverySingleBitError : Prop :=
  ∀ (pre post : List Byte) (b : Byte) (i : Nat), i < 8 →
    crcTrailer (pre ++ [b] ++ post) ≠ crcTrailer (pre ++ [b ^^^ BitVec.twoPow 8 i] ++ post)

/-- R153: `ENC_NS` with arguments that pass the header's tests and a frame that fits `FB_LEN`: header, body, CRC. -/
def Obligations.EncNsBuildsTheFrame : Prop :=
  ∀ (s : State) (frame : List Byte),
    encodeVerdict false s.aFtype s.aIl.toNat s.pbLen.toNat 1 s.fbLen.toNat = 0x00 →
    5 + s.aIl.toNat + s.pbLen.toNat ≤ s.fbLen.toNat →
    frame = headerBytes (4 + s.aIl.toNat + s.pbLen.toNat) s.aFtype s.aSeq.toNat s.aIl.toNat s.pbLen.toNat s.aId ++
      pbBytes s.mem 0 s.pbLen.toNat →
    ∃ m,
      exec .encNs s = .next { s with
        cmd := 0x03, result := BitVec.ofNat 8 (5 + s.aIl.toNat + s.pbLen.toNat), err := 0x00,
        hFl := BitVec.ofNat 8 (4 + s.aIl.toNat + s.pbLen.toNat),
        hType := s.aFtype,
        hSeqIl := BitVec.ofNat 8 (16 * s.aSeq.toNat + s.aIl.toNat),
        hBl := s.pbLen,
        hId := Vector.ofFn fun j => if j.val < s.aIl.toNat then s.aId[j] else 0x00,
        mem := m } ∧
      Stored s.mem 0x080 (frame ++ [crcTrailer frame]) m

/-- R153, R154: `ENC_NS` failures: the header's first four tests with memory unchanged, then `E_FRAME_FIT` with the header bytes
written; `H_FL` is 0 after each, and the other header registers are as before the command (R264, D7, U3; after `E_FRAME_FIT`
this is the model's reading where R263 (1) says otherwise, notes/assumptions/21.md). -/
def Obligations.EncNsFailures : Prop :=
  ∀ (s : State) (e : Byte), encodeVerdict false s.aFtype s.aIl.toNat s.pbLen.toNat 1 s.fbLen.toNat = e →
    (e ≠ 0x00 → exec .encNs s = .next { s with cmd := 0x03, result := 0x00, err := e, hFl := 0x00, scratch := [] }) ∧
    (e = 0x00 → s.fbLen.toNat < 5 + s.aIl.toNat + s.pbLen.toNat →
      ∃ m,
        exec .encNs s = .next { s with
          cmd := 0x03, result := 0x00, err := 0x41, hFl := 0x00, scratch := [], mem := m } ∧
        Stored s.mem 0x080
          (headerBytes (4 + s.aIl.toNat + s.pbLen.toNat) s.aFtype s.aSeq.toNat s.aIl.toNat s.pbLen.toNat s.aId) m)

/-- R157, R158: `DEC_NS` in every state: its four tests in order, else `RESULT = fl + 1`; nothing but `CMD`, `RESULT`, `ERR`
(and scratch, on failure) is written. -/
def Obligations.DecNsVerdict : Prop :=
  ∀ (s : State) (fl : Nat), fl = s.hFl.toNat →
    exec .decNs s = .next
      (if s.hFl = 0x00 then { s with cmd := 0x04, result := 0x00, err := 0x1A, scratch := [] }
       else if fl ≠ 4 + s.hSeqIl.toNat % 16 + s.hBl.toNat then { s with cmd := 0x04, result := 0x00, err := 0x14, scratch := [] }
       else if s.fbLen.toNat < fl + 1 then { s with cmd := 0x04, result := 0x00, err := 0x41, scratch := [] }
       else if crcTrailer (fbBytes s.mem 0 fl) ≠ fbByte s.mem fl then
         { s with cmd := 0x04, result := 0x00, err := 0x20, scratch := [] }
       else { s with cmd := 0x04, result := BitVec.ofNat 8 (fl + 1), err := 0x00 })

/-- R160: the non-secure round trip, for every type, sequence number, ID and body that fit: `ENC_NS`, `FB_LEN <- RESULT`,
`DEC_HDR`, `DEC_NS`. -/
def Obligations.NonSecureRoundTrip : Prop :=
  ∀ (s : State) (il bl : Nat), il = s.aIl.toNat → bl = s.pbLen.toNat →
    1 ≤ s.aFtype.toNat → s.aFtype.toNat ≤ 0x7E → il ≤ 8 → il + bl ≤ 59 → s.fbLen = 64 →
    ∃ t u v,
      exec .encNs s = .next t ∧ t.err = 0x00 ∧ t.result = BitVec.ofNat 8 (5 + il + bl) ∧
      exec .decHdr { t with fbLen := t.result } = .next u ∧ u.err = 0x00 ∧ u.result = BitVec.ofNat 8 (4 + il) ∧
      u.hType = s.aFtype ∧ u.hSeqIl.toNat / 16 = s.aSeq.toNat ∧ u.hSeqIl.toNat % 16 = il ∧ u.hBl.toNat = bl ∧
      (∀ (j : Nat) (h : j < 8), j < il → u.hId[j] = s.aId[j]) ∧
      exec .decNs u = .next v ∧ v.err = 0x00 ∧ v.result = BitVec.ofNat 8 (5 + il + bl) ∧
      fbBytes v.mem v.hBoff bl = pbBytes s.mem 0 bl

/-! ## Secure codec (spec/43_secure_codec.md) -/

/-- R166, R167, R117: `PAD32` in every state: the block of the first `PB_LEN` bytes, or `E_PTLEN` with memory unchanged. -/
def Obligations.Pad32WritesThePaddedBlock : Prop :=
  ∀ s : State,
    (s.pbLen.toNat ≤ 31 → ∃ m,
      exec .pad32 s = .next { s with cmd := 0x05, result := 0x20, err := 0x00, mem := m } ∧
      Stored s.mem 0x0C0 (paddedBlock (pbBytes s.mem 0 s.pbLen.toNat)) m) ∧
    (31 < s.pbLen.toNat → exec .pad32 s = .next { s with cmd := 0x05, result := 0x00, err := 0x1E, scratch := [] })

/-- R168, R169: `UNPAD32` in every state, by the count byte alone; and after a `PAD32` that succeeded it gives the length that
was padded. -/
def Obligations.Unpad32ReadsTheCountByte : Prop :=
  (∀ s : State, exec .unpad32 s = .next
    (if 31 < (Memory.read s.mem 0x0DF).toNat then { s with cmd := 0x06, result := 0x00, err := 0x23, scratch := [] }
     else { s with cmd := 0x06, result := BitVec.ofNat 8 (31 - (Memory.read s.mem 0x0DF).toNat), err := 0x00 })) ∧
  (∀ s t : State, exec .pad32 s = .next t → t.err = 0x00 →
    exec .unpad32 t = .next { t with cmd := 0x06, result := s.pbLen, err := 0x00 })

/-- R172, R173, R176: `ENC_RAW` when its tests pass and the AEAD engine answers: header, ciphertext, counter, tag, format
byte in `FB`, and the padding in `PB`. `ebl` is 0 without a plaintext, else 32. -/
def Obligations.EncRawBuildsTheFrame : Prop :=
  ∀ (s : State) (n il ebl : Nat) (header block ct tag : List Byte),
    n = s.pbLen.toNat → il = s.aIl.toNat → ebl = (if n = 0 then 0 else 32) →
    s.ctrl.getLsbD 0 = true → s.ctrl.getLsbD 1 = true → n ≤ 31 → s.params.needEncRaw ≤ s.params.scratchBytes →
    encodeVerdict true s.aFtype il ebl 23 s.fbLen.toNat = 0x00 → 27 + il + ebl ≤ s.fbLen.toNat →
    header = headerBytes (26 + il + ebl) (s.aFtype ||| 0x80) ((s.iv[11]).toNat % 16) il ebl s.aId →
    block = (if n = 0 then [] else paddedBlock (pbBytes s.mem 0 n)) →
    aeadEnc s.params.aead s.key.toList s.iv.toList header block = some (ct, tag) →
    ∃ m m',
      exec .encRaw s = .next { s with
        cmd := 0x07, result := BitVec.ofNat 8 (27 + il + ebl), err := 0x00,
        hFl := BitVec.ofNat 8 (26 + il + ebl),
        hType := s.aFtype ||| 0x80,
        hSeqIl := BitVec.ofNat 8 (16 * ((s.iv[11]).toNat % 16) + il),
        hBl := BitVec.ofNat 8 ebl,
        hId := Vector.ofFn fun j => if j.val < il then s.aId[j] else 0x00,
        scratch := [], mem := m' } ∧
      Stored s.mem 0x0C0 block m ∧
      Stored m 0x080 (header ++ ct ++ s.iv.toList.drop 6 ++ tag ++ [0x80]) m' ∧
      (header ++ ct ++ s.iv.toList.drop 6 ++ tag ++ [0x80]).length = 27 + il + ebl

/-- R173, R192, R266: the failures of `ENC_RAW` up to the header encode, in order (notes/assumptions/11.md). The first four
leave everything but `CMD`, `RESULT`, `ERR` (and scratch); the header's tests also set `H_FL` to 0. No byte of memory is
written. -/
def Obligations.EncRawEarlyFailures : Prop :=
  ∀ (s : State) (n il ebl : Nat) (e : Byte),
    n = s.pbLen.toNat → il = s.aIl.toNat → ebl = (if n = 0 then 0 else 32) →
    e = (if s.ctrl.getLsbD 0 = false then 0x43
         else if s.ctrl.getLsbD 1 = false then 0x44
         else if 32 < n then 0x1E
         else if s.params.scratchBytes < s.params.needEncRaw then 0x40
         else 0x00) →
    (e ≠ 0x00 → exec .encRaw s = .next { s with cmd := 0x07, result := 0x00, err := e, scratch := [] }) ∧
    (e = 0x00 → encodeVerdict true s.aFtype il ebl 23 s.fbLen.toNat ≠ 0x00 →
      exec .encRaw s = .next { s with
        cmd := 0x07, result := 0x00, err := encodeVerdict true s.aFtype il ebl 23 s.fbLen.toNat, hFl := 0x00, scratch := [] })

/-- R173, R174, R264: the failures of `ENC_RAW` after the header encode, in order: `E_FRAME_FIT`, `E_PTLEN` for a plaintext
of 32 bytes, `E_ENCRYPT`. The header bytes are in `FB`, `H_FL` is 0; padding is in `PB` only after `E_ENCRYPT`. That last
case needs an engine that answers `ok = 0` on encryption, which neither of the two described engines does (R241), so its
witness is conditional on an opaque one. The other header registers are as before the command (R264, D7, U3; the model's
reading where R263 (1) says otherwise, notes/assumptions/21.md). -/
def Obligations.EncRawLateFailures : Prop :=
  ∀ (s : State) (n il ebl : Nat) (header block : List Byte) (e : Byte),
    n = s.pbLen.toNat → il = s.aIl.toNat → ebl = (if n = 0 then 0 else 32) →
    s.ctrl.getLsbD 0 = true → s.ctrl.getLsbD 1 = true → n ≤ 32 → s.params.needEncRaw ≤ s.params.scratchBytes →
    encodeVerdict true s.aFtype il ebl 23 s.fbLen.toNat = 0x00 →
    header = headerBytes (26 + il + ebl) (s.aFtype ||| 0x80) ((s.iv[11]).toNat % 16) il ebl s.aId →
    block = (if n = 0 then [] else paddedBlock (pbBytes s.mem 0 n)) →
    ((s.fbLen.toNat < 27 + il + ebl ∧ e = 0x41) ∨
      (27 + il + ebl ≤ s.fbLen.toNat ∧ n = 32 ∧ e = 0x1E) ∨
      (27 + il + ebl ≤ s.fbLen.toNat ∧ n ≤ 31 ∧ e = 0x22 ∧
        aeadEnc s.params.aead s.key.toList s.iv.toList header block = none)) →
    ∃ m m',
      exec .encRaw s = .next { s with
        cmd := 0x07, result := 0x00, err := e, hFl := 0x00, scratch := [], mem := m' } ∧
      Stored s.mem 0x0C0 (if e = 0x22 then block else []) m ∧
      Stored m 0x080 header m'

/-- R180, R181, R184: `DEC_RAW` of a frame with a body, plaintext wanted and fitting `PB_CAP`: the plaintext in `PB`, its
length in `PB_LEN`, `RESULT = fl + 1`. -/
def Obligations.DecRawDeliversThePlaintext : Prop :=
  ∀ (s : State) (fl il : Nat) (pt : List Byte),
    fl = s.hFl.toNat → il = s.hSeqIl.toNat % 16 →
    s.ctrl.getLsbD 0 = true → s.ctrl.getLsbD 1 = true → s.ctrl.getLsbD 2 = true →
    s.params.needDecRaw ≤ s.params.scratchBytes →
    s.hBl = 32 → fl = 26 + il + 32 → fl + 1 ≤ s.fbLen.toNat → fbByte s.mem fl = 0x80 →
    s.hSeqIl.toNat / 16 = (s.iv[11]).toNat % 16 →
    aeadDec s.params.aead s.key.toList s.iv.toList (fbBytes s.mem 0 (4 + il)) (fbBytes s.mem (4 + il) 32)
      (fbBytes s.mem (fl - 16) 16) = some pt →
    dataLen pt ≤ s.pbCap.toNat →
    ∃ m,
      exec .decRaw s = .next { s with
        cmd := 0x08, result := BitVec.ofNat 8 (fl + 1), err := 0x00, pbLen := BitVec.ofNat 8 (dataLen pt), scratch := [],
        mem := m } ∧
      Stored s.mem 0x0C0 (pt.take (dataLen pt)) m ∧ (pt.take (dataLen pt)).length = dataLen pt

/-- R181, R183: `DEC_RAW` of a frame without a body, or with a body that is not wanted: the frame is authenticated, `RESULT` is
`RESULT_NO_BODY`, `PB_LEN` is 0, no byte of memory is written. -/
def Obligations.DecRawWithoutPlaintext : Prop :=
  ∀ (s : State) (fl il bl : Nat) (pt : List Byte),
    fl = s.hFl.toNat → il = s.hSeqIl.toNat % 16 → bl = s.hBl.toNat →
    s.ctrl.getLsbD 0 = true → s.ctrl.getLsbD 1 = true → (s.ctrl.getLsbD 2 = false ∨ bl = 0) →
    s.params.needDecRaw ≤ s.params.scratchBytes →
    (bl = 0 ∨ bl = 32) → fl = 26 + il + bl → fl + 1 ≤ s.fbLen.toNat → fbByte s.mem fl = 0x80 →
    s.hSeqIl.toNat / 16 = (s.iv[11]).toNat % 16 →
    aeadDec s.params.aead s.key.toList s.iv.toList (fbBytes s.mem 0 (4 + il)) (fbBytes s.mem (4 + il) bl)
      (fbBytes s.mem (fl - 16) 16) = some pt →
    exec .decRaw s = .next { s with cmd := 0x08, result := 0x01, err := 0x00, pbLen := 0x00, scratch := [] }

/-- R181, R182, R266: the failures of `DEC_RAW`, in order, in every state; on each, nothing but `CMD`, `RESULT`, `ERR` (and
scratch) is written: `PB` and `PB_LEN` hold what they held. -/
def Obligations.DecRawFailuresReleaseNothing : Prop :=
  ∀ (s : State) (fl il bl : Nat) (e : Byte),
    fl = s.hFl.toNat → il = s.hSeqIl.toNat % 16 → bl = s.hBl.toNat →
    e = (if s.ctrl.getLsbD 0 = false then 0x43
         else if s.ctrl.getLsbD 1 = false then 0x44
         else if s.params.scratchBytes < s.params.needDecRaw then 0x40
         else if fl = 0 then 0x1A
         else if fl ≠ 26 + il + bl then 0x14
         else if s.fbLen.toNat < fl + 1 then 0x41
         else if fbByte s.mem fl ≠ 0x80 then 0x1B
         else if bl ≠ 0 ∧ bl ≠ 32 then 0x1C
         else if s.hSeqIl.toNat / 16 ≠ (s.iv[11]).toNat % 16 then 0x1D
         else
           match aeadDec s.params.aead s.key.toList s.iv.toList (fbBytes s.mem 0 (4 + il)) (fbBytes s.mem (4 + il) bl)
             (fbBytes s.mem (fl - 16) 16) with
           | none => 0x21
           | some pt => if s.ctrl.getLsbD 2 = true ∧ bl ≠ 0 ∧ s.pbCap.toNat < dataLen pt then 0x42 else 0x00) →
    e ≠ 0x00 →
    exec .decRaw s = .next { s with cmd := 0x08, result := 0x00, err := e, scratch := [] }

/-- R190, R173: `ENC_SEC` when its tests pass and the AEAD engine answers: the nonce from `TX_ID` and `CTR_A` in `IV`,
`IV_OK` set, and the frame as `ENC_RAW` builds it with `TX_ID` for its ID. `CTR_A` is not advanced (R191). -/
def Obligations.EncSecBuildsTheFrame : Prop :=
  ∀ (s : State) (n il ebl : Nat) (header block ct tag : List Byte),
    n = s.pbLen.toNat → il = s.aIl.toNat → ebl = (if n = 0 then 0 else 32) →
    s.ctrl.getLsbD 0 = true → n ≤ 31 →
    s.params.needEncSec ≤ s.params.scratchBytes → s.params.needEncRaw ≤ s.params.scratchBytes →
    encodeVerdict true s.aFtype il ebl 23 s.fbLen.toNat = 0x00 → 27 + il + ebl ≤ s.fbLen.toNat →
    header = headerBytes (26 + il + ebl) (s.aFtype ||| 0x80) ((s.ctrA[5]).toNat % 16) il ebl s.txId →
    block = (if n = 0 then [] else paddedBlock (pbBytes s.mem 0 n)) →
    aeadEnc s.params.aead s.key.toList (s.txId.toList.take 6 ++ s.ctrA.toList) header block = some (ct, tag) →
    ∃ m m' iv,
      exec .encSec s = .next { s with
        cmd := 0x09, result := BitVec.ofNat 8 (27 + il + ebl), err := 0x00,
        iv := iv, ctrl := s.ctrl ||| 0x02,
        hFl := BitVec.ofNat 8 (26 + il + ebl),
        hType := s.aFtype ||| 0x80,
        hSeqIl := BitVec.ofNat 8 (16 * ((s.ctrA[5]).toNat % 16) + il),
        hBl := BitVec.ofNat 8 ebl,
        hId := Vector.ofFn fun j => if j.val < il then s.txId[j] else 0x00,
        scratch := [], mem := m' } ∧
      iv.toList = s.txId.toList.take 6 ++ s.ctrA.toList ∧
      Stored s.mem 0x0C0 block m ∧
      Stored m 0x080 (header ++ ct ++ s.ctrA.toList ++ tag ++ [0x80]) m' ∧
      (header ++ ct ++ s.ctrA.toList ++ tag ++ [0x80]).length = 27 + il + ebl

/-- R190, R192: `ENC_SEC` fails its three tests in order, writing nothing but `CMD`, `RESULT`, `ERR` (and scratch); when
they pass it does what `ENC_RAW` does in the state with the nonce built and `TX_ID` for its ID. -/
def Obligations.EncSecIsEncRawWithTheBuiltNonce : Prop :=
  ∀ (s : State) (e : Byte),
    e = (if 6 < s.aIl.toNat ∧ s.pbLen ≠ 0x00 then 0x1F
         else if s.aFtype = 0x00 ∨ 0x7F ≤ s.aFtype.toNat then 0x10
         else if s.params.scratchBytes < s.params.needEncSec then 0x40
         else 0x00) →
    (e ≠ 0x00 → exec .encSec s = .next { s with cmd := 0x09, result := 0x00, err := e, scratch := [] }) ∧
    (e = 0x00 → ∀ (iv : Bytes 12) (t : State), iv.toList = s.txId.toList.take 6 ++ s.ctrA.toList →
      exec .encRaw { s with iv := iv, ctrl := s.ctrl ||| 0x02, aId := s.txId } = .next t →
      exec .encSec s = .next { t with cmd := 0x09, aId := s.aId })

/-! ## Counters, the replay guard and top-level receive (spec/44_replay_guard.md) -/

/-- R201: `CTR_CMP`, in every state. -/
def Obligations.CtrCmpGivesTheSign : Prop :=
  ∀ s : State, exec .ctrCmp s = .next { s with
    cmd := 0x0B, err := 0x00,
    result := if ctrValue s.ctrA = ctrValue s.ctrB then 0x00 else if ctrValue s.ctrB < ctrValue s.ctrA then 0x01 else 0xFF }

/-- R200: the number a counter stands for; its numeric order is the lexicographic order of the bytes, most significant first;
equal values are equal counters; a value is below 2^48. -/
def Obligations.CounterOrderIsLexicographic : Prop :=
  ∀ a b : Bytes 6,
    ctrValue a = a[0].toNat * 2 ^ 40 + a[1].toNat * 2 ^ 32 + a[2].toNat * 2 ^ 24 + a[3].toNat * 2 ^ 16 +
      a[4].toNat * 2 ^ 8 + a[5].toNat ∧
    (ctrValue a < ctrValue b ↔ ∃ (i : Nat) (h : i < 6), (∀ (j : Nat) (g : j < i), a[j] = b[j]) ∧ a[i].toNat < b[i].toNat) ∧
    (ctrValue a = ctrValue b ↔ a = b) ∧ ctrValue a ≤ 2 ^ 48 - 1

/-- R204, R205: `CTR_ADD` in every state: the sum when it fits 48 bits, `E_CTR_OVERFLOW` with `CTR_A` unchanged when it does
not; and after a success with `DELTA > 0` the new counter compares greater than the old one. -/
def Obligations.CtrAddAddsOrOverflows : Prop :=
  (∀ s : State,
    (ctrValue s.ctrA + s.delta.toNat ≤ 2 ^ 48 - 1 → ∃ c : Bytes 6,
      exec .ctrAdd s = .next { s with cmd := 0x0C, result := 0x01, err := 0x00, ctrA := c } ∧
      ctrValue c = ctrValue s.ctrA + s.delta.toNat) ∧
    (2 ^ 48 - 1 < ctrValue s.ctrA + s.delta.toNat →
      exec .ctrAdd s = .next { s with cmd := 0x0C, result := 0x00, err := 0x50, scratch := [] })) ∧
  (∀ s t : State, exec .ctrAdd s = .next t → t.err = 0x00 → s.delta ≠ 0x00 →
    ∃ u, exec .ctrCmp { t with ctrB := s.ctrA } = .next u ∧ u.result = 0x01)

/-- R208: `Lookup` gives the first entry that matches, and none when none does. -/
def Obligations.LookupFindsTheFirstMatch : Prop :=
  ∀ (m : Memory) (n : Nat) (p : Bytes 8) (len : Nat), len ≤ 8 →
    (∀ k, lookup m n p len = some k ↔ FirstMatch m n p len k) ∧ (lookup m n p len = none ↔ NoMatch m n p len)

/-- R210: `RX_LOOKUP`: the first entry whose ID starts with the prefix, or `E_UNKNOWN_ID`, or `E_IDLEN`. -/
def Obligations.RxLookupResolvesThePrefix : Prop :=
  ∀ s : State,
    (8 < s.aIl.toNat → exec .rxLookup s = .next { s with cmd := 0x0D, result := 0x00, err := 0x11, scratch := [] }) ∧
    (s.aIl.toNat ≤ 8 → NoMatch s.mem s.params.assocN s.aId s.aIl.toNat →
      exec .rxLookup s = .next { s with cmd := 0x0D, result := 0x00, err := 0x30, assocIdx := 0xFF, scratch := [] }) ∧
    (s.aIl.toNat ≤ 8 → ∀ k, FirstMatch s.mem s.params.assocN s.aId s.aIl.toNat k →
      exec .rxLookup s = .next { s with
        cmd := 0x0D, result := 0x01, err := 0x00, assocIdx := BitVec.ofNat 8 k, nodeId := assocId s.mem k,
        ctrB := assocCtr s.mem k })

/-- R213: `RX_VALIDATE`: accepts exactly when the candidate counter is strictly greater than the stored one. -/
def Obligations.RxValidateAcceptsOnlyGreater : Prop :=
  ∀ s : State,
    (NoMatch s.mem s.params.assocN s.nodeId 8 →
      exec .rxValidate s = .next { s with cmd := 0x0E, result := 0x00, err := 0x30, assocIdx := 0xFF, scratch := [] }) ∧
    (∀ k, FirstMatch s.mem s.params.assocN s.nodeId 8 k → exec .rxValidate s = .next
      (if ctrValue (assocCtr s.mem k) < ctrValue s.ctrA then
        { s with cmd := 0x0E, result := 0x01, err := 0x00, assocIdx := BitVec.ofNat 8 k }
       else { s with cmd := 0x0E, result := 0x00, err := 0x31, assocIdx := BitVec.ofNat 8 k, scratch := [] }))

/-- R216, R217: `RX_COMMIT`: the failures in order with memory unchanged, and the compare-and-set itself: the six counter
bytes of the entry, and no other byte. -/
def Obligations.RxCommitComparesAndSets : Prop :=
  ∀ s : State,
    (NoMatch s.mem s.params.assocN s.nodeId 8 →
      exec .rxCommit s = .next { s with cmd := 0x0F, result := 0x00, err := 0x30, assocIdx := 0xFF, scratch := [] }) ∧
    (∀ k, FirstMatch s.mem s.params.assocN s.nodeId 8 k →
      (ctrValue s.ctrA ≤ ctrValue (assocCtr s.mem k) → exec .rxCommit s = .next
        { s with cmd := 0x0F, result := 0x00, err := 0x31, assocIdx := BitVec.ofNat 8 k, scratch := [] }) ∧
      (ctrValue (assocCtr s.mem k) < ctrValue s.ctrA → s.commitOk = false → exec .rxCommit s = .next
        { s with cmd := 0x0F, result := 0x00, err := 0x32, assocIdx := BitVec.ofNat 8 k, scratch := [] }) ∧
      (ctrValue (assocCtr s.mem k) < ctrValue s.ctrA → s.commitOk = true → ∃ m,
        exec .rxCommit s = .next
          { s with cmd := 0x0F, result := 0x01, err := 0x00, assocIdx := BitVec.ofNat 8 k, mem := m } ∧
        Stored s.mem (0x100 + 16 * k + 9) s.ctrA.toList m))

/-- R220, R221: `DEC_SEC` accepts: the stages up to the commit all pass. The nonce is rebuilt from the resolved full ID and the
trailer's counter; the plaintext goes to `PB` when wanted; the entry's six counter bytes take the frame's counter. -/
def Obligations.DecSecAcceptsAFreshFrame : Prop :=
  ∀ (s : State) (fl il bl k : Nat) (ctr : Bytes 6) (pt : List Byte),
    fl = s.hFl.toNat → il = s.hSeqIl.toNat % 16 → bl = s.hBl.toNat →
    s.params.needDecSec ≤ s.params.scratchBytes → s.params.needDecRaw ≤ s.params.scratchBytes →
    (bl = 0 ∨ bl = 32) → fl = 26 + il + bl → fl + 1 ≤ s.fbLen.toNat →
    FirstMatch s.mem s.params.assocN s.hId il k →
    ctr.toList = fbBytes s.mem (4 + il + bl) 6 → ctrValue (assocCtr s.mem k) < ctrValue ctr →
    s.ctrl.getLsbD 0 = true → fbByte s.mem fl = 0x80 → s.hSeqIl.toNat / 16 = (ctr[5]).toNat % 16 →
    aeadDec s.params.aead s.key.toList ((assocId s.mem k).toList.take 6 ++ ctr.toList) (fbBytes s.mem 0 (4 + il))
      (fbBytes s.mem (4 + il) bl) (fbBytes s.mem (fl - 16) 16) = some pt →
    (s.ctrl.getLsbD 2 = true → bl = 32 → dataLen pt ≤ s.pbCap.toNat) →
    s.commitOk = true →
    ∃ m m' iv,
      exec .decSec s = .next { s with
        cmd := 0x0A, err := 0x00, fsm := 5, fsmTrace := 0x3F,
        result := if s.ctrl.getLsbD 2 = true ∧ bl = 32 then BitVec.ofNat 8 (fl + 1) else 0x01,
        pbLen := if s.ctrl.getLsbD 2 = true ∧ bl = 32 then BitVec.ofNat 8 (dataLen pt) else 0x00,
        assocIdx := BitVec.ofNat 8 k, nodeId := assocId s.mem k, iv := iv, ctrl := s.ctrl ||| 0x02, scratch := [],
        mem := m' } ∧
      iv.toList = (assocId s.mem k).toList.take 6 ++ ctr.toList ∧
      Stored s.mem 0x0C0 (if s.ctrl.getLsbD 2 = true ∧ bl = 32 then pt.take (dataLen pt) else []) m ∧
      Stored m (0x100 + 16 * k + 9) ctr.toList m'

/-- R221, R222, R226: the stages of `DEC_SEC` and what each failing stage leaves behind, in every state. From
`CounterChecked` on it is `DEC_RAW` in the state with the nonce built, then the commit. -/
def Obligations.DecSecStages : Prop :=
  ∀ (s : State) (fl il bl : Nat) (e : Byte),
    fl = s.hFl.toNat → il = s.hSeqIl.toNat % 16 → bl = s.hBl.toNat →
    e = (if s.params.scratchBytes < s.params.needDecSec then 0x40
         else if fl ≠ 26 + il + bl then 0x14
         else if s.fbLen.toNat < fl + 1 then 0x41
         else 0x00) →
    (fl = 0 → exec .decSec s = .next
      { s with cmd := 0x0A, result := 0x00, err := 0x1A, fsm := 7, fsmTrace := 0x81, scratch := [] }) ∧
    (fl ≠ 0 → e ≠ 0x00 → exec .decSec s = .next
      { s with cmd := 0x0A, result := 0x00, err := e, fsm := 7, fsmTrace := 0x83, scratch := [] }) ∧
    (fl ≠ 0 → e = 0x00 → NoMatch s.mem s.params.assocN s.hId il → exec .decSec s = .next
      { s with cmd := 0x0A, result := 0x00, err := 0x30, fsm := 7, fsmTrace := 0x83, assocIdx := 0xFF, scratch := [] }) ∧
    (fl ≠ 0 → e = 0x00 → ∀ (k : Nat) (ctr : Bytes 6) (iv : Bytes 12),
      FirstMatch s.mem s.params.assocN s.hId il k → ctr.toList = fbBytes s.mem (4 + il + bl) 6 →
      iv.toList = (assocId s.mem k).toList.take 6 ++ ctr.toList →
      (ctrValue ctr ≤ ctrValue (assocCtr s.mem k) → exec .decSec s = .next
        { s with
          cmd := 0x0A, result := 0x00, err := 0x31, fsm := 7, fsmTrace := 0x87, assocIdx := BitVec.ofNat 8 k,
          nodeId := assocId s.mem k, scratch := [] }) ∧
      (ctrValue (assocCtr s.mem k) < ctrValue ctr →
        ∃ u, exec .decRaw { s with
            iv := iv, ctrl := s.ctrl ||| 0x02, assocIdx := BitVec.ofNat 8 k, nodeId := assocId s.mem k } = .next u ∧
          (u.err ≠ 0x00 → exec .decSec s = .next { u with cmd := 0x0A, fsm := 7, fsmTrace := 0x8F }) ∧
          (u.err = 0x00 → s.commitOk = false → exec .decSec s = .next
            { u with cmd := 0x0A, result := 0x00, err := 0x32, fsm := 7, fsmTrace := 0x9F, scratch := [] }) ∧
          (u.err = 0x00 → s.commitOk = true → ∃ m,
            exec .decSec s = .next { u with cmd := 0x0A, fsm := 5, fsmTrace := 0x3F, mem := m } ∧
            Stored u.mem (0x100 + 16 * k + 9) ctr.toList m)))

/-- R225: a frame that was accepted is rejected as a replay when `DEC_SEC` is issued again on it, at `IDResolved` (trace 0x87);
a fresh `DEC_HDR` of the same bytes in between changes nothing; and any frame with the same ID prefix and counter is
rejected before decryption as long as the table is as the acceptance left it. -/
def Obligations.AcceptedFrameIsRejectedTheSecondTime : Prop :=
  ∀ s t : State, exec .decSec s = .next t → t.err = 0x00 →
    (∃ u, exec .decSec t = .next u ∧ u.err = 0x31 ∧ u.result = 0x00 ∧ u.fsm = 7 ∧ u.fsmTrace = 0x87 ∧ u.mem = t.mem ∧
      u.assocIdx = t.assocIdx) ∧
    (∀ r : State, exec .decHdr r = .next s → s.err = 0x00 →
      ∃ w u, exec .decHdr t = .next w ∧ w.err = 0x00 ∧ exec .decSec w = .next u ∧ u.err = 0x31 ∧ u.result = 0x00 ∧
        u.fsm = 7 ∧ u.fsmTrace = 0x87 ∧ u.mem = t.mem ∧ u.assocIdx = t.assocIdx) ∧
    (∀ x u : State, x.params = t.params → (∀ a, 0x100 ≤ a → Memory.read x.mem a = Memory.read t.mem a) →
      x.hSeqIl.toNat % 16 = s.hSeqIl.toNat % 16 → x.hId = s.hId → x.frameCtr = s.frameCtr → exec .decSec x = .next u →
      u.err ≠ 0x00 ∧ u.fsmTrace ∈ [0x81, 0x83, (0x87 : Byte)] ∧ u.mem = x.mem)

/-- R218, R225: while the host leaves the table to the block, the replay window does not reopen. From every state whose oldest
host action neither writes the table nor resets the hardware (both may lower a counter: R218, R293), a step lowers no stored
counter, a soft reset among them. So after `DEC_SEC` has accepted a frame with counter `c`, through any number of such
steps, it accepts a frame that resolves to the same entry only if its counter is greater than `c`. The host actions are the
model's list (notes/assumptions/1.md). -/
def Obligations.SparedCountersNeverDecrease : Prop :=
  (∀ (s t : State), (∀ a ∈ s.host.head?, a.sparesTable = true) → step s = .next t →
    ∀ k, ctrValue (assocCtr s.mem k) ≤ ctrValue (assocCtr t.mem k)) ∧
  (∀ (s t u v : State) (n : Nat), s.params.wf = true → exec .decSec s = .next t → t.err = 0x00 →
    (∀ a ∈ t.host, a.sparesTable = true) → run n t = some u → exec .decSec u = .next v → v.err = 0x00 →
    v.assocIdx = t.assocIdx → ctrValue s.frameCtr < ctrValue u.frameCtr)

/-- R223, R311: a frame rejected before `CounterChecked` is rejected without the AEAD engine: with any other key and any other
engine the outcome is the same. -/
def Obligations.EarlyRejectionNeedsNoAead : Prop :=
  ∀ (s t : State) (key : Bytes 16) (aead : AeadKind), exec .decSec s = .next t → t.fsmTrace ∈ [0x81, 0x83, (0x87 : Byte)] →
    exec .decSec { s with key := key, params := { s.params with aead := aead } } =
      .next { t with key := key, params := { t.params with aead := aead } }

/-- R208, R221, R223, R226: what an acceptance by `DEC_SEC` proves about the frame: the header was valid with a 23-byte trailer
ending in the format byte, an entry matched, its stored counter was below the frame's and now equals it, and the AEAD
engine accepted the frame under the nonce of that entry's full ID and the frame's counter. -/
def Obligations.DecSecAcceptanceIsSound : Prop :=
  ∀ s t : State, exec .decSec s = .next t → t.err = 0x00 →
    s.hFl ≠ 0x00 ∧ s.hFl.toNat = 26 + s.hSeqIl.toNat % 16 + s.hBl.toNat ∧ s.hFl.toNat + 1 ≤ s.fbLen.toNat ∧
    fbByte s.mem s.hFl.toNat = 0x80 ∧ s.commitOk = true ∧
    ∃ k pt, FirstMatch s.mem s.params.assocN s.hId (s.hSeqIl.toNat % 16) k ∧ t.assocIdx = BitVec.ofNat 8 k ∧
      ctrValue (assocCtr s.mem k) < ctrValue s.frameCtr ∧ assocCtr t.mem k = s.frameCtr ∧
      aeadDec s.params.aead s.key.toList ((assocId s.mem k).toList.take 6 ++ s.frameCtr.toList)
        (fbBytes s.mem 0 (4 + s.hSeqIl.toNat % 16)) (fbBytes s.mem (4 + s.hSeqIl.toNat % 16) s.hBl.toNat)
        (fbBytes s.mem (s.hFl.toNat - 16) 16) = some pt

/-! ## The AEAD engine (spec/45_aead_interface.md) -/

/-- R240 (b), (d) for the two engines the spec describes (the cipher as its general knowledge, notes/assumptions/16.md):
what was encrypted decrypts to itself, with the lengths of the signature; both always answer (R241). -/
def Obligations.DescribedEnginesAreCorrect : Prop :=
  AeadCorrect .aes128Gcm ∧ AeadCorrect .nullDouble ∧
  (∀ key iv aad pt, (aeadEnc .aes128Gcm key iv aad pt).isSome = true) ∧
  (∀ key iv aad pt, (aeadEnc .nullDouble key iv aad pt).isSome = true)

/-- The check values of AES-128, its key schedule, GCM and the field multiplication, as R248 lists them; the spec marks that
rule as general knowledge, and the model presumes it (notes/assumptions/16.md). -/
def Obligations.CipherCheckValues : Prop :=
  aes (List.replicate 16 0x00) (List.replicate 16 0x00) =
    [0x66, 0xe9, 0x4b, 0xd4, 0xef, 0x8a, 0x2c, 0x3b, 0x88, 0x4c, 0xfa, 0x59, 0xca, 0x34, 0x2b, 0x2e] ∧
  aes ((List.range 16).map (BitVec.ofNat 8)) ((List.range 16).map fun i => BitVec.ofNat 8 (17 * i)) =
    [0x69, 0xc4, 0xe0, 0xd8, 0x6a, 0x7b, 0x04, 0x30, 0xd8, 0xcd, 0xb7, 0x80, 0x70, 0xb4, 0xc5, 0x5a] ∧
  gcmEnc (List.replicate 16 0x00) (List.replicate 12 0x00) [] [] =
    some ([], [0x58, 0xe2, 0xfc, 0xce, 0xfa, 0x7e, 0x30, 0x61, 0x36, 0x7f, 0x1d, 0x57, 0xa4, 0xe7, 0x45, 0x5a]) ∧
  gcmEnc (List.replicate 16 0x00) (List.replicate 12 0x00) [] (List.replicate 16 0x00) =
    some ([0x03, 0x88, 0xda, 0xce, 0x60, 0xb6, 0xa3, 0x92, 0xf3, 0x28, 0xc2, 0xb9, 0x71, 0xb2, 0xfe, 0x78],
      [0xab, 0x6e, 0x47, 0xd4, 0x2c, 0xec, 0x13, 0xbd, 0xf5, 0x3a, 0x67, 0xb2, 0x12, 0x57, 0xbd, 0xdf]) ∧
  roundKey (keySchedule (List.replicate 16 0x00)) 1 =
    [0x62, 0x63, 0x63, 0x63, 0x62, 0x63, 0x63, 0x63, 0x62, 0x63, 0x63, 0x63, 0x62, 0x63, 0x63, 0x63] ∧
  roundKey (keySchedule (List.replicate 16 0x00)) 10 =
    [0xb4, 0xef, 0x5b, 0xcb, 0x3e, 0x92, 0xe2, 0x11, 0x23, 0xe9, 0x51, 0xcf, 0x6f, 0x8f, 0x18, 0x8e] ∧
  roundKey (keySchedule ((List.range 16).map (BitVec.ofNat 8))) 1 =
    [0xd6, 0xaa, 0x74, 0xfd, 0xd2, 0xaf, 0x72, 0xfa, 0xda, 0xa6, 0x78, 0xf1, 0xd6, 0xab, 0x76, 0xfe] ∧
  roundKey (keySchedule ((List.range 16).map (BitVec.ofNat 8))) 10 =
    [0x13, 0x11, 0x1d, 0x7f, 0xe3, 0x94, 0x4a, 0x17, 0xf3, 0x07, 0xa7, 0x8b, 0x4d, 0x2b, 0x30, 0xc5] ∧
  gfMul 0x66e94bd4ef8a2c3b884cfa59ca342b2e 0x66e94bd4ef8a2c3b884cfa59ca342b2e = 0xa569901bb4b18906f5059d24465c904d ∧
  gfMul 0x66e94bd4ef8a2c3b884cfa59ca342b2e 0x80000000000000000000000000000000 = 0x66e94bd4ef8a2c3b884cfa59ca342b2e

/-- R193: the secure round trip, for every engine that meets R240: a frame that `ENC_SEC` built in `s`, presented to a
receiver `r` that has the key and knows the sender with an older counter, passes `DEC_HDR` and `DEC_SEC` and gives the
plaintext. -/
def Obligations.SecureRoundTrip : Prop :=
  ∀ (s r : State) (n il ebl k : Nat),
    n = s.pbLen.toNat → il = s.aIl.toNat → ebl = (if n = 0 then 0 else 32) →
    1 ≤ s.aFtype.toNat → s.aFtype.toNat ≤ 0x7E → n ≤ 31 → (if n = 0 then il ≤ 8 else il ≤ 5) → s.fbLen = 64 →
    s.ctrl.getLsbD 0 = true → s.params.needEncSec ≤ s.params.scratchBytes → s.params.needEncRaw ≤ s.params.scratchBytes →
    AeadCorrect s.params.aead → (∀ key iv aad pt, (aeadEnc s.params.aead key iv aad pt).isSome = true) →
    r.params.aead = s.params.aead → r.key = s.key → r.ctrl = 0x07 → n ≤ r.pbCap.toNat → r.commitOk = true →
    r.params.needDecSec ≤ r.params.scratchBytes → r.params.needDecRaw ≤ r.params.scratchBytes →
    FirstMatch r.mem r.params.assocN s.txId il k → assocId r.mem k = s.txId →
    ctrValue (assocCtr r.mem k) < ctrValue s.ctrA →
    ∃ t, exec .encSec s = .next t ∧ t.err = 0x00 ∧ t.result = BitVec.ofNat 8 (27 + il + ebl) ∧
      (fbBytes r.mem 0 (27 + il + ebl) = fbBytes t.mem 0 (27 + il + ebl) → r.fbLen = t.result →
        ∃ u v, exec .decHdr r = .next u ∧ u.err = 0x00 ∧ exec .decSec u = .next v ∧ v.err = 0x00 ∧
          v.pbLen = s.pbLen ∧ v.result = (if n = 0 then 0x01 else t.result) ∧
          pbBytes v.mem 0 n = pbBytes s.mem 0 n ∧ assocCtr v.mem k = s.ctrA)
end

