-- ==== Sys2Proof/Laws/State.lean ====
section
/-! SUPPORT. The fields of the state after each named update: one lemma per field per update, all true by `rfl`. -/
namespace Sys2Proof.Machine

/-! ## `State.zeroScratch` -/

@[simp] theorem State.zeroScratch_cmd (s : State) : s.zeroScratch.cmd = s.cmd := rfl
@[simp] theorem State.zeroScratch_result (s : State) : s.zeroScratch.result = s.result := rfl
@[simp] theorem State.zeroScratch_err (s : State) : s.zeroScratch.err = s.err := rfl
@[simp] theorem State.zeroScratch_fsm (s : State) : s.zeroScratch.fsm = s.fsm := rfl
@[simp] theorem State.zeroScratch_fsmTrace (s : State) : s.zeroScratch.fsmTrace = s.fsmTrace := rfl
@[simp] theorem State.zeroScratch_ctrl (s : State) : s.zeroScratch.ctrl = s.ctrl := rfl
@[simp] theorem State.zeroScratch_aFtype (s : State) : s.zeroScratch.aFtype = s.aFtype := rfl
@[simp] theorem State.zeroScratch_aSecure (s : State) : s.zeroScratch.aSecure = s.aSecure := rfl
@[simp] theorem State.zeroScratch_aSeq (s : State) : s.zeroScratch.aSeq = s.aSeq := rfl
@[simp] theorem State.zeroScratch_aIl (s : State) : s.zeroScratch.aIl = s.aIl := rfl
@[simp] theorem State.zeroScratch_aBl (s : State) : s.zeroScratch.aBl = s.aBl := rfl
@[simp] theorem State.zeroScratch_aTl (s : State) : s.zeroScratch.aTl = s.aTl := rfl
@[simp] theorem State.zeroScratch_aId (s : State) : s.zeroScratch.aId = s.aId := rfl
@[simp] theorem State.zeroScratch_fbLen (s : State) : s.zeroScratch.fbLen = s.fbLen := rfl
@[simp] theorem State.zeroScratch_pbLen (s : State) : s.zeroScratch.pbLen = s.pbLen := rfl
@[simp] theorem State.zeroScratch_pbCap (s : State) : s.zeroScratch.pbCap = s.pbCap := rfl
@[simp] theorem State.zeroScratch_delta (s : State) : s.zeroScratch.delta = s.delta := rfl
@[simp] theorem State.zeroScratch_hFl (s : State) : s.zeroScratch.hFl = s.hFl := rfl
@[simp] theorem State.zeroScratch_hType (s : State) : s.zeroScratch.hType = s.hType := rfl
@[simp] theorem State.zeroScratch_hSeqIl (s : State) : s.zeroScratch.hSeqIl = s.hSeqIl := rfl
@[simp] theorem State.zeroScratch_hBl (s : State) : s.zeroScratch.hBl = s.hBl := rfl
@[simp] theorem State.zeroScratch_hId (s : State) : s.zeroScratch.hId = s.hId := rfl
@[simp] theorem State.zeroScratch_ctrA (s : State) : s.zeroScratch.ctrA = s.ctrA := rfl
@[simp] theorem State.zeroScratch_ctrB (s : State) : s.zeroScratch.ctrB = s.ctrB := rfl
@[simp] theorem State.zeroScratch_iv (s : State) : s.zeroScratch.iv = s.iv := rfl
@[simp] theorem State.zeroScratch_key (s : State) : s.zeroScratch.key = s.key := rfl
@[simp] theorem State.zeroScratch_txId (s : State) : s.zeroScratch.txId = s.txId := rfl
@[simp] theorem State.zeroScratch_nodeId (s : State) : s.zeroScratch.nodeId = s.nodeId := rfl
@[simp] theorem State.zeroScratch_assocIdx (s : State) : s.zeroScratch.assocIdx = s.assocIdx := rfl
@[simp] theorem State.zeroScratch_mem (s : State) : s.zeroScratch.mem = s.mem := rfl
@[simp] theorem State.zeroScratch_scratch (s : State) : s.zeroScratch.scratch = [] := rfl
@[simp] theorem State.zeroScratch_params (s : State) : s.zeroScratch.params = s.params := rfl
@[simp] theorem State.zeroScratch_commitOk (s : State) : s.zeroScratch.commitOk = s.commitOk := rfl
@[simp] theorem State.zeroScratch_rdata (s : State) : s.zeroScratch.rdata = s.rdata := rfl
@[simp] theorem State.zeroScratch_host (s : State) : s.zeroScratch.host = s.host := rfl

/-! ## `State.invalidateHeader` -/

@[simp] theorem State.invalidateHeader_cmd (s : State) : s.invalidateHeader.cmd = s.cmd := rfl
@[simp] theorem State.invalidateHeader_result (s : State) : s.invalidateHeader.result = s.result := rfl
@[simp] theorem State.invalidateHeader_err (s : State) : s.invalidateHeader.err = s.err := rfl
@[simp] theorem State.invalidateHeader_fsm (s : State) : s.invalidateHeader.fsm = s.fsm := rfl
@[simp] theorem State.invalidateHeader_fsmTrace (s : State) : s.invalidateHeader.fsmTrace = s.fsmTrace := rfl
@[simp] theorem State.invalidateHeader_ctrl (s : State) : s.invalidateHeader.ctrl = s.ctrl := rfl
@[simp] theorem State.invalidateHeader_aFtype (s : State) : s.invalidateHeader.aFtype = s.aFtype := rfl
@[simp] theorem State.invalidateHeader_aSecure (s : State) : s.invalidateHeader.aSecure = s.aSecure := rfl
@[simp] theorem State.invalidateHeader_aSeq (s : State) : s.invalidateHeader.aSeq = s.aSeq := rfl
@[simp] theorem State.invalidateHeader_aIl (s : State) : s.invalidateHeader.aIl = s.aIl := rfl
@[simp] theorem State.invalidateHeader_aBl (s : State) : s.invalidateHeader.aBl = s.aBl := rfl
@[simp] theorem State.invalidateHeader_aTl (s : State) : s.invalidateHeader.aTl = s.aTl := rfl
@[simp] theorem State.invalidateHeader_aId (s : State) : s.invalidateHeader.aId = s.aId := rfl
@[simp] theorem State.invalidateHeader_fbLen (s : State) : s.invalidateHeader.fbLen = s.fbLen := rfl
@[simp] theorem State.invalidateHeader_pbLen (s : State) : s.invalidateHeader.pbLen = s.pbLen := rfl
@[simp] theorem State.invalidateHeader_pbCap (s : State) : s.invalidateHeader.pbCap = s.pbCap := rfl
@[simp] theorem State.invalidateHeader_delta (s : State) : s.invalidateHeader.delta = s.delta := rfl
@[simp] theorem State.invalidateHeader_hFl (s : State) : s.invalidateHeader.hFl = 0x00 := rfl
@[simp] theorem State.invalidateHeader_hType (s : State) : s.invalidateHeader.hType = s.hType := rfl
@[simp] theorem State.invalidateHeader_hSeqIl (s : State) : s.invalidateHeader.hSeqIl = s.hSeqIl := rfl
@[simp] theorem State.invalidateHeader_hBl (s : State) : s.invalidateHeader.hBl = s.hBl := rfl
@[simp] theorem State.invalidateHeader_hId (s : State) : s.invalidateHeader.hId = s.hId := rfl
@[simp] theorem State.invalidateHeader_ctrA (s : State) : s.invalidateHeader.ctrA = s.ctrA := rfl
@[simp] theorem State.invalidateHeader_ctrB (s : State) : s.invalidateHeader.ctrB = s.ctrB := rfl
@[simp] theorem State.invalidateHeader_iv (s : State) : s.invalidateHeader.iv = s.iv := rfl
@[simp] theorem State.invalidateHeader_key (s : State) : s.invalidateHeader.key = s.key := rfl
@[simp] theorem State.invalidateHeader_txId (s : State) : s.invalidateHeader.txId = s.txId := rfl
@[simp] theorem State.invalidateHeader_nodeId (s : State) : s.invalidateHeader.nodeId = s.nodeId := rfl
@[simp] theorem State.invalidateHeader_assocIdx (s : State) : s.invalidateHeader.assocIdx = s.assocIdx := rfl
@[simp] theorem State.invalidateHeader_mem (s : State) : s.invalidateHeader.mem = s.mem := rfl
@[simp] theorem State.invalidateHeader_scratch (s : State) : s.invalidateHeader.scratch = s.scratch := rfl
@[simp] theorem State.invalidateHeader_params (s : State) : s.invalidateHeader.params = s.params := rfl
@[simp] theorem State.invalidateHeader_commitOk (s : State) : s.invalidateHeader.commitOk = s.commitOk := rfl
@[simp] theorem State.invalidateHeader_rdata (s : State) : s.invalidateHeader.rdata = s.rdata := rfl
@[simp] theorem State.invalidateHeader_host (s : State) : s.invalidateHeader.host = s.host := rfl

/-! ## `State.revertHeader` -/

@[simp] theorem State.revertHeader_cmd (s old : State) : (s.revertHeader old).cmd = s.cmd := rfl
@[simp] theorem State.revertHeader_result (s old : State) : (s.revertHeader old).result = s.result := rfl
@[simp] theorem State.revertHeader_err (s old : State) : (s.revertHeader old).err = s.err := rfl
@[simp] theorem State.revertHeader_fsm (s old : State) : (s.revertHeader old).fsm = s.fsm := rfl
@[simp] theorem State.revertHeader_fsmTrace (s old : State) : (s.revertHeader old).fsmTrace = s.fsmTrace := rfl
@[simp] theorem State.revertHeader_ctrl (s old : State) : (s.revertHeader old).ctrl = s.ctrl := rfl
@[simp] theorem State.revertHeader_aFtype (s old : State) : (s.revertHeader old).aFtype = s.aFtype := rfl
@[simp] theorem State.revertHeader_aSecure (s old : State) : (s.revertHeader old).aSecure = s.aSecure := rfl
@[simp] theorem State.revertHeader_aSeq (s old : State) : (s.revertHeader old).aSeq = s.aSeq := rfl
@[simp] theorem State.revertHeader_aIl (s old : State) : (s.revertHeader old).aIl = s.aIl := rfl
@[simp] theorem State.revertHeader_aBl (s old : State) : (s.revertHeader old).aBl = s.aBl := rfl
@[simp] theorem State.revertHeader_aTl (s old : State) : (s.revertHeader old).aTl = s.aTl := rfl
@[simp] theorem State.revertHeader_aId (s old : State) : (s.revertHeader old).aId = s.aId := rfl
@[simp] theorem State.revertHeader_fbLen (s old : State) : (s.revertHeader old).fbLen = s.fbLen := rfl
@[simp] theorem State.revertHeader_pbLen (s old : State) : (s.revertHeader old).pbLen = s.pbLen := rfl
@[simp] theorem State.revertHeader_pbCap (s old : State) : (s.revertHeader old).pbCap = s.pbCap := rfl
@[simp] theorem State.revertHeader_delta (s old : State) : (s.revertHeader old).delta = s.delta := rfl
@[simp] theorem State.revertHeader_hFl (s old : State) : (s.revertHeader old).hFl = s.hFl := rfl
@[simp] theorem State.revertHeader_hType (s old : State) : (s.revertHeader old).hType = old.hType := rfl
@[simp] theorem State.revertHeader_hSeqIl (s old : State) : (s.revertHeader old).hSeqIl = old.hSeqIl := rfl
@[simp] theorem State.revertHeader_hBl (s old : State) : (s.revertHeader old).hBl = old.hBl := rfl
@[simp] theorem State.revertHeader_hId (s old : State) : (s.revertHeader old).hId = old.hId := rfl
@[simp] theorem State.revertHeader_ctrA (s old : State) : (s.revertHeader old).ctrA = s.ctrA := rfl
@[simp] theorem State.revertHeader_ctrB (s old : State) : (s.revertHeader old).ctrB = s.ctrB := rfl
@[simp] theorem State.revertHeader_iv (s old : State) : (s.revertHeader old).iv = s.iv := rfl
@[simp] theorem State.revertHeader_key (s old : State) : (s.revertHeader old).key = s.key := rfl
@[simp] theorem State.revertHeader_txId (s old : State) : (s.revertHeader old).txId = s.txId := rfl
@[simp] theorem State.revertHeader_nodeId (s old : State) : (s.revertHeader old).nodeId = s.nodeId := rfl
@[simp] theorem State.revertHeader_assocIdx (s old : State) : (s.revertHeader old).assocIdx = s.assocIdx := rfl
@[simp] theorem State.revertHeader_mem (s old : State) : (s.revertHeader old).mem = s.mem := rfl
@[simp] theorem State.revertHeader_scratch (s old : State) : (s.revertHeader old).scratch = s.scratch := rfl
@[simp] theorem State.revertHeader_params (s old : State) : (s.revertHeader old).params = s.params := rfl
@[simp] theorem State.revertHeader_commitOk (s old : State) : (s.revertHeader old).commitOk = s.commitOk := rfl
@[simp] theorem State.revertHeader_rdata (s old : State) : (s.revertHeader old).rdata = s.rdata := rfl
@[simp] theorem State.revertHeader_host (s old : State) : (s.revertHeader old).host = s.host := rfl

/-! ## `State.beginAttempt` -/

@[simp] theorem State.beginAttempt_cmd (s : State) : s.beginAttempt.cmd = s.cmd := rfl
@[simp] theorem State.beginAttempt_result (s : State) : s.beginAttempt.result = s.result := rfl
@[simp] theorem State.beginAttempt_err (s : State) : s.beginAttempt.err = s.err := rfl
@[simp] theorem State.beginAttempt_fsm (s : State) : s.beginAttempt.fsm = 0x00 := rfl
@[simp] theorem State.beginAttempt_fsmTrace (s : State) : s.beginAttempt.fsmTrace = 0x01 := rfl
@[simp] theorem State.beginAttempt_ctrl (s : State) : s.beginAttempt.ctrl = s.ctrl := rfl
@[simp] theorem State.beginAttempt_aFtype (s : State) : s.beginAttempt.aFtype = s.aFtype := rfl
@[simp] theorem State.beginAttempt_aSecure (s : State) : s.beginAttempt.aSecure = s.aSecure := rfl
@[simp] theorem State.beginAttempt_aSeq (s : State) : s.beginAttempt.aSeq = s.aSeq := rfl
@[simp] theorem State.beginAttempt_aIl (s : State) : s.beginAttempt.aIl = s.aIl := rfl
@[simp] theorem State.beginAttempt_aBl (s : State) : s.beginAttempt.aBl = s.aBl := rfl
@[simp] theorem State.beginAttempt_aTl (s : State) : s.beginAttempt.aTl = s.aTl := rfl
@[simp] theorem State.beginAttempt_aId (s : State) : s.beginAttempt.aId = s.aId := rfl
@[simp] theorem State.beginAttempt_fbLen (s : State) : s.beginAttempt.fbLen = s.fbLen := rfl
@[simp] theorem State.beginAttempt_pbLen (s : State) : s.beginAttempt.pbLen = s.pbLen := rfl
@[simp] theorem State.beginAttempt_pbCap (s : State) : s.beginAttempt.pbCap = s.pbCap := rfl
@[simp] theorem State.beginAttempt_delta (s : State) : s.beginAttempt.delta = s.delta := rfl
@[simp] theorem State.beginAttempt_hFl (s : State) : s.beginAttempt.hFl = s.hFl := rfl
@[simp] theorem State.beginAttempt_hType (s : State) : s.beginAttempt.hType = s.hType := rfl
@[simp] theorem State.beginAttempt_hSeqIl (s : State) : s.beginAttempt.hSeqIl = s.hSeqIl := rfl
@[simp] theorem State.beginAttempt_hBl (s : State) : s.beginAttempt.hBl = s.hBl := rfl
@[simp] theorem State.beginAttempt_hId (s : State) : s.beginAttempt.hId = s.hId := rfl
@[simp] theorem State.beginAttempt_ctrA (s : State) : s.beginAttempt.ctrA = s.ctrA := rfl
@[simp] theorem State.beginAttempt_ctrB (s : State) : s.beginAttempt.ctrB = s.ctrB := rfl
@[simp] theorem State.beginAttempt_iv (s : State) : s.beginAttempt.iv = s.iv := rfl
@[simp] theorem State.beginAttempt_key (s : State) : s.beginAttempt.key = s.key := rfl
@[simp] theorem State.beginAttempt_txId (s : State) : s.beginAttempt.txId = s.txId := rfl
@[simp] theorem State.beginAttempt_nodeId (s : State) : s.beginAttempt.nodeId = s.nodeId := rfl
@[simp] theorem State.beginAttempt_assocIdx (s : State) : s.beginAttempt.assocIdx = s.assocIdx := rfl
@[simp] theorem State.beginAttempt_mem (s : State) : s.beginAttempt.mem = s.mem := rfl
@[simp] theorem State.beginAttempt_scratch (s : State) : s.beginAttempt.scratch = s.scratch := rfl
@[simp] theorem State.beginAttempt_params (s : State) : s.beginAttempt.params = s.params := rfl
@[simp] theorem State.beginAttempt_commitOk (s : State) : s.beginAttempt.commitOk = s.commitOk := rfl
@[simp] theorem State.beginAttempt_rdata (s : State) : s.beginAttempt.rdata = s.rdata := rfl
@[simp] theorem State.beginAttempt_host (s : State) : s.beginAttempt.host = s.host := rfl

/-! ## `State.enter` -/

@[simp] theorem State.enter_cmd (s : State) (k : RxState) : (s.enter k).cmd = s.cmd := rfl
@[simp] theorem State.enter_result (s : State) (k : RxState) : (s.enter k).result = s.result := rfl
@[simp] theorem State.enter_err (s : State) (k : RxState) : (s.enter k).err = s.err := rfl
@[simp] theorem State.enter_fsm (s : State) (k : RxState) : (s.enter k).fsm = BitVec.ofNat 8 k.code := rfl
@[simp] theorem State.enter_fsmTrace (s : State) (k : RxState) : (s.enter k).fsmTrace = s.fsmTrace ||| (1#8 <<< k.code) := rfl
@[simp] theorem State.enter_ctrl (s : State) (k : RxState) : (s.enter k).ctrl = s.ctrl := rfl
@[simp] theorem State.enter_aFtype (s : State) (k : RxState) : (s.enter k).aFtype = s.aFtype := rfl
@[simp] theorem State.enter_aSecure (s : State) (k : RxState) : (s.enter k).aSecure = s.aSecure := rfl
@[simp] theorem State.enter_aSeq (s : State) (k : RxState) : (s.enter k).aSeq = s.aSeq := rfl
@[simp] theorem State.enter_aIl (s : State) (k : RxState) : (s.enter k).aIl = s.aIl := rfl
@[simp] theorem State.enter_aBl (s : State) (k : RxState) : (s.enter k).aBl = s.aBl := rfl
@[simp] theorem State.enter_aTl (s : State) (k : RxState) : (s.enter k).aTl = s.aTl := rfl
@[simp] theorem State.enter_aId (s : State) (k : RxState) : (s.enter k).aId = s.aId := rfl
@[simp] theorem State.enter_fbLen (s : State) (k : RxState) : (s.enter k).fbLen = s.fbLen := rfl
@[simp] theorem State.enter_pbLen (s : State) (k : RxState) : (s.enter k).pbLen = s.pbLen := rfl
@[simp] theorem State.enter_pbCap (s : State) (k : RxState) : (s.enter k).pbCap = s.pbCap := rfl
@[simp] theorem State.enter_delta (s : State) (k : RxState) : (s.enter k).delta = s.delta := rfl
@[simp] theorem State.enter_hFl (s : State) (k : RxState) : (s.enter k).hFl = s.hFl := rfl
@[simp] theorem State.enter_hType (s : State) (k : RxState) : (s.enter k).hType = s.hType := rfl
@[simp] theorem State.enter_hSeqIl (s : State) (k : RxState) : (s.enter k).hSeqIl = s.hSeqIl := rfl
@[simp] theorem State.enter_hBl (s : State) (k : RxState) : (s.enter k).hBl = s.hBl := rfl
@[simp] theorem State.enter_hId (s : State) (k : RxState) : (s.enter k).hId = s.hId := rfl
@[simp] theorem State.enter_ctrA (s : State) (k : RxState) : (s.enter k).ctrA = s.ctrA := rfl
@[simp] theorem State.enter_ctrB (s : State) (k : RxState) : (s.enter k).ctrB = s.ctrB := rfl
@[simp] theorem State.enter_iv (s : State) (k : RxState) : (s.enter k).iv = s.iv := rfl
@[simp] theorem State.enter_key (s : State) (k : RxState) : (s.enter k).key = s.key := rfl
@[simp] theorem State.enter_txId (s : State) (k : RxState) : (s.enter k).txId = s.txId := rfl
@[simp] theorem State.enter_nodeId (s : State) (k : RxState) : (s.enter k).nodeId = s.nodeId := rfl
@[simp] theorem State.enter_assocIdx (s : State) (k : RxState) : (s.enter k).assocIdx = s.assocIdx := rfl
@[simp] theorem State.enter_mem (s : State) (k : RxState) : (s.enter k).mem = s.mem := rfl
@[simp] theorem State.enter_scratch (s : State) (k : RxState) : (s.enter k).scratch = s.scratch := rfl
@[simp] theorem State.enter_params (s : State) (k : RxState) : (s.enter k).params = s.params := rfl
@[simp] theorem State.enter_commitOk (s : State) (k : RxState) : (s.enter k).commitOk = s.commitOk := rfl
@[simp] theorem State.enter_rdata (s : State) (k : RxState) : (s.enter k).rdata = s.rdata := rfl
@[simp] theorem State.enter_host (s : State) (k : RxState) : (s.enter k).host = s.host := rfl

/-! ## `State.setNonce` -/

@[simp] theorem State.setNonce_cmd (s : State) (d : Bytes 8) (c : Bytes 6) : (s.setNonce d c).cmd = s.cmd := rfl
@[simp] theorem State.setNonce_result (s : State) (d : Bytes 8) (c : Bytes 6) : (s.setNonce d c).result = s.result := rfl
@[simp] theorem State.setNonce_err (s : State) (d : Bytes 8) (c : Bytes 6) : (s.setNonce d c).err = s.err := rfl
@[simp] theorem State.setNonce_fsm (s : State) (d : Bytes 8) (c : Bytes 6) : (s.setNonce d c).fsm = s.fsm := rfl
@[simp] theorem State.setNonce_fsmTrace (s : State) (d : Bytes 8) (c : Bytes 6) : (s.setNonce d c).fsmTrace = s.fsmTrace := rfl
@[simp] theorem State.setNonce_ctrl (s : State) (d : Bytes 8) (c : Bytes 6) : (s.setNonce d c).ctrl = s.ctrl ||| 0x02 := rfl
@[simp] theorem State.setNonce_aFtype (s : State) (d : Bytes 8) (c : Bytes 6) : (s.setNonce d c).aFtype = s.aFtype := rfl
@[simp] theorem State.setNonce_aSecure (s : State) (d : Bytes 8) (c : Bytes 6) : (s.setNonce d c).aSecure = s.aSecure := rfl
@[simp] theorem State.setNonce_aSeq (s : State) (d : Bytes 8) (c : Bytes 6) : (s.setNonce d c).aSeq = s.aSeq := rfl
@[simp] theorem State.setNonce_aIl (s : State) (d : Bytes 8) (c : Bytes 6) : (s.setNonce d c).aIl = s.aIl := rfl
@[simp] theorem State.setNonce_aBl (s : State) (d : Bytes 8) (c : Bytes 6) : (s.setNonce d c).aBl = s.aBl := rfl
@[simp] theorem State.setNonce_aTl (s : State) (d : Bytes 8) (c : Bytes 6) : (s.setNonce d c).aTl = s.aTl := rfl
@[simp] theorem State.setNonce_aId (s : State) (d : Bytes 8) (c : Bytes 6) : (s.setNonce d c).aId = s.aId := rfl
@[simp] theorem State.setNonce_fbLen (s : State) (d : Bytes 8) (c : Bytes 6) : (s.setNonce d c).fbLen = s.fbLen := rfl
@[simp] theorem State.setNonce_pbLen (s : State) (d : Bytes 8) (c : Bytes 6) : (s.setNonce d c).pbLen = s.pbLen := rfl
@[simp] theorem State.setNonce_pbCap (s : State) (d : Bytes 8) (c : Bytes 6) : (s.setNonce d c).pbCap = s.pbCap := rfl
@[simp] theorem State.setNonce_delta (s : State) (d : Bytes 8) (c : Bytes 6) : (s.setNonce d c).delta = s.delta := rfl
@[simp] theorem State.setNonce_hFl (s : State) (d : Bytes 8) (c : Bytes 6) : (s.setNonce d c).hFl = s.hFl := rfl
@[simp] theorem State.setNonce_hType (s : State) (d : Bytes 8) (c : Bytes 6) : (s.setNonce d c).hType = s.hType := rfl
@[simp] theorem State.setNonce_hSeqIl (s : State) (d : Bytes 8) (c : Bytes 6) : (s.setNonce d c).hSeqIl = s.hSeqIl := rfl
@[simp] theorem State.setNonce_hBl (s : State) (d : Bytes 8) (c : Bytes 6) : (s.setNonce d c).hBl = s.hBl := rfl
@[simp] theorem State.setNonce_hId (s : State) (d : Bytes 8) (c : Bytes 6) : (s.setNonce d c).hId = s.hId := rfl
@[simp] theorem State.setNonce_ctrA (s : State) (d : Bytes 8) (c : Bytes 6) : (s.setNonce d c).ctrA = s.ctrA := rfl
@[simp] theorem State.setNonce_ctrB (s : State) (d : Bytes 8) (c : Bytes 6) : (s.setNonce d c).ctrB = s.ctrB := rfl
@[simp] theorem State.setNonce_iv (s : State) (d : Bytes 8) (c : Bytes 6) : (s.setNonce d c).iv = nonceOf d c := rfl
@[simp] theorem State.setNonce_key (s : State) (d : Bytes 8) (c : Bytes 6) : (s.setNonce d c).key = s.key := rfl
@[simp] theorem State.setNonce_txId (s : State) (d : Bytes 8) (c : Bytes 6) : (s.setNonce d c).txId = s.txId := rfl
@[simp] theorem State.setNonce_nodeId (s : State) (d : Bytes 8) (c : Bytes 6) : (s.setNonce d c).nodeId = s.nodeId := rfl
@[simp] theorem State.setNonce_assocIdx (s : State) (d : Bytes 8) (c : Bytes 6) : (s.setNonce d c).assocIdx = s.assocIdx := rfl
@[simp] theorem State.setNonce_mem (s : State) (d : Bytes 8) (c : Bytes 6) : (s.setNonce d c).mem = s.mem := rfl
@[simp] theorem State.setNonce_scratch (s : State) (d : Bytes 8) (c : Bytes 6) : (s.setNonce d c).scratch = s.scratch := rfl
@[simp] theorem State.setNonce_params (s : State) (d : Bytes 8) (c : Bytes 6) : (s.setNonce d c).params = s.params := rfl
@[simp] theorem State.setNonce_commitOk (s : State) (d : Bytes 8) (c : Bytes 6) : (s.setNonce d c).commitOk = s.commitOk := rfl
@[simp] theorem State.setNonce_rdata (s : State) (d : Bytes 8) (c : Bytes 6) : (s.setNonce d c).rdata = s.rdata := rfl
@[simp] theorem State.setNonce_host (s : State) (d : Bytes 8) (c : Bytes 6) : (s.setNonce d c).host = s.host := rfl

/-! ## `State.commitHeader` -/

@[simp] theorem State.commitHeader_cmd (s : State) (fl t q b : Byte) (d : Bytes 8) : (s.commitHeader fl t q b d).cmd = s.cmd := rfl
@[simp] theorem State.commitHeader_result (s : State) (fl t q b : Byte) (d : Bytes 8) : (s.commitHeader fl t q b d).result = s.result := rfl
@[simp] theorem State.commitHeader_err (s : State) (fl t q b : Byte) (d : Bytes 8) : (s.commitHeader fl t q b d).err = s.err := rfl
@[simp] theorem State.commitHeader_fsm (s : State) (fl t q b : Byte) (d : Bytes 8) : (s.commitHeader fl t q b d).fsm = s.fsm := rfl
@[simp] theorem State.commitHeader_fsmTrace (s : State) (fl t q b : Byte) (d : Bytes 8) : (s.commitHeader fl t q b d).fsmTrace = s.fsmTrace := rfl
@[simp] theorem State.commitHeader_ctrl (s : State) (fl t q b : Byte) (d : Bytes 8) : (s.commitHeader fl t q b d).ctrl = s.ctrl := rfl
@[simp] theorem State.commitHeader_aFtype (s : State) (fl t q b : Byte) (d : Bytes 8) : (s.commitHeader fl t q b d).aFtype = s.aFtype := rfl
@[simp] theorem State.commitHeader_aSecure (s : State) (fl t q b : Byte) (d : Bytes 8) : (s.commitHeader fl t q b d).aSecure = s.aSecure := rfl
@[simp] theorem State.commitHeader_aSeq (s : State) (fl t q b : Byte) (d : Bytes 8) : (s.commitHeader fl t q b d).aSeq = s.aSeq := rfl
@[simp] theorem State.commitHeader_aIl (s : State) (fl t q b : Byte) (d : Bytes 8) : (s.commitHeader fl t q b d).aIl = s.aIl := rfl
@[simp] theorem State.commitHeader_aBl (s : State) (fl t q b : Byte) (d : Bytes 8) : (s.commitHeader fl t q b d).aBl = s.aBl := rfl
@[simp] theorem State.commitHeader_aTl (s : State) (fl t q b : Byte) (d : Bytes 8) : (s.commitHeader fl t q b d).aTl = s.aTl := rfl
@[simp] theorem State.commitHeader_aId (s : State) (fl t q b : Byte) (d : Bytes 8) : (s.commitHeader fl t q b d).aId = s.aId := rfl
@[simp] theorem State.commitHeader_fbLen (s : State) (fl t q b : Byte) (d : Bytes 8) : (s.commitHeader fl t q b d).fbLen = s.fbLen := rfl
@[simp] theorem State.commitHeader_pbLen (s : State) (fl t q b : Byte) (d : Bytes 8) : (s.commitHeader fl t q b d).pbLen = s.pbLen := rfl
@[simp] theorem State.commitHeader_pbCap (s : State) (fl t q b : Byte) (d : Bytes 8) : (s.commitHeader fl t q b d).pbCap = s.pbCap := rfl
@[simp] theorem State.commitHeader_delta (s : State) (fl t q b : Byte) (d : Bytes 8) : (s.commitHeader fl t q b d).delta = s.delta := rfl
@[simp] theorem State.commitHeader_hFl (s : State) (fl t q b : Byte) (d : Bytes 8) : (s.commitHeader fl t q b d).hFl = fl := rfl
@[simp] theorem State.commitHeader_hType (s : State) (fl t q b : Byte) (d : Bytes 8) : (s.commitHeader fl t q b d).hType = t := rfl
@[simp] theorem State.commitHeader_hSeqIl (s : State) (fl t q b : Byte) (d : Bytes 8) : (s.commitHeader fl t q b d).hSeqIl = q := rfl
@[simp] theorem State.commitHeader_hBl (s : State) (fl t q b : Byte) (d : Bytes 8) : (s.commitHeader fl t q b d).hBl = b := rfl
@[simp] theorem State.commitHeader_hId (s : State) (fl t q b : Byte) (d : Bytes 8) : (s.commitHeader fl t q b d).hId = d := rfl
@[simp] theorem State.commitHeader_ctrA (s : State) (fl t q b : Byte) (d : Bytes 8) : (s.commitHeader fl t q b d).ctrA = s.ctrA := rfl
@[simp] theorem State.commitHeader_ctrB (s : State) (fl t q b : Byte) (d : Bytes 8) : (s.commitHeader fl t q b d).ctrB = s.ctrB := rfl
@[simp] theorem State.commitHeader_iv (s : State) (fl t q b : Byte) (d : Bytes 8) : (s.commitHeader fl t q b d).iv = s.iv := rfl
@[simp] theorem State.commitHeader_key (s : State) (fl t q b : Byte) (d : Bytes 8) : (s.commitHeader fl t q b d).key = s.key := rfl
@[simp] theorem State.commitHeader_txId (s : State) (fl t q b : Byte) (d : Bytes 8) : (s.commitHeader fl t q b d).txId = s.txId := rfl
@[simp] theorem State.commitHeader_nodeId (s : State) (fl t q b : Byte) (d : Bytes 8) : (s.commitHeader fl t q b d).nodeId = s.nodeId := rfl
@[simp] theorem State.commitHeader_assocIdx (s : State) (fl t q b : Byte) (d : Bytes 8) : (s.commitHeader fl t q b d).assocIdx = s.assocIdx := rfl
@[simp] theorem State.commitHeader_mem (s : State) (fl t q b : Byte) (d : Bytes 8) : (s.commitHeader fl t q b d).mem = s.mem := rfl
@[simp] theorem State.commitHeader_scratch (s : State) (fl t q b : Byte) (d : Bytes 8) : (s.commitHeader fl t q b d).scratch = s.scratch := rfl
@[simp] theorem State.commitHeader_params (s : State) (fl t q b : Byte) (d : Bytes 8) : (s.commitHeader fl t q b d).params = s.params := rfl
@[simp] theorem State.commitHeader_commitOk (s : State) (fl t q b : Byte) (d : Bytes 8) : (s.commitHeader fl t q b d).commitOk = s.commitOk := rfl
@[simp] theorem State.commitHeader_rdata (s : State) (fl t q b : Byte) (d : Bytes 8) : (s.commitHeader fl t q b d).rdata = s.rdata := rfl
@[simp] theorem State.commitHeader_host (s : State) (fl t q b : Byte) (d : Bytes 8) : (s.commitHeader fl t q b d).host = s.host := rfl

/-! ## `finish` -/

@[simp] theorem finish_done_cmd (s : State) (v : Nat) : (finish (.done s v)).cmd = s.cmd := rfl
@[simp] theorem finish_done_result (s : State) (v : Nat) : (finish (.done s v)).result = BitVec.ofNat 8 v := rfl
@[simp] theorem finish_done_err (s : State) (v : Nat) : (finish (.done s v)).err = 0x00 := rfl
@[simp] theorem finish_done_fsm (s : State) (v : Nat) : (finish (.done s v)).fsm = s.fsm := rfl
@[simp] theorem finish_done_fsmTrace (s : State) (v : Nat) : (finish (.done s v)).fsmTrace = s.fsmTrace := rfl
@[simp] theorem finish_done_ctrl (s : State) (v : Nat) : (finish (.done s v)).ctrl = s.ctrl := rfl
@[simp] theorem finish_done_aFtype (s : State) (v : Nat) : (finish (.done s v)).aFtype = s.aFtype := rfl
@[simp] theorem finish_done_aSecure (s : State) (v : Nat) : (finish (.done s v)).aSecure = s.aSecure := rfl
@[simp] theorem finish_done_aSeq (s : State) (v : Nat) : (finish (.done s v)).aSeq = s.aSeq := rfl
@[simp] theorem finish_done_aIl (s : State) (v : Nat) : (finish (.done s v)).aIl = s.aIl := rfl
@[simp] theorem finish_done_aBl (s : State) (v : Nat) : (finish (.done s v)).aBl = s.aBl := rfl
@[simp] theorem finish_done_aTl (s : State) (v : Nat) : (finish (.done s v)).aTl = s.aTl := rfl
@[simp] theorem finish_done_aId (s : State) (v : Nat) : (finish (.done s v)).aId = s.aId := rfl
@[simp] theorem finish_done_fbLen (s : State) (v : Nat) : (finish (.done s v)).fbLen = s.fbLen := rfl
@[simp] theorem finish_done_pbLen (s : State) (v : Nat) : (finish (.done s v)).pbLen = s.pbLen := rfl
@[simp] theorem finish_done_pbCap (s : State) (v : Nat) : (finish (.done s v)).pbCap = s.pbCap := rfl
@[simp] theorem finish_done_delta (s : State) (v : Nat) : (finish (.done s v)).delta = s.delta := rfl
@[simp] theorem finish_done_hFl (s : State) (v : Nat) : (finish (.done s v)).hFl = s.hFl := rfl
@[simp] theorem finish_done_hType (s : State) (v : Nat) : (finish (.done s v)).hType = s.hType := rfl
@[simp] theorem finish_done_hSeqIl (s : State) (v : Nat) : (finish (.done s v)).hSeqIl = s.hSeqIl := rfl
@[simp] theorem finish_done_hBl (s : State) (v : Nat) : (finish (.done s v)).hBl = s.hBl := rfl
@[simp] theorem finish_done_hId (s : State) (v : Nat) : (finish (.done s v)).hId = s.hId := rfl
@[simp] theorem finish_done_ctrA (s : State) (v : Nat) : (finish (.done s v)).ctrA = s.ctrA := rfl
@[simp] theorem finish_done_ctrB (s : State) (v : Nat) : (finish (.done s v)).ctrB = s.ctrB := rfl
@[simp] theorem finish_done_iv (s : State) (v : Nat) : (finish (.done s v)).iv = s.iv := rfl
@[simp] theorem finish_done_key (s : State) (v : Nat) : (finish (.done s v)).key = s.key := rfl
@[simp] theorem finish_done_txId (s : State) (v : Nat) : (finish (.done s v)).txId = s.txId := rfl
@[simp] theorem finish_done_nodeId (s : State) (v : Nat) : (finish (.done s v)).nodeId = s.nodeId := rfl
@[simp] theorem finish_done_assocIdx (s : State) (v : Nat) : (finish (.done s v)).assocIdx = s.assocIdx := rfl
@[simp] theorem finish_done_mem (s : State) (v : Nat) : (finish (.done s v)).mem = s.mem := rfl
@[simp] theorem finish_done_scratch (s : State) (v : Nat) : (finish (.done s v)).scratch = s.scratch := rfl
@[simp] theorem finish_done_params (s : State) (v : Nat) : (finish (.done s v)).params = s.params := rfl
@[simp] theorem finish_done_commitOk (s : State) (v : Nat) : (finish (.done s v)).commitOk = s.commitOk := rfl
@[simp] theorem finish_done_rdata (s : State) (v : Nat) : (finish (.done s v)).rdata = s.rdata := rfl
@[simp] theorem finish_done_host (s : State) (v : Nat) : (finish (.done s v)).host = s.host := rfl
@[simp] theorem finish_failed_cmd (s : State) (e : Err) : (finish (.failed s e)).cmd = s.cmd := rfl
@[simp] theorem finish_failed_result (s : State) (e : Err) : (finish (.failed s e)).result = 0x00 := rfl
@[simp] theorem finish_failed_err (s : State) (e : Err) : (finish (.failed s e)).err = e.code := rfl
@[simp] theorem finish_failed_fsm (s : State) (e : Err) : (finish (.failed s e)).fsm = s.fsm := rfl
@[simp] theorem finish_failed_fsmTrace (s : State) (e : Err) : (finish (.failed s e)).fsmTrace = s.fsmTrace := rfl
@[simp] theorem finish_failed_ctrl (s : State) (e : Err) : (finish (.failed s e)).ctrl = s.ctrl := rfl
@[simp] theorem finish_failed_aFtype (s : State) (e : Err) : (finish (.failed s e)).aFtype = s.aFtype := rfl
@[simp] theorem finish_failed_aSecure (s : State) (e : Err) : (finish (.failed s e)).aSecure = s.aSecure := rfl
@[simp] theorem finish_failed_aSeq (s : State) (e : Err) : (finish (.failed s e)).aSeq = s.aSeq := rfl
@[simp] theorem finish_failed_aIl (s : State) (e : Err) : (finish (.failed s e)).aIl = s.aIl := rfl
@[simp] theorem finish_failed_aBl (s : State) (e : Err) : (finish (.failed s e)).aBl = s.aBl := rfl
@[simp] theorem finish_failed_aTl (s : State) (e : Err) : (finish (.failed s e)).aTl = s.aTl := rfl
@[simp] theorem finish_failed_aId (s : State) (e : Err) : (finish (.failed s e)).aId = s.aId := rfl
@[simp] theorem finish_failed_fbLen (s : State) (e : Err) : (finish (.failed s e)).fbLen = s.fbLen := rfl
@[simp] theorem finish_failed_pbLen (s : State) (e : Err) : (finish (.failed s e)).pbLen = s.pbLen := rfl
@[simp] theorem finish_failed_pbCap (s : State) (e : Err) : (finish (.failed s e)).pbCap = s.pbCap := rfl
@[simp] theorem finish_failed_delta (s : State) (e : Err) : (finish (.failed s e)).delta = s.delta := rfl
@[simp] theorem finish_failed_hFl (s : State) (e : Err) : (finish (.failed s e)).hFl = s.hFl := rfl
@[simp] theorem finish_failed_hType (s : State) (e : Err) : (finish (.failed s e)).hType = s.hType := rfl
@[simp] theorem finish_failed_hSeqIl (s : State) (e : Err) : (finish (.failed s e)).hSeqIl = s.hSeqIl := rfl
@[simp] theorem finish_failed_hBl (s : State) (e : Err) : (finish (.failed s e)).hBl = s.hBl := rfl
@[simp] theorem finish_failed_hId (s : State) (e : Err) : (finish (.failed s e)).hId = s.hId := rfl
@[simp] theorem finish_failed_ctrA (s : State) (e : Err) : (finish (.failed s e)).ctrA = s.ctrA := rfl
@[simp] theorem finish_failed_ctrB (s : State) (e : Err) : (finish (.failed s e)).ctrB = s.ctrB := rfl
@[simp] theorem finish_failed_iv (s : State) (e : Err) : (finish (.failed s e)).iv = s.iv := rfl
@[simp] theorem finish_failed_key (s : State) (e : Err) : (finish (.failed s e)).key = s.key := rfl
@[simp] theorem finish_failed_txId (s : State) (e : Err) : (finish (.failed s e)).txId = s.txId := rfl
@[simp] theorem finish_failed_nodeId (s : State) (e : Err) : (finish (.failed s e)).nodeId = s.nodeId := rfl
@[simp] theorem finish_failed_assocIdx (s : State) (e : Err) : (finish (.failed s e)).assocIdx = s.assocIdx := rfl
@[simp] theorem finish_failed_mem (s : State) (e : Err) : (finish (.failed s e)).mem = s.mem := rfl
@[simp] theorem finish_failed_scratch (s : State) (e : Err) : (finish (.failed s e)).scratch = [] := rfl
@[simp] theorem finish_failed_params (s : State) (e : Err) : (finish (.failed s e)).params = s.params := rfl
@[simp] theorem finish_failed_commitOk (s : State) (e : Err) : (finish (.failed s e)).commitOk = s.commitOk := rfl
@[simp] theorem finish_failed_rdata (s : State) (e : Err) : (finish (.failed s e)).rdata = s.rdata := rfl
@[simp] theorem finish_failed_host (s : State) (e : Err) : (finish (.failed s e)).host = s.host := rfl

end Sys2Proof.Machine
end

