-- ==== Sys2Proof/Laws/Memory.lean ====
section
/-! SUPPORT. What memory operations do: reads after writes, and the canonical form they keep. -/
namespace Sys2Proof.Machine

@[simp] theorem Memory.read_nil (x : Nat) : Memory.read [] x = 0x00 := rfl

theorem Memory.read_cons (c : Host.Cell) (m : Memory) (x : Nat) :
    Memory.read (c :: m) x = if c.1 = x then c.2 else Memory.read m x := rfl

theorem Memory.read_erase (m : Memory) (a x : Nat) :
    Memory.read (Memory.erase m a) x = if x = a then 0x00 else Memory.read m x := by
  induction m with
  | nil => simp [Memory.erase]
  | cons c m ih =>
    simp only [Memory.erase, List.filter_cons] at ih ⊢
    by_cases h : c.1 = a
    · simp only [h, bne_self_eq_false, Bool.false_eq_true, if_false, ih, Memory.read_cons]
      by_cases hx : x = a
      · simp [hx]
      · simp [hx, Ne.symm hx]
    · simp only [bne_iff_ne, ne_eq, h, not_false_eq_true, if_true, Memory.read_cons, ih]
      by_cases hx : x = a
      · subst hx; simp [h]
      · simp [hx]

theorem Memory.read_insert (m : Memory) (a : Nat) (v : Byte) (h : ∀ c ∈ m, c.1 ≠ a) (x : Nat) :
    Memory.read (Memory.insert m a v) x = if x = a then v else Memory.read m x := by
  induction m with
  | nil => simp [Memory.insert, Memory.read_cons, eq_comm]
  | cons c m ih =>
    obtain ⟨b, w⟩ := c
    have hb : b ≠ a := h (b, w) (by simp)
    have ih := ih fun c hc => h c (by simp [hc])
    simp only [Memory.insert]
    split
    · simp [Memory.read_cons, eq_comm]
    · simp only [Memory.read_cons, ih]
      by_cases hx : x = a
      · subst hx; simp [hb]
      · simp [hx]

theorem Memory.erase_ne (m : Memory) (a : Nat) : ∀ c ∈ Memory.erase m a, c.1 ≠ a := by
  intro c hc
  simpa [Memory.erase] using (List.mem_filter.mp hc).2

/-- A read after a write of one byte: the byte at its address, everything else as before. It holds of every list. -/
theorem Memory.read_write (m : Memory) (a : Nat) (v : Byte) (x : Nat) :
    Memory.read (Memory.write m a v) x = if x = a then v else Memory.read m x := by
  unfold Memory.write
  split
  · rename_i hv; simp [Memory.read_erase, hv, Memory.unlisted]
  · rw [Memory.read_insert _ _ _ (Memory.erase_ne m a), Memory.read_erase]
    by_cases hx : x = a <;> simp [hx]

/-- A read after a write of a byte list. -/
theorem Memory.read_writeBytes (m : Memory) (a : Nat) (vs : List Byte) (x : Nat) :
    Memory.read (Memory.writeBytes m a vs) x =
      if a ≤ x ∧ x < a + vs.length then vs.getD (x - a) 0x00 else Memory.read m x := by
  induction vs generalizing m a with
  | nil => simp [Memory.writeBytes]
  | cons v vs ih =>
    rw [Memory.writeBytes, ih, Memory.read_write, List.length_cons]
    by_cases h1 : a + 1 ≤ x ∧ x < a + 1 + vs.length
    · have : x - a = (x - (a + 1)) + 1 := by omega
      rw [if_pos h1, if_pos (by omega), this, List.getD_cons_succ]
    · rw [if_neg h1]
      by_cases h2 : x = a
      · subst h2; simp
      · rw [if_neg h2, if_neg (by omega)]

/-- Writing two byte lists one after the other is writing their concatenation. -/
theorem Memory.writeBytes_append (m : Memory) (a : Nat) (xs ys : List Byte) :
    Memory.writeBytes m a (xs ++ ys) = Memory.writeBytes (Memory.writeBytes m a xs) (a + xs.length) ys := by
  induction xs generalizing m a with
  | nil => rfl
  | cons x xs ih =>
    simp only [List.cons_append, Memory.writeBytes, ih, List.length_cons]
    rw [show a + 1 + xs.length = a + (xs.length + 1) by omega]

/-! ## The canonical form -/

theorem Memory.above_iff (a : Nat) (m : Memory) : Memory.above a m = true ↔ ∀ c ∈ m, a < c.1 := by
  induction m with
  | nil => simp [Memory.above]
  | cons c m ih => simp [Memory.above, ih]

theorem Memory.wf_cons (c : Host.Cell) (m : Memory) :
    Memory.wf (c :: m) = true ↔ c.2 ≠ 0x00 ∧ (∀ d ∈ m, c.1 < d.1) ∧ Memory.wf m = true := by
  simp [Memory.wf, Memory.above_iff, Memory.unlisted, and_assoc]

theorem Memory.wf_filter (m : Memory) (p : Host.Cell → Bool) (h : Memory.wf m = true) :
    Memory.wf (m.filter p) = true := by
  induction m with
  | nil => rfl
  | cons c m ih =>
    rw [Memory.wf_cons] at h
    rw [List.filter_cons]
    split
    · exact (Memory.wf_cons _ _).mpr ⟨h.1, fun d hd => h.2.1 d (List.mem_filter.mp hd).1, ih h.2.2⟩
    · exact ih h.2.2

theorem Memory.wf_erase (m : Memory) (a : Nat) (h : Memory.wf m = true) : Memory.wf (Memory.erase m a) = true :=
  Memory.wf_filter m _ h

theorem Memory.mem_insert (m : Memory) (a : Nat) (v : Byte) (c : Host.Cell) :
    c ∈ Memory.insert m a v ↔ c = (a, v) ∨ c ∈ m := by
  induction m with
  | nil => simp [Memory.insert]
  | cons d m ih =>
    obtain ⟨b, w⟩ := d
    simp only [Memory.insert]
    split
    · simp
    · simp only [List.mem_cons, ih]; tauto

theorem Memory.wf_insert (m : Memory) (a : Nat) (v : Byte) (hv : v ≠ 0x00) (hn : ∀ c ∈ m, c.1 ≠ a)
    (h : Memory.wf m = true) : Memory.wf (Memory.insert m a v) = true := by
  induction m with
  | nil => exact (Memory.wf_cons _ _).mpr ⟨hv, by simp, rfl⟩
  | cons d m ih =>
    obtain ⟨b, w⟩ := d
    have hd := (Memory.wf_cons _ _).mp h
    have hb : b ≠ a := hn (b, w) (by simp)
    simp only [Memory.insert]
    split
    · rename_i hab
      refine (Memory.wf_cons _ _).mpr ⟨hv, fun d hdm => ?_, h⟩
      rcases List.mem_cons.mp hdm with rfl | hdm
      · exact hab
      · exact Nat.lt_trans hab (hd.2.1 d hdm)
    · rename_i hab
      refine (Memory.wf_cons _ _).mpr ⟨hd.1, fun d hdm => ?_, ih (fun c hc => hn c (by simp [hc])) hd.2.2⟩
      rcases (Memory.mem_insert _ _ _ _).mp hdm with rfl | hdm
      · show b < a; omega
      · exact hd.2.1 d hdm

/-- A write keeps the canonical form. -/
theorem Memory.wf_write (m : Memory) (a : Nat) (v : Byte) (h : Memory.wf m = true) :
    Memory.wf (Memory.write m a v) = true := by
  unfold Memory.write
  split
  · exact Memory.wf_erase m a h
  · rename_i hv
    exact Memory.wf_insert _ a v hv (Memory.erase_ne m a) (Memory.wf_erase m a h)

/-- Writing a byte list keeps the canonical form. -/
theorem Memory.wf_writeBytes (m : Memory) (a : Nat) (vs : List Byte) (h : Memory.wf m = true) :
    Memory.wf (Memory.writeBytes m a vs) = true := by
  induction vs generalizing m a with
  | nil => exact h
  | cons v vs ih => exact ih _ _ (Memory.wf_write m a v h)

/-- An entry after a write is the written one or an old one. -/
theorem Memory.mem_write (m : Memory) (a : Nat) (v : Byte) (c : Host.Cell) (h : c ∈ Memory.write m a v) :
    c = (a, v) ∨ c ∈ m := by
  unfold Memory.write at h
  split at h
  · exact Or.inr (List.mem_filter.mp h).1
  · rcases (Memory.mem_insert _ _ _ _).mp h with h | h
    · exact Or.inl h
    · exact Or.inr (List.mem_filter.mp h).1

/-- An entry after a write of a byte list stands in the written range or is an old one. -/
theorem Memory.mem_writeBytes (m : Memory) (a : Nat) (vs : List Byte) (c : Host.Cell)
    (h : c ∈ Memory.writeBytes m a vs) : (a ≤ c.1 ∧ c.1 < a + vs.length) ∨ c ∈ m := by
  induction vs generalizing m a with
  | nil => exact Or.inr h
  | cons v vs ih =>
    rcases ih _ _ h with h | h
    · exact Or.inl (by simp only [List.length_cons]; omega)
    · rcases Memory.mem_write _ _ _ _ h with rfl | h
      · exact Or.inl (by simp)
      · exact Or.inr h

theorem Memory.read_eq_zero (m : Memory) (x : Nat) (h : ∀ c ∈ m, c.1 ≠ x) : Memory.read m x = 0x00 := by
  induction m with
  | nil => rfl
  | cons c m ih =>
    rw [Memory.read_cons, if_neg (h c (by simp)), ih fun d hd => h d (by simp [hd])]

/-- Equal memories are equal data: two canonical memories that read alike are the same list. -/
theorem Memory.ext_read (m n : Memory) (hm : Memory.wf m = true) (hn : Memory.wf n = true)
    (h : ∀ x, Memory.read m x = Memory.read n x) : m = n := by
  induction m generalizing n with
  | nil =>
    cases n with
    | nil => rfl
    | cons d n =>
      have := h d.1
      simp only [Memory.read_nil, Memory.read_cons, if_true] at this
      exact absurd this.symm ((Memory.wf_cons _ _).mp hn).1
  | cons c m ih =>
    have hc := (Memory.wf_cons _ _).mp hm
    cases n with
    | nil =>
      have := h c.1
      simp only [Memory.read_nil, Memory.read_cons, if_true] at this
      exact absurd this hc.1
    | cons d n =>
      have hd := (Memory.wf_cons _ _).mp hn
      have hcd : c.1 = d.1 := by
        rcases Nat.lt_trichotomy c.1 d.1 with hlt | heq | hgt
        · have := h c.1
          rw [Memory.read_cons, if_pos rfl, Memory.read_eq_zero (d :: n) c.1] at this
          · exact absurd this hc.1
          · intro e he
            rcases List.mem_cons.mp he with rfl | he
            · omega
            · have := hd.2.1 e he; omega
        · exact heq
        · have := h d.1
          rw [Memory.read_cons d, if_pos rfl, Memory.read_eq_zero (c :: m) d.1] at this
          · exact absurd this.symm hd.1
          · intro e he
            rcases List.mem_cons.mp he with rfl | he
            · omega
            · have := hc.2.1 e he; omega
      have hv : c.2 = d.2 := by
        have := h c.1
        rwa [Memory.read_cons, if_pos rfl, Memory.read_cons, if_pos hcd.symm] at this
      have hcd' : c = d := Prod.ext hcd hv
      subst hcd'
      congr 1
      refine ih n hc.2.2 hd.2.2 fun x => ?_
      by_cases hx : c.1 = x
      · subst hx
        rw [Memory.read_eq_zero m, Memory.read_eq_zero n]
        · intro e he; have := hd.2.1 e he; omega
        · intro e he; have := hc.2.1 e he; omega
      · have := h x
        rwa [Memory.read_cons, Memory.read_cons, if_neg hx, if_neg hx] at this

end Sys2Proof.Machine
end

