-- ==== Sys2Proof/Laws/Windows.lean ====
section
/-! SUPPORT. The frame buffer, the plaintext buffer and the association table as windows of one memory: what a write to one
of them does to a read of any of them. -/
namespace Sys2Proof.Machine

/-! ## One byte of memory after a window write -/

theorem read_fbWrite (m : Memory) (i : Nat) (bs : List Byte) (x : Nat) :
    Memory.read (fbWrite m i bs) x =
      if 0x80 + i ≤ x ∧ x < 0x80 + i + bs.length ∧ x < 0xC0 then bs.getD (x - (0x80 + i)) 0x00 else Memory.read m x := by
  simp only [fbWrite, Memory.read_writeBytes, List.length_take, fbBase, fbSize]
  by_cases h : 0x80 + i ≤ x ∧ x < 0x80 + i + bs.length ∧ x < 0xC0
  · rw [if_pos h, if_pos (by omega), List.getD_eq_getElem?_getD, List.getElem?_take, if_pos (by omega),
      ← List.getD_eq_getElem?_getD]
  · rw [if_neg h, if_neg (by omega)]

theorem read_pbWrite (m : Memory) (i : Nat) (bs : List Byte) (x : Nat) :
    Memory.read (pbWrite m i bs) x =
      if 0xC0 + i ≤ x ∧ x < 0xC0 + i + bs.length ∧ x < 0x100 then bs.getD (x - (0xC0 + i)) 0x00 else Memory.read m x := by
  simp only [pbWrite, Memory.read_writeBytes, List.length_take, pbBase, pbSize]
  by_cases h : 0xC0 + i ≤ x ∧ x < 0xC0 + i + bs.length ∧ x < 0x100
  · rw [if_pos h, if_pos (by omega), List.getD_eq_getElem?_getD, List.getElem?_take, if_pos (by omega),
      ← List.getD_eq_getElem?_getD]
  · rw [if_neg h, if_neg (by omega)]

theorem read_setAssocCtr (m : Memory) (k : Nat) (c : Bytes 6) (x : Nat) :
    Memory.read (setAssocCtr m k c) x =
      if assocBase k + 9 ≤ x ∧ x < assocBase k + 15 then c.toList.getD (x - (assocBase k + 9)) 0x00
      else Memory.read m x := by
  simp only [setAssocCtr, Memory.read_writeBytes, Vector.length_toList]

theorem read_keepTable (m : Memory) (x : Nat) :
    Memory.read (keepTable m) x = if 0x100 ≤ x then Memory.read m x else 0x00 := by
  induction m with
  | nil => simp [keepTable]
  | cons c m ih =>
    simp only [keepTable, List.filter_cons, assocBase] at ih ⊢
    by_cases h : 0x100 ≤ c.1
    · simp only [Nat.mul_zero, Nat.add_zero, h, decide_true, if_true, Memory.read_cons, ih]
      by_cases hx : c.1 = x
      · subst hx; simp [h]
      · simp [hx]
    · simp only [Nat.mul_zero, Nat.add_zero, h, decide_false, Bool.false_eq_true, if_false, ih, Memory.read_cons]
      by_cases hx : c.1 = x
      · subst hx; simp [h]
      · simp [hx]

/-! ## A byte of a window after a window write -/

theorem fbByte_fbWrite (m : Memory) (i : Nat) (bs : List Byte) (j : Nat) :
    fbByte (fbWrite m i bs) j = if i ≤ j ∧ j < i + bs.length ∧ j < 64 then bs.getD (j - i) 0x00 else fbByte m j := by
  simp only [fbByte, read_fbWrite, fbBase, fbSize]
  by_cases h : j < 64
  · simp only [h, if_true, and_true]
    by_cases h2 : i ≤ j ∧ j < i + bs.length
    · rw [if_pos (by omega), if_pos h2, show 0x80 + j - (0x80 + i) = j - i by omega]
    · rw [if_neg (by omega), if_neg h2]
  · simp [h]

@[simp] theorem fbByte_pbWrite (m : Memory) (i : Nat) (bs : List Byte) (j : Nat) :
    fbByte (pbWrite m i bs) j = fbByte m j := by
  simp only [fbByte]
  split
  · rw [read_pbWrite, if_neg (by simp only [fbBase, fbSize] at *; omega)]
  · rfl

theorem pbByte_pbWrite (m : Memory) (i : Nat) (bs : List Byte) (j : Nat) :
    pbByte (pbWrite m i bs) j = if i ≤ j ∧ j < i + bs.length ∧ j < 64 then bs.getD (j - i) 0x00 else pbByte m j := by
  simp only [pbByte, read_pbWrite, pbBase, pbSize]
  by_cases h : j < 64
  · simp only [h, if_true, and_true]
    by_cases h2 : i ≤ j ∧ j < i + bs.length
    · rw [if_pos (by omega), if_pos h2, show 0xC0 + j - (0xC0 + i) = j - i by omega]
    · rw [if_neg (by omega), if_neg h2]
  · simp [h]

@[simp] theorem pbByte_fbWrite (m : Memory) (i : Nat) (bs : List Byte) (j : Nat) :
    pbByte (fbWrite m i bs) j = pbByte m j := by
  simp only [pbByte]
  split
  · rw [read_fbWrite, if_neg (by simp only [pbBase, pbSize] at *; omega)]
  · rfl

@[simp] theorem fbByte_setAssocCtr (m : Memory) (k : Nat) (c : Bytes 6) (j : Nat) :
    fbByte (setAssocCtr m k c) j = fbByte m j := by
  simp only [fbByte]
  split
  · rw [read_setAssocCtr, if_neg (by simp only [fbBase, fbSize, assocBase] at *; omega)]
  · rfl

@[simp] theorem pbByte_setAssocCtr (m : Memory) (k : Nat) (c : Bytes 6) (j : Nat) :
    pbByte (setAssocCtr m k c) j = pbByte m j := by
  simp only [pbByte]
  split
  · rw [read_setAssocCtr, if_neg (by simp only [pbBase, pbSize, assocBase] at *; omega)]
  · rfl

/-! ## Byte strings of a window -/

@[simp] theorem fbBytes_length (m : Memory) (i n : Nat) : (fbBytes m i n).length = n := by simp [fbBytes]

@[simp] theorem pbBytes_length (m : Memory) (i n : Nat) : (pbBytes m i n).length = n := by simp [pbBytes]

theorem fbBytes_getElem (m : Memory) (i n j : Nat) (h : j < (fbBytes m i n).length) :
    (fbBytes m i n)[j] = fbByte m (i + j) := by simp [fbBytes]

theorem pbBytes_getElem (m : Memory) (i n j : Nat) (h : j < (pbBytes m i n).length) :
    (pbBytes m i n)[j] = pbByte m (i + j) := by simp [pbBytes]

theorem fbBytes_congr (m m' : Memory) (i n : Nat) (h : ∀ j, i ≤ j → j < i + n → fbByte m j = fbByte m' j) :
    fbBytes m i n = fbBytes m' i n := by
  simp only [fbBytes]
  exact List.map_congr_left fun j hj => h _ (by omega) (by have := List.mem_range.mp hj; omega)

theorem pbBytes_congr (m m' : Memory) (i n : Nat) (h : ∀ j, i ≤ j → j < i + n → pbByte m j = pbByte m' j) :
    pbBytes m i n = pbBytes m' i n := by
  simp only [pbBytes]
  exact List.map_congr_left fun j hj => h _ (by omega) (by have := List.mem_range.mp hj; omega)

@[simp] theorem fbBytes_pbWrite (m : Memory) (i : Nat) (bs : List Byte) (j n : Nat) :
    fbBytes (pbWrite m i bs) j n = fbBytes m j n := by simp [fbBytes]

@[simp] theorem pbBytes_fbWrite (m : Memory) (i : Nat) (bs : List Byte) (j n : Nat) :
    pbBytes (fbWrite m i bs) j n = pbBytes m j n := by simp [pbBytes]

@[simp] theorem fbBytes_setAssocCtr (m : Memory) (k : Nat) (c : Bytes 6) (j n : Nat) :
    fbBytes (setAssocCtr m k c) j n = fbBytes m j n := by simp [fbBytes]

@[simp] theorem pbBytes_setAssocCtr (m : Memory) (k : Nat) (c : Bytes 6) (j n : Nat) :
    pbBytes (setAssocCtr m k c) j n = pbBytes m j n := by simp [pbBytes]

theorem fbBytes_append (m : Memory) (i n k : Nat) : fbBytes m i (n + k) = fbBytes m i n ++ fbBytes m (i + n) k := by
  simp [fbBytes, List.range_add, List.map_append, Nat.add_assoc]

/-- The bytes just written are read back, when they lie inside the buffer. -/
theorem fbBytes_fbWrite_same (m : Memory) (i : Nat) (bs : List Byte) (h : i + bs.length ≤ 64) :
    fbBytes (fbWrite m i bs) i bs.length = bs := by
  refine List.ext_getElem (by simp) fun j h1 h2 => ?_
  rw [fbBytes_getElem, fbByte_fbWrite, if_pos (by omega), show i + j - i = j by omega]
  simp [h2]

/-- The bytes just written are read back, when they lie inside the buffer. -/
theorem pbBytes_pbWrite_same (m : Memory) (i : Nat) (bs : List Byte) (h : i + bs.length ≤ 64) :
    pbBytes (pbWrite m i bs) i bs.length = bs := by
  refine List.ext_getElem (by simp) fun j h1 h2 => ?_
  rw [pbBytes_getElem, pbByte_pbWrite, if_pos (by omega), show i + j - i = j by omega]
  simp [h2]

/-- A write at or behind the end of a span leaves the span alone. -/
theorem fbBytes_fbWrite_before (m : Memory) (i : Nat) (bs : List Byte) (j n : Nat) (h : j + n ≤ i) :
    fbBytes (fbWrite m i bs) j n = fbBytes m j n :=
  fbBytes_congr _ _ _ _ fun x _ hx => by rw [fbByte_fbWrite, if_neg (by omega)]

/-- A write that ends before a span leaves the span alone. -/
theorem fbBytes_fbWrite_after (m : Memory) (i : Nat) (bs : List Byte) (j n : Nat) (h : i + bs.length ≤ j) :
    fbBytes (fbWrite m i bs) j n = fbBytes m j n :=
  fbBytes_congr _ _ _ _ fun x hx _ => by rw [fbByte_fbWrite, if_neg (by omega)]

/-! ## The association table -/

@[simp] theorem assocValid_fbWrite (m : Memory) (i : Nat) (bs : List Byte) (k : Nat) :
    assocValid (fbWrite m i bs) k = assocValid m k := by
  simp only [assocValid, read_fbWrite, assocBase]; rw [if_neg (by omega)]

@[simp] theorem assocValid_pbWrite (m : Memory) (i : Nat) (bs : List Byte) (k : Nat) :
    assocValid (pbWrite m i bs) k = assocValid m k := by
  simp only [assocValid, read_pbWrite, assocBase]; rw [if_neg (by omega)]

@[simp] theorem assocId_fbWrite (m : Memory) (i : Nat) (bs : List Byte) (k : Nat) :
    assocId (fbWrite m i bs) k = assocId m k := by
  refine Vector.ext fun j hj => ?_
  simp only [assocId, Vector.getElem_ofFn, read_fbWrite, assocBase]; rw [if_neg (by omega)]

@[simp] theorem assocId_pbWrite (m : Memory) (i : Nat) (bs : List Byte) (k : Nat) :
    assocId (pbWrite m i bs) k = assocId m k := by
  refine Vector.ext fun j hj => ?_
  simp only [assocId, Vector.getElem_ofFn, read_pbWrite, assocBase]; rw [if_neg (by omega)]

@[simp] theorem assocCtr_fbWrite (m : Memory) (i : Nat) (bs : List Byte) (k : Nat) :
    assocCtr (fbWrite m i bs) k = assocCtr m k := by
  refine Vector.ext fun j hj => ?_
  simp only [assocCtr, Vector.getElem_ofFn, read_fbWrite, assocBase]; rw [if_neg (by omega)]

@[simp] theorem assocCtr_pbWrite (m : Memory) (i : Nat) (bs : List Byte) (k : Nat) :
    assocCtr (pbWrite m i bs) k = assocCtr m k := by
  refine Vector.ext fun j hj => ?_
  simp only [assocCtr, Vector.getElem_ofFn, read_pbWrite, assocBase]; rw [if_neg (by omega)]

@[simp] theorem assocValid_setAssocCtr (m : Memory) (k : Nat) (c : Bytes 6) (k' : Nat) :
    assocValid (setAssocCtr m k c) k' = assocValid m k' := by
  rw [assocValid, assocValid, read_setAssocCtr, if_neg (by simp only [assocBase]; omega)]

@[simp] theorem assocId_setAssocCtr (m : Memory) (k : Nat) (c : Bytes 6) (k' : Nat) :
    assocId (setAssocCtr m k c) k' = assocId m k' := by
  refine Vector.ext fun j hj => ?_
  simp only [assocId, Vector.getElem_ofFn]
  rw [read_setAssocCtr, if_neg (by simp only [assocBase]; omega)]

/-- The commit writes the counter of its entry and of no other. -/
theorem assocCtr_setAssocCtr (m : Memory) (k : Nat) (c : Bytes 6) (k' : Nat) :
    assocCtr (setAssocCtr m k c) k' = if k' = k then c else assocCtr m k' := by
  refine Vector.ext fun j hj => ?_
  by_cases h : k' = k
  · subst h
    simp only [assocCtr, Vector.getElem_ofFn, read_setAssocCtr, if_true]
    rw [if_pos (by omega), show assocBase k' + 9 + j - (assocBase k' + 9) = j by omega]
    simp [hj]
  · simp only [assocCtr, Vector.getElem_ofFn, h, if_false]
    rw [read_setAssocCtr, if_neg (by simp only [assocBase]; omega)]

/-! ## The canonical form -/

theorem wf_fbWrite (m : Memory) (i : Nat) (bs : List Byte) (h : Memory.wf m = true) :
    Memory.wf (fbWrite m i bs) = true := Memory.wf_writeBytes _ _ _ h

theorem wf_pbWrite (m : Memory) (i : Nat) (bs : List Byte) (h : Memory.wf m = true) :
    Memory.wf (pbWrite m i bs) = true := Memory.wf_writeBytes _ _ _ h

theorem wf_setAssocCtr (m : Memory) (k : Nat) (c : Bytes 6) (h : Memory.wf m = true) :
    Memory.wf (setAssocCtr m k c) = true := Memory.wf_writeBytes _ _ _ h

theorem wf_keepTable (m : Memory) (h : Memory.wf m = true) : Memory.wf (keepTable m) = true := Memory.wf_filter _ _ h

theorem mem_fbWrite (m : Memory) (i : Nat) (bs : List Byte) (c : Host.Cell) (h : c ∈ fbWrite m i bs) :
    (0x80 ≤ c.1 ∧ c.1 < 0xC0) ∨ c ∈ m := by
  rcases Memory.mem_writeBytes _ _ _ _ h with h | h
  · simp only [List.length_take, fbBase, fbSize] at h; exact Or.inl (by omega)
  · exact Or.inr h

theorem mem_pbWrite (m : Memory) (i : Nat) (bs : List Byte) (c : Host.Cell) (h : c ∈ pbWrite m i bs) :
    (0xC0 ≤ c.1 ∧ c.1 < 0x100) ∨ c ∈ m := by
  rcases Memory.mem_writeBytes _ _ _ _ h with h | h
  · simp only [List.length_take, pbBase, pbSize] at h; exact Or.inl (by omega)
  · exact Or.inr h

theorem mem_setAssocCtr (m : Memory) (k : Nat) (v : Bytes 6) (c : Host.Cell) (h : c ∈ setAssocCtr m k v) :
    (assocBase k + 9 ≤ c.1 ∧ c.1 < assocBase k + 15) ∨ c ∈ m := by
  rcases Memory.mem_writeBytes _ _ _ _ h with h | h
  · simp only [Vector.length_toList] at h; exact Or.inl (by omega)
  · exact Or.inr h

end Sys2Proof.Machine
end

