-- ==== Sys2Proof/Laws/Outcome.lean ====
section
/-! SUPPORT. How commands end: the ordered lists of tests, the failure codes, and the two spellings of each list of tests (the
model's and the spec's, Sys2Proof/Safety.lean) as one. -/
namespace Sys2Proof.Machine

/-! ## Ordered tests -/

@[simp] theorem firstFailing_nil : firstFailing [] = none := rfl

@[simp] theorem firstFailing_cons (bad : Bool) (e : Err) (l : List (Bool × Err)) :
    firstFailing ((bad, e) :: l) = if bad then some e else firstFailing l := rfl

/-- No failure exactly when every test passes. -/
theorem firstFailing_eq_none (l : List (Bool × Err)) : firstFailing l = none ↔ ∀ c ∈ l, c.1 = false := by
  induction l with
  | nil => simp
  | cons c l ih => obtain ⟨b, e⟩ := c; cases b <;> simp [ih]

/-- A failure is one of the list's. -/
theorem firstFailing_mem (l : List (Bool × Err)) (e : Err) (h : firstFailing l = some e) : e ∈ l.map (·.2) := by
  induction l with
  | nil => simp at h
  | cons c l ih =>
    obtain ⟨b, f⟩ := c
    cases b with
    | true => simp_all
    | false => exact List.mem_cons_of_mem _ (ih (by simpa using h))

/-- The value of `ERR` for the result of a list of tests. -/
def errOf : Option Err → Byte
  | none => 0x00
  | some e => e.code

@[simp] theorem errOf_none : errOf none = 0x00 := rfl
@[simp] theorem errOf_some (e : Err) : errOf (some e) = e.code := rfl

theorem Err.code_ne_zero (e : Err) : e.code ≠ 0x00 := by cases e <;> decide

theorem errOf_eq_zero (o : Option Err) : errOf o = 0x00 ↔ o = none := by
  cases o with
  | none => simp
  | some e => simpa using e.code_ne_zero

theorem Err.code_mem_legalErrs (e : Err) : e.code ∈ legalErrs := by cases e <;> decide

/-! ## The end of a command -/

@[simp] theorem finish_done (s : State) (v : Nat) : finish (.done s v) = { s with result := BitVec.ofNat 8 v, err := 0x00 } := rfl

@[simp] theorem finish_failed (s : State) (e : Err) :
    finish (.failed s e) = { s with scratch := [], result := 0x00, err := e.code } := rfl

/-- Every command ends in a next state. -/
theorem command_eq (i : Instr) (s : State) (body : State → Ended) :
    command i s body = .next (finish (body { s with cmd := opcode i })) := rfl

/-- The state an operation has made, whichever way it ends. -/
def Ended.state : Ended → State
  | .done s _ => s
  | .failed s _ => s

@[simp] theorem Ended.state_done (s : State) (v : Nat) : (Ended.done s v).state = s := rfl
@[simp] theorem Ended.state_failed (s : State) (e : Err) : (Ended.failed s e).state = s := rfl

/-- The same end with another state. -/
def Ended.map (f : State → State) : Ended → Ended
  | .done s v => .done (f s) v
  | .failed s e => .failed (f s) e

@[simp] theorem Ended.map_done (f : State → State) (s : State) (v : Nat) : Ended.map f (.done s v) = .done (f s) v := rfl
@[simp] theorem Ended.map_failed (f : State → State) (s : State) (e : Err) : Ended.map f (.failed s e) = .failed (f s) e := rfl

@[simp] theorem Ended.revertHeader_done (old s : State) (v : Nat) :
    (Ended.done s v).revertHeader old = .done s v := rfl
@[simp] theorem Ended.revertHeader_failed (old s : State) (e : Err) :
    (Ended.failed s e).revertHeader old = .failed (s.revertHeader old) e := rfl

/-! ## Bits and numbers -/

theorem byte_low4 (b : Byte) : (b.extractLsb' 0 4).toNat = b.toNat % 16 := by
  simp [BitVec.extractLsb'_toNat]

theorem byte_high4 (b : Byte) : (b.extractLsb' 4 4).toNat = b.toNat / 16 := by
  rw [BitVec.extractLsb'_toNat, Nat.shiftRight_eq_div_pow]
  have := b.isLt
  omega

theorem byte_low7 (b : Byte) : (b.extractLsb' 0 7).toNat = b.toNat % 128 := by
  simp [BitVec.extractLsb'_toNat]

theorem isSecure_eq (b : Byte) : isSecure b = decide (128 ≤ b.toNat) := by
  have h : ∀ b : Byte, isSecure b = decide (128 ≤ b.toNat) := by decide +kernel
  exact h b

theorem ilOf_eq (b : Byte) : ilOf b = b.toNat % 16 := byte_low4 b

theorem seqOf_toNat (b : Byte) : (seqOf b).toNat = b.toNat / 16 := byte_high4 b

theorem seqIlByte_eq (q : BitVec 4) (il : Nat) (h : il ≤ 8) : seqIlByte q il = BitVec.ofNat 8 (16 * q.toNat + il) := by
  have key : ∀ q : BitVec 4, ∀ i : Fin 9, seqIlByte q i.val = BitVec.ofNat 8 (16 * q.toNat + i.val) := by decide +kernel
  exact key q ⟨il, by omega⟩

theorem nonceSeq_toNat (iv : Bytes 12) : (nonceSeq iv).toNat = (iv[11]).toNat % 16 := byte_low4 _

theorem ofNat_toNat8 (b : Byte) : BitVec.ofNat 8 b.toNat = b := by simp

/-! ## The tests of the header codec -/

/-- Two lists of tests agree when their tests agree one by one. -/
theorem ite_step {α : Type} {c d : Prop} [Decidable c] [Decidable d] {a x y : α} (h : c ↔ d) (k : ¬ c → ¬ d → x = y) :
    (if c then a else x) = if d then a else y := by
  by_cases hc : c
  · rw [if_pos hc, if_pos (h.mp hc)]
  · rw [if_neg hc, if_neg (mt h.mpr hc), k hc (mt h.mpr hc)]

/-- An ordered list of tests with a further result `x` behind them: `x` counts exactly when the tests before it all pass. -/
theorem verdict_step {c : Prop} [Decidable c] {a x p q : Byte} (ha : a ≠ 0x00) (h : p = if q = 0x00 then x else q) :
    (if c then a else p) = if (if c then a else q) = 0x00 then x else (if c then a else q) := by
  by_cases hc : c
  · simp only [hc, if_true, ha, if_false]
  · simp only [hc, if_false, h]

theorem errOf_hdrEncodeError (secure : Bool) (ftype : Byte) (il bl tl cap : Nat) :
    errOf (hdrEncodeError secure ftype il bl tl cap) = encodeVerdict secure ftype il bl tl cap := by
  unfold hdrEncodeError encodeVerdict
  simp only [firstFailing_cons, firstFailing_nil, apply_ite errOf, errOf_some, errOf_none, Err.code]
  refine ite_step (by simp [ftInvalidHigh, ftNone, BitVec.ule]) fun _ _ => ?_
  refine ite_step (by simp [maxIl]) fun h2 _ => ?_
  refine ite_step (by simp) fun _ _ => ?_
  simp only [maxIl, decide_eq_true_eq] at h2
  refine ite_step (by simp only [decide_eq_true_eq]; omega) fun _ _ => ?_
  cases secure
  · simp [tlNonSecure]
  · simp [maxFl]

/-- The tests of `HdrEncode` all pass exactly when the spec's conditions to pass all hold (R132). -/
theorem hdrEncodeError_eq_none (secure : Bool) (ftype : Byte) (il bl tl cap : Nat) :
    hdrEncodeError secure ftype il bl tl cap = none ↔ encodeVerdict secure ftype il bl tl cap = 0x00 := by
  rw [← errOf_hdrEncodeError, errOf_eq_zero]

theorem encodeVerdict_eq_zero (secure : Bool) (ftype : Byte) (il bl tl cap : Nat) :
    encodeVerdict secure ftype il bl tl cap = 0x00 ↔
      ftype ≠ 0x00 ∧ ftype.toNat < 0x7F ∧ il ≤ 8 ∧ 4 + il ≤ cap ∧ il + bl ≤ 59 ∧
        (if secure then 1 ≤ tl ∧ 3 + il + bl + tl ≤ 63 else tl = 1) := by
  unfold encodeVerdict
  by_cases h1 : ftype = 0x00 ∨ 0x7F ≤ ftype.toNat
  · rw [if_pos h1]
    exact ⟨fun h => absurd h (by decide), fun h => by rcases h1 with h1 | h1 <;> [exact absurd h1 h.1; omega]⟩
  rw [if_neg h1]
  rw [not_or] at h1
  by_cases h2 : 8 < il
  · rw [if_pos h2]; exact ⟨fun h => absurd h (by decide), fun h => by omega⟩
  rw [if_neg h2]
  by_cases h3 : cap < 4 + il
  · rw [if_pos h3]; exact ⟨fun h => absurd h (by decide), fun h => by omega⟩
  rw [if_neg h3]
  by_cases h4 : 59 < il + bl
  · rw [if_pos h4]; exact ⟨fun h => absurd h (by decide), fun h => by omega⟩
  rw [if_neg h4]
  cases secure
  · by_cases h5 : tl = 1
    · simp [h5]; exact ⟨h1.1, by omega, by omega, by omega, by omega⟩
    · simp [h5]
  · by_cases h5 : tl < 1 ∨ 63 < 3 + il + bl + tl
    · simp only [h5, and_self, if_true]
      exact ⟨fun h => absurd h (by decide), fun h => by omega⟩
    · simp only [h5, and_false, if_false, Bool.true_eq_false, false_and, if_true, true_iff]
      exact ⟨h1.1, by omega, by omega, by omega, by omega, by omega⟩

theorem errOf_hdrDecodeError (m : Memory) (n : Nat) : errOf (hdrDecodeError m n) = decodeVerdict (fbByte m) n := by
  unfold hdrDecodeError decodeVerdict
  have h0 : ∀ b : Byte, ((b.extractLsb' 0 7 == 0x00#7 || b.extractLsb' 0 7 == 0x7F#7) = true) ↔
      (b.toNat % 128 = 0 ∨ 0x7F ≤ b.toNat % 128) := by decide +kernel
  simp only [firstFailing_cons, firstFailing_nil, apply_ite errOf, errOf_some, errOf_none, Err.code, ilOf_eq]
  generalize (fbByte m 0).toNat = fl
  generalize (fbByte m 2).toNat % 16 = il
  generalize (fbByte m (3 + il)).toNat = bl
  generalize fbByte m fl = last
  refine ite_step (by simp [minDecBufLen]) fun _ _ => ?_
  refine ite_step (by simp [minFl]) fun _ _ => ?_
  refine ite_step (by simp [maxFl]) fun _ _ => ?_
  refine ite_step (h0 _) fun _ _ => ?_
  refine ite_step (by simp [maxIl]) fun _ _ => ?_
  refine ite_step (by simp only [decide_eq_true_eq]; omega) fun _ _ => ?_
  refine ite_step (by simp) fun _ _ => ?_
  refine ite_step (by simp only [decide_eq_true_eq]; omega) fun _ _ => ?_
  refine ite_step (by simp) fun _ _ => ?_
  refine ite_step ?_ fun _ _ => rfl
  rw [isSecure_eq]
  by_cases h : 128 ≤ (fbByte m 1).toNat
  · simp only [h, decide_true, if_true, decide_eq_true_eq]; omega
  · simp only [h, decide_false, Bool.false_eq_true, if_false, decide_eq_true_eq, tlNonSecure]; omega

theorem hdrDecodeError_eq_none (m : Memory) (n : Nat) :
    hdrDecodeError m n = none ↔ decodeVerdict (fbByte m) n = 0x00 := by
  rw [← errOf_hdrDecodeError, errOf_eq_zero]

end Sys2Proof.Machine
end

