-- ==== Sys2Proof/Laws/AddressMap.lean ====
section
/-! SUPPORT. The address map, said once (spec/20_memory.md R70): what an address names, below the table and in it. -/
namespace Sys2Proof.Machine

/-- Below the table, the map does not depend on its size. -/
theorem locOf_low (n : Nat) (a : BusAddr) (h : a.toNat < 0x100) : locOf n a = locOf 0 a := by
  simp only [locOf]
  rw [if_neg (by simp only [assocBase]; omega), if_neg (by simp only [assocBase]; omega)]

/-- Above the table there is nothing. -/
theorem locOf_high (n : Nat) (a : BusAddr) (h : 0x100 + 16 * n ≤ a.toNat) : locOf n a = .reserved := by
  simp only [locOf]
  rw [if_pos (by simp only [assocBase]; omega), if_neg (by simp only [assocBase]; omega)]

/-- Byte `j` of entry `k`. -/
theorem locOf_table (n k j : Nat) (a : BusAddr) (hk : k < n) (hj : j < 16) (h : a.toNat = 0x100 + 16 * k + j) :
    locOf n a = tableLoc k j := by
  simp only [locOf]
  rw [if_pos (by simp only [assocBase]; omega), if_pos (by simp only [assocBase]; omega), h, assocBase,
    show (0x100 + 16 * k + j - (0x100 + 16 * 0)) / 16 = k by omega,
    show (0x100 + 16 * k + j - (0x100 + 16 * 0)) % 16 = j by omega]

/-- Every address below the table: reserved, or the address of the register or buffer byte it names. -/
theorem locOf_low_addr : ∀ x : Fin 256, locOf 0 (BitVec.ofNat 12 x.val) = .reserved ∨
    ((locOf 0 (BitVec.ofNat 12 x.val)).wf 0 = true ∧ (locOf 0 (BitVec.ofNat 12 x.val)).addr = BitVec.ofNat 12 x.val) := by
  decide +kernel

/-- Existence below the table does not depend on the table's size. -/
theorem Loc.wf_zero (n : Nat) (l : Loc) (h : l.wf 0 = true) : l.wf n = true := by
  cases l <;> first | exact h | (simp only [Loc.wf, decide_eq_true_eq] at h ⊢; omega)

/-- What an address names: nothing, or an existing location that stands there. -/
theorem locOf_cases (n : Nat) (a : BusAddr) :
    locOf n a = .reserved ∨ ((locOf n a).wf n = true ∧ (locOf n a).addr = a) := by
  by_cases h : a.toNat < 0x100
  · rw [locOf_low n a h]
    have := locOf_low_addr ⟨a.toNat, h⟩
    simp only [BitVec.ofNat_toNat, BitVec.setWidth_eq] at this
    exact this.imp id fun g => ⟨Loc.wf_zero n _ g.1, g.2⟩
  by_cases h2 : 0x100 + 16 * n ≤ a.toNat
  · exact Or.inl (locOf_high n a h2)
  have hlt := a.isLt
  have hk : (a.toNat - 0x100) / 16 < n := by omega
  have hx : a.toNat = 0x100 + 16 * ((a.toNat - 0x100) / 16) + (a.toNat - 0x100) % 16 := by omega
  rw [locOf_table n _ _ a hk (Nat.mod_lt _ (by decide)) hx]
  generalize (a.toNat - 0x100) / 16 = k at *
  have hj : (a.toNat - 0x100) % 16 < 16 := Nat.mod_lt _ (by decide)
  generalize (a.toNat - 0x100) % 16 = j at *
  have ha : ∀ m, m = a.toNat → BitVec.ofNat 12 m = a := fun m hm => by rw [hm]; simp
  by_cases j0 : j = 0
  · right
    rw [tableLoc, if_pos j0]
    exact ⟨by simpa [Loc.wf] using hk, ha _ (by simp only [assocBase]; omega)⟩
  by_cases j8 : j ≤ 8
  · right
    rw [tableLoc, if_neg j0, if_pos j8]
    exact ⟨by simp only [Loc.wf, decide_eq_true_eq]; omega, ha _ (by simp only [assocBase]; omega)⟩
  by_cases j14 : j ≤ 14
  · right
    rw [tableLoc, if_neg j0, if_neg j8, if_pos j14]
    exact ⟨by simp only [Loc.wf, decide_eq_true_eq]; omega, ha _ (by simp only [assocBase]; omega)⟩
  · left; rw [tableLoc, if_neg j0, if_neg j8, if_neg j14]

/-- `CMD` is at address 0x000 and nowhere else. -/
theorem locOf_cmd (n : Nat) : locOf n 0x000 = .cmd := by rw [locOf_low n _ (by decide)]; decide

theorem locOf_eq_cmd (n : Nat) (a : BusAddr) (h : locOf n a = .cmd) : a = 0x000 := by
  rcases locOf_cases n a with g | g
  · rw [h] at g; exact Loc.noConfusion g
  · rw [h] at g; exact g.2.symm

/-- `ERR` is at address 0x003. -/
theorem locOf_err (n : Nat) : locOf n Loc.err.addr = .err := by rw [locOf_low n _ (by decide)]; decide

/-- A bus write to any address but `CMD`. -/
theorem busWrite_eq (s : State) (a : BusAddr) (v : Byte) (h : locOf s.params.assocN a ≠ .cmd) :
    busWrite s a v = .next (writeLoc s v (locOf s.params.assocN a)) := by
  unfold busWrite
  split
  · exact absurd (by assumption) h
  · rfl

/-- A bus write to `CMD`. -/
theorem busWrite_cmd (s : State) (v : Byte) : busWrite s 0x000 v = issueCommand v s := by
  rw [busWrite, locOf_cmd]

/-- What a write to `CMD` does: the command of the code, or `E_BAD_CMD` (R110, R112). -/
theorem issueCommand_cases (v : Byte) (s : State) :
    (∃ i, issueCommand v s = exec i s) ∨ issueCommand v s = .next { s with cmd := v, result := 0x00, err := 0x7F } := by
  unfold issueCommand
  split
  · exact Or.inl ⟨_, rfl⟩
  · exact Or.inr rfl

end Sys2Proof.Machine
end

