-- ==== Sys2Proof/Laws/Aead.lean ====
section
/-! SUPPORT. Lengths in the AEAD engine (spec/45_aead_interface.md R240 (d), R243 to R246). -/
namespace Sys2Proof.Machine

@[simp] theorem xorBytes_length (a b : List Byte) : (xorBytes a b).length = min a.length b.length := by simp [xorBytes]

/-- Exclusive or with the same bytes twice gives the text back, when there are enough of them. -/
theorem xorBytes_twice (a k : List Byte) (h : a.length ≤ k.length) : xorBytes (xorBytes a k) k = a := by
  refine List.ext_getElem (by simp; omega) fun i h1 h2 => ?_
  simp [xorBytes]

/-- Every word of the expanded key has four bytes, and there are as many as asked for. -/
theorem expandKey_words (n : Nat) : ∀ (i : Nat) (rc : Byte) (ws : List KeyWord), (∀ w ∈ ws, w.length = 4) → 4 ≤ ws.length →
    (expandKey n i rc ws).length = n + ws.length ∧ ∀ w ∈ expandKey n i rc ws, w.length = 4 := by
  induction n with
  | zero => intro i rc ws h _; simp only [expandKey]; exact ⟨by simp, by simpa using h⟩
  | succ n ih =>
    intro i rc ws h hl
    have h0 : (ws.getD 0 []).length = 4 := by
      rw [List.getD_eq_getElem _ _ (by omega)]; exact h _ (List.getElem_mem _)
    have h3 : (ws.getD 3 []).length = 4 := by
      rw [List.getD_eq_getElem _ _ (by omega)]; exact h _ (List.getElem_mem _)
    simp only [expandKey]
    split
    · have hw : (xorBytes (ws.getD 3 []) (scheduleCore (ws.getD 0 []) rc)).length = 4 := by
        simp only [xorBytes_length, scheduleCore, List.length_map, List.length_append, List.length_drop, List.length_take, h0, h3,
          List.length_cons, List.length_nil]
        rfl
      have := ih (i + 1) (xtime rc) (xorBytes (ws.getD 3 []) (scheduleCore (ws.getD 0 []) rc) :: ws)
        (by intro w hm; rcases List.mem_cons.mp hm with rfl | hm <;> [exact hw; exact h w hm]) (by simp; omega)
      exact ⟨by rw [this.1, List.length_cons]; omega, this.2⟩
    · have hw : (xorBytes (ws.getD 3 []) (ws.getD 0 [])).length = 4 := by rw [xorBytes_length, h0, h3]; rfl
      have := ih (i + 1) rc (xorBytes (ws.getD 3 []) (ws.getD 0 []) :: ws)
        (by intro w hm; rcases List.mem_cons.mp hm with rfl | hm <;> [exact hw; exact h w hm]) (by simp; omega)
      exact ⟨by rw [this.1, List.length_cons]; omega, this.2⟩

theorem keySchedule_words (key : List Byte) (h : key.length = 16) :
    (keySchedule key).length = 44 ∧ ∀ w ∈ keySchedule key, w.length = 4 := by
  refine expandKey_words 40 4 0x01 _ ?_ (by simp)
  intro w hw
  simp only [List.mem_cons, List.not_mem_nil, or_false] at hw
  rcases hw with rfl | rfl | rfl | rfl <;> simp [h]

theorem roundKey_length (key : List Byte) (h : key.length = 16) (r : Nat) (hr : r ≤ 10) :
    (roundKey (keySchedule key) r).length = 16 := by
  obtain ⟨hl, hw⟩ := keySchedule_words key h
  have key4 : ∀ (ws : List KeyWord), ws.length = 4 → (∀ w ∈ ws, w.length = 4) → ws.flatten.length = 16 := by
    intro ws h4 hw
    match ws, h4 with
    | [a, b, c, d], _ =>
      have := hw a (by simp); have := hw b (by simp); have := hw c (by simp); have := hw d (by simp)
      simp only [List.flatten_cons, List.flatten_nil, List.length_append, List.length_nil, *]
  refine key4 _ (by rw [List.length_take, List.length_drop, hl]; omega) fun w hm => ?_
  exact hw w (List.mem_of_mem_drop (List.mem_of_mem_take hm))

theorem shiftRows_length (st : List Byte) : (shiftRows st).length = 16 := by simp [shiftRows]

theorem mixColumns_length (st : List Byte) (h : st.length = 16) : (mixColumns st).length = 16 := by
  match st, h with
  | [a, b, c, d, e, f, g, h, i, j, k, l, m, n, o, p], _ => rfl

theorem aesRound_length (key : List Byte) (h : key.length = 16) (st : List Byte) (r : Nat) (hr : r ≤ 10) :
    (aesRound (keySchedule key) st r).length = 16 := by
  simp only [aesRound, xorBytes_length, roundKey_length key h r hr]
  split
  · rw [mixColumns_length _ (shiftRows_length _)]; rfl
  · rw [shiftRows_length]; rfl

theorem aes_length (key blk : List Byte) (h : key.length = 16) : (aes key blk).length = 16 := by
  simp only [aes, List.foldl_cons, List.foldl_nil]
  exact aesRound_length key h _ 10 (by omega)

theorem gcmKeyStream_length (key iv : List Byte) (h : key.length = 16) (n : Nat) :
    n ≤ (gcmKeyStream key iv n).length := by
  have : (gcmKeyStream key iv n).length = 16 * ((n + 15) / 16) := by
    simp only [gcmKeyStream, List.length_flatMap]
    rw [List.map_congr_left (g := fun _ => 16) fun b _ => aes_length key _ h]
    simp; omega
  omega

@[simp] theorem gcmText_length (key iv text : List Byte) (h : key.length = 16) : (gcmText key iv text).length = text.length := by
  have := gcmKeyStream_length key iv h text.length
  simp only [gcmText, xorBytes_length]; omega

theorem gcmText_twice (key iv text : List Byte) (h : key.length = 16) : gcmText key iv (gcmText key iv text) = text := by
  have := gcmKeyStream_length key iv h text.length
  have hl := gcmText_length key iv text h
  rw [gcmText, hl]
  exact xorBytes_twice text _ this

theorem gcmTag_length (key iv aad ct : List Byte) (h : key.length = 16) : (gcmTag key iv aad ct).length = 16 := by
  simp only [gcmTag, xorBytes_length, aes_length key _ h, bytesOf, List.length_map, List.length_range]
  rfl

@[simp] theorem exactly_length (n : Nat) (bs : List Byte) : (exactly n bs).length = n := by simp [exactly]

/-- What every engine answers has the lengths of its signature (R240 (d)), for the key and IV lengths the block passes. -/
theorem aeadEnc_lengths {k : AeadKind} {key iv aad pt ct tag : List Byte} (hk : key.length = 16) (hi : iv.length = 12)
    (h : aeadEnc k key iv aad pt = some (ct, tag)) : ct.length = pt.length ∧ tag.length = 16 := by
  cases k with
  | aes128Gcm =>
    simp only [aeadEnc, gcmEnc, Option.some.injEq, Prod.mk.injEq] at h
    obtain ⟨rfl, rfl⟩ := h
    exact ⟨gcmText_length _ _ _ hk, gcmTag_length _ _ _ _ hk⟩
  | nullDouble =>
    simp only [aeadEnc, nullEnc, Option.some.injEq, Prod.mk.injEq] at h
    obtain ⟨rfl, rfl⟩ := h
    exact ⟨rfl, by simp [nullTag, hi]⟩
  | other i =>
    simp only [aeadEnc] at h
    split at h
    · simp only [Option.some.injEq, Prod.mk.injEq] at h
      obtain ⟨rfl, rfl⟩ := h
      exact ⟨exactly_length _ _, exactly_length _ _⟩
    · cases h

theorem aeadDec_length {k : AeadKind} {key iv aad ct tag pt : List Byte} (hk : key.length = 16)
    (h : aeadDec k key iv aad ct tag = some pt) : pt.length = ct.length := by
  cases k with
  | aes128Gcm =>
    simp only [aeadDec, gcmDec] at h
    split at h
    · cases h; exact gcmText_length _ _ _ hk
    · cases h
  | nullDouble =>
    simp only [aeadDec, nullDec] at h
    split at h
    · cases h; rfl
    · cases h
  | other i =>
    simp only [aeadDec] at h
    split at h
    · cases h; exact exactly_length _ _
    · cases h

end Sys2Proof.Machine
end

