-- ==== Sys2Proof/Laws/Header.lean ====
section
/-! SUPPORT. The header codec and the window writes, each said once: what `HdrEncode` and `HdrDecode` can do, and what a
write to a window stores. -/
namespace Sys2Proof.Machine

/-! ## `Stored` -/

theorem stored_fbWrite (m : Memory) (i : Nat) (bs : List Byte) (h : i + bs.length ≤ 64) :
    Stored m (0x080 + i) bs (fbWrite m i bs) := by
  intro a
  rw [read_fbWrite]
  by_cases ha : 0x080 + i ≤ a ∧ a < 0x080 + i + bs.length
  · rw [if_pos ha, if_pos (by omega)]
  · rw [if_neg ha, if_neg (by omega)]

theorem stored_pbWrite (m : Memory) (i : Nat) (bs : List Byte) (h : i + bs.length ≤ 64) :
    Stored m (0x0C0 + i) bs (pbWrite m i bs) := by
  intro a
  rw [read_pbWrite]
  by_cases ha : 0x0C0 + i ≤ a ∧ a < 0x0C0 + i + bs.length
  · rw [if_pos ha, if_pos (by omega)]
  · rw [if_neg ha, if_neg (by omega)]

theorem stored_setAssocCtr (m : Memory) (k : Nat) (c : Bytes 6) :
    Stored m (0x100 + 16 * k + 9) c.toList (setAssocCtr m k c) := by
  intro a
  rw [read_setAssocCtr, Vector.length_toList, assocBase]

theorem stored_nil (m : Memory) (b : Nat) : Stored m b [] m := by
  intro a
  rw [if_neg]
  simp only [List.length_nil]; omega

/-- Two results of the same store read alike. -/
theorem Stored.unique {m b bs m₁ m₂} (h₁ : Stored m b bs m₁) (h₂ : Stored m b bs m₂) (a : Nat) :
    Memory.read m₁ a = Memory.read m₂ a := by rw [h₁ a, h₂ a]

/-- A byte of a frame stored from `FB[0]` on. -/
theorem Stored.fbByte {m m' : Memory} {bs : List Byte} (h : Stored m 0x080 bs m') (j : Nat) (hj : j < bs.length)
    (hb : bs.length ≤ 64) : fbByte m' j = bs.getD j 0x00 := by
  rw [Machine.fbByte, if_pos (by simp only [fbSize]; omega), h, if_pos (by simp only [fbBase]; omega)]
  simp only [fbBase, Nat.add_sub_cancel_left]

/-- The first bytes of a frame stored from `FB[0]` on. -/
theorem Stored.fbBytes {m m' : Memory} {bs : List Byte} (h : Stored m 0x080 bs m') (n : Nat) (hn : n ≤ bs.length)
    (hb : bs.length ≤ 64) : fbBytes m' 0 n = bs.take n := by
  refine List.ext_getElem (by simp; omega) fun j h1 h2 => ?_
  rw [fbBytes_length] at h1
  rw [fbBytes_getElem, Nat.zero_add, h.fbByte j (by omega) hb, List.getElem_take, List.getD_eq_getElem _ _ (by omega)]

/-- A span of a frame stored from `FB[0]` on. -/
theorem Stored.fbSpan {m m' : Memory} {bs : List Byte} (h : Stored m 0x080 bs m') (i n : Nat) (hn : i + n ≤ bs.length)
    (hb : bs.length ≤ 64) : Machine.fbBytes m' i n = (bs.drop i).take n := by
  refine List.ext_getElem (by simp; omega) fun j h1 h2 => ?_
  rw [fbBytes_length] at h1
  rw [fbBytes_getElem, h.fbByte (i + j) (by omega) hb, List.getElem_take, List.getElem_drop, List.getD_eq_getElem _ _ (by omega)]

/-- Two writes to the frame buffer, one after the other, are one. -/
theorem fbWrite_append (m : Memory) (i : Nat) (xs ys : List Byte) (h : i + xs.length + ys.length ≤ 64) :
    fbWrite (fbWrite m i xs) (i + xs.length) ys = fbWrite m i (xs ++ ys) := by
  simp only [fbWrite, fbSize, fbBase]
  rw [List.take_of_length_le (by omega), List.take_of_length_le (by omega),
    List.take_of_length_le (by rw [List.length_append]; omega), Memory.writeBytes_append, Nat.add_assoc]

/-! ## `HdrEncode` (R132 to R134) -/

theorem headerBytes_length (fl : Nat) (type : Byte) (seq il bl : Nat) (id : Bytes 8) (h : il ≤ 8) :
    (headerBytes fl type seq il bl id).length = 4 + il := by
  simp [headerBytes]; omega

/-- The bytes of a header, one by one (R100). -/
theorem headerBytes_getD (fl : Nat) (type : Byte) (seq il bl : Nat) (id : Bytes 8) (rest : List Byte) (h : il ≤ 8) :
    (headerBytes fl type seq il bl id ++ rest).getD 0 0x00 = BitVec.ofNat 8 fl ∧
    (headerBytes fl type seq il bl id ++ rest).getD 1 0x00 = type ∧
    (headerBytes fl type seq il bl id ++ rest).getD 2 0x00 = BitVec.ofNat 8 (16 * seq + il) ∧
    (headerBytes fl type seq il bl id ++ rest).getD (3 + il) 0x00 = BitVec.ofNat 8 bl ∧
    (∀ (j : Nat) (hj : j < il), (headerBytes fl type seq il bl id ++ rest).getD (3 + j) 0x00 = id[j]) := by
  refine ⟨rfl, rfl, rfl, ?_, fun j hj => ?_⟩
  · simp only [headerBytes]
    rw [List.getD_append _ _ _ _ (by simp; omega), List.getD_append_right _ _ _ _ (by simp; omega)]
    simp [h, show 3 + il - (il + 1 + 1 + 1) = 0 by omega]
  · simp only [headerBytes]
    rw [List.getD_append _ _ _ _ (by simp; omega), List.getD_append _ _ _ _ (by simp; omega),
      List.getD_append_right [BitVec.ofNat 8 fl, type, BitVec.ofNat 8 (16 * seq + il)] _ _ _ (by simp)]
    rw [List.getD_eq_getElem _ _ (by simp; omega)]
    simp

/-- `HdrEncode` when its tests pass. -/
theorem hdrEncode_done (s : State) (secure : Bool) (ftype : Byte) (seq : BitVec 4) (id : Bytes 8) (il bl tl : Nat)
    (h : encodeVerdict secure ftype il bl tl s.fbLen.toNat = 0x00) :
    hdrEncode s secure ftype seq id il bl tl =
      .done { s with
        mem := fbWrite s.mem 0
          (headerBytes (3 + il + bl + tl) (ftype ||| if secure then 0x80 else 0x00) seq.toNat il bl id),
        hType := ftype ||| (if secure then 0x80 else 0x00), hSeqIl := BitVec.ofNat 8 (16 * seq.toNat + il),
        hBl := BitVec.ofNat 8 bl, hId := Vector.ofFn fun j => if j.val < il then id[j] else 0x00,
        hFl := BitVec.ofNat 8 (3 + il + bl + tl) } (4 + il) := by
  have hil := ((encodeVerdict_eq_zero _ _ _ _ _ _).mp h).2.2.1
  rw [← hdrEncodeError_eq_none] at h
  simp only [hdrEncode, h, seqIlByte_eq seq il hil, typeByte, State.commitHeader, idPrefix, headerBytes]

/-- `HdrEncode` when a test fails. -/
theorem hdrEncode_failed (s : State) (secure : Bool) (ftype : Byte) (seq : BitVec 4) (id : Bytes 8) (il bl tl : Nat)
    (h : encodeVerdict secure ftype il bl tl s.fbLen.toNat ≠ 0x00) :
    ∃ e, e.code = encodeVerdict secure ftype il bl tl s.fbLen.toNat ∧
      hdrEncode s secure ftype seq id il bl tl = .failed s.invalidateHeader e := by
  rw [← errOf_hdrEncodeError] at h ⊢
  cases he : hdrEncodeError secure ftype il bl tl s.fbLen.toNat with
  | none => simp [he] at h
  | some e => exact ⟨e, rfl, by simp only [hdrEncode, he]⟩

/-! ## `HdrDecode` (R137 to R139) -/

/-- `HdrDecode` when its tests pass. -/
theorem hdrDecode_done (s : State) (h : decodeVerdict (fbByte s.mem) s.fbLen.toNat = 0x00) :
    hdrDecode s =
      .done { s with
        hType := fbByte s.mem 1, hSeqIl := fbByte s.mem 2, hBl := fbByte s.mem (3 + (fbByte s.mem 2).toNat % 16),
        hId := Vector.ofFn fun j => if j.val < (fbByte s.mem 2).toNat % 16 then fbByte s.mem (3 + j.val) else 0x00,
        hFl := fbByte s.mem 0 } (4 + (fbByte s.mem 2).toNat % 16) := by
  rw [← hdrDecodeError_eq_none] at h
  have hid : ∀ il, frameId s.mem il = Vector.ofFn fun j : Fin 8 => if j.val < il then fbByte s.mem (3 + j.val) else 0x00 := by
    intro il; simp [frameId, idPrefix]
  simp only [hdrDecode, h, ilOf_eq, hid, State.commitHeader, State.invalidateHeader]

/-- `HdrDecode` when a test fails. -/
theorem hdrDecode_failed (s : State) (h : decodeVerdict (fbByte s.mem) s.fbLen.toNat ≠ 0x00) :
    ∃ e, e.code = decodeVerdict (fbByte s.mem) s.fbLen.toNat ∧ hdrDecode s = .failed s.invalidateHeader e := by
  rw [← errOf_hdrDecodeError] at h ⊢
  cases he : hdrDecodeError s.mem s.fbLen.toNat with
  | none => simp [he] at h
  | some e => exact ⟨e, rfl, by simp only [hdrDecode, he]⟩

/-- What `HdrDecode`'s tests establish (R137). -/
theorem decodeVerdict_facts (fb : Nat → Byte) (n : Nat) (h : decodeVerdict fb n = 0x00) :
    4 ≤ (fb 0).toNat ∧ (fb 0).toNat ≤ 63 ∧ 1 ≤ (fb 1).toNat % 128 ∧ (fb 1).toNat % 128 ≤ 0x7E ∧ (fb 2).toNat % 16 ≤ 8 ∧
      4 + (fb 2).toNat % 16 ≤ n ∧ 4 + (fb 2).toNat % 16 + (fb (3 + (fb 2).toNat % 16)).toNat ≤ (fb 0).toNat ∧
      ((fb 1).toNat < 128 → (fb 0).toNat = 4 + (fb 2).toNat % 16 + (fb (3 + (fb 2).toNat % 16)).toNat) := by
  unfold decodeVerdict at h
  simp only at h
  repeat'
    split at h
    · exact absurd h (by decide)
  refine ⟨?_, ?_, ?_, ?_, ?_, ?_, ?_, ?_⟩ <;> omega

end Sys2Proof.Machine
end

