-- ==== Sys2Proof/Laws/Replay.lean ====
section
/-! SUPPORT. The association table's lookup, said once in the spec's terms (spec/44_replay_guard.md R208). -/
namespace Sys2Proof.Machine

theorem assocId_getElem (m : Memory) (k j : Nat) (h : j < 8) :
    (assocId m k)[j] = Memory.read m (0x100 + 16 * k + 1 + j) := by simp [assocId, assocBase]

theorem assocCtr_getElem (m : Memory) (k j : Nat) (h : j < 6) :
    (assocCtr m k)[j] = Memory.read m (0x100 + 16 * k + 9 + j) := by simp [assocCtr, assocBase]

/-- The test of one entry. -/
theorem entryMatches_iff (m : Memory) (p : Bytes 8) (len k : Nat) :
    entryMatches m p len k = true ↔ EntryMatches m p len k := by
  simp only [entryMatches, EntryMatches, Bool.and_eq_true, assocValid, assocBase, beq_iff_eq]
  refine and_congr_right fun _ => ⟨fun h j hj hl => ?_, fun h => ?_⟩
  · have := congrArg (fun l => l.getD j 0x00) h
    simp only [List.getD_eq_getElem?_getD, List.getElem?_take, hl, if_true] at this
    simpa [hj, assocId_getElem] using this
  · refine List.ext_getElem (by simp) fun j h1 h2 => ?_
    simp only [List.length_take, Vector.length_toList] at h1
    simp only [List.getElem_take, Vector.getElem_toList]
    rw [assocId_getElem]
    exact h j (by omega) (by omega)

theorem lookup_eq_some (m : Memory) (n : Nat) (p : Bytes 8) (len k : Nat) :
    lookup m n p len = some k ↔ FirstMatch m n p len k := by
  simp only [lookup, FirstMatch, List.find?_range_eq_some, entryMatches_iff, List.mem_range]
  constructor
  · rintro ⟨h1, h2, h3⟩
    exact ⟨h2, h1, fun j hj => by have := h3 j hj; rwa [Bool.not_eq_true', ← Bool.not_eq_true, entryMatches_iff] at this⟩
  · rintro ⟨h1, h2, h3⟩
    exact ⟨h2, h1, fun j hj => by rw [Bool.not_eq_true', ← Bool.not_eq_true, entryMatches_iff]; exact h3 j hj⟩

theorem lookup_eq_none (m : Memory) (n : Nat) (p : Bytes 8) (len : Nat) :
    lookup m n p len = none ↔ NoMatch m n p len := by
  simp only [lookup, NoMatch, List.find?_eq_none, List.mem_range, entryMatches_iff]

/-- An entry that the lookup gives is an entry of the table. -/
theorem lookup_lt {m : Memory} {n : Nat} {p : Bytes 8} {len k : Nat} (h : lookup m n p len = some k) : k < n :=
  ((lookup_eq_some _ _ _ _ _).mp h).1

/-- The lookup depends on `VALID` and `ID` of the table's entries only. -/
theorem lookup_congr (m m' : Memory) (n : Nat) (p : Bytes 8) (len : Nat)
    (h : ∀ k, assocValid m' k = assocValid m k ∧ assocId m' k = assocId m k) : lookup m' n p len = lookup m n p len := by
  have : ∀ k, entryMatches m' p len k = entryMatches m p len k := fun k => by simp only [entryMatches, (h k).1, (h k).2]
  simp only [lookup, this]

/-- The lookup compares the first `len` bytes of the prefix only. -/
theorem lookup_prefix (m : Memory) (n : Nat) (p q : Bytes 8) (len : Nat) (h : ∀ (j : Nat) (hj : j < 8), j < len → p[j] = q[j]) :
    lookup m n p len = lookup m n q len := by
  have : ∀ k, entryMatches m p len k = entryMatches m q len k := by
    intro k
    rw [Bool.eq_iff_iff, entryMatches_iff, entryMatches_iff]
    exact and_congr_right fun _ => ⟨fun g j hj hl => (g j hj hl).trans (h j hj hl), fun g j hj hl => (g j hj hl).trans (h j hj hl).symm⟩
  simp only [lookup, this]

end Sys2Proof.Machine
end

