-- ==== Sys2Proof/Laws/Secure.lean ====
section
/-! SUPPORT. The secure codec's shared operations, each said once: padding, `RawEncode`, `RawDecode`
(spec/43_secure_codec.md R167, R173, R181). -/
namespace Sys2Proof.Machine

/-! ## Padding -/

theorem padding_length (n : Nat) (h : n ≤ 31) : (padding n).length = 32 - n := by
  simp only [padding, List.length_append, List.length_replicate, List.length_singleton]
  show 31 - n + 1 = _
  omega

theorem paddedBlock_eq (bs : List Byte) : paddedBlock bs = bs ++ padding bs.length := by
  simp [paddedBlock, padding]

theorem paddedBlock_length (bs : List Byte) (h : bs.length ≤ 31) : (paddedBlock bs).length = 32 := by
  rw [paddedBlock_eq, List.length_append, padding_length _ h]; omega

/-- Padding in place leaves the padded block at the start of the buffer, and nothing else changed. -/
theorem stored_padding (m : Memory) (n : Nat) (h : n ≤ 31) :
    Stored m 0x0C0 (paddedBlock (pbBytes m 0 n)) (pbWrite m n (padding n)) := by
  intro a
  have hl : (paddedBlock (pbBytes m 0 n)).length = 32 := paddedBlock_length _ (by rw [pbBytes_length]; exact h)
  rw [read_pbWrite, padding_length _ h, hl]
  by_cases h1 : 0x0C0 ≤ a ∧ a < 0x0C0 + 32
  · rw [if_pos h1, paddedBlock_eq, pbBytes_length]
    by_cases h2 : a < 0xC0 + n
    · rw [if_neg (by omega), List.getD_append _ _ _ _ (by rw [pbBytes_length]; omega),
        List.getD_eq_getElem _ _ (by rw [pbBytes_length]; omega), pbBytes_getElem]
      simp only [pbByte, pbSize, pbBase]
      rw [if_pos (by omega), show 0xC0 + (0 + (a - 192)) = a by omega]
    · rw [if_pos (by omega), List.getD_append_right _ _ _ _ (by rw [pbBytes_length]; omega), pbBytes_length,
        show a - (192 + n) = a - 192 - n by omega]
  · rw [if_neg (by omega), if_neg h1]

theorem pbBytes_padded (m : Memory) (n : Nat) (h : n ≤ 31) :
    pbBytes (pbWrite m n (padding n)) 0 32 = paddedBlock (pbBytes m 0 n) := by
  have hl : (paddedBlock (pbBytes m 0 n)).length = 32 := paddedBlock_length _ (by rw [pbBytes_length]; exact h)
  refine List.ext_getElem (by rw [pbBytes_length, hl]) fun j h1 h2 => ?_
  rw [pbBytes_length] at h1
  rw [pbBytes_getElem]
  simp only [pbByte, pbSize, pbBase]
  rw [if_pos (by omega), stored_padding m n h, hl, if_pos (by omega), show 192 + (0 + j) - 192 = j by omega,
    List.getD_eq_getElem _ _ (by rw [hl]; omega)]

/-- The count byte of a padded block gives the data length back (R117, R181). -/
theorem dataLen_paddedBlock (bs : List Byte) (h : bs.length ≤ 31) : dataLen (paddedBlock bs) = bs.length := by
  have : (paddedBlock bs).getD 31 0x00 = BitVec.ofNat 8 (31 - bs.length) := by
    simp only [paddedBlock]
    rw [List.getD_append_right _ _ _ _ (by simp; omega)]
    simp only [List.length_append, List.length_replicate]
    rw [show 31 - (bs.length + (31 - bs.length)) = 0 by omega]; rfl
  have h2 : (BitVec.ofNat 8 (31 - bs.length)).toNat = 31 - bs.length := by
    rw [BitVec.toNat_ofNat, Nat.mod_eq_of_lt]; omega
  simp only [dataLen, this, h2]
  rw [if_neg (by omega)]; omega

theorem unpaddedLen_eq (pt : List Byte) : unpaddedLen pt = dataLen pt := rfl

theorem dataLen_le (pt : List Byte) : dataLen pt ≤ 31 := by simp only [dataLen]; split <;> omega

/-! ## `RawEncode` -/

/-- The first tests of `RawEncode`, as the value of `ERR`. -/
theorem errOf_rawEncodeError (s : State) : errOf (rawEncodeError s) =
    if s.ctrl.getLsbD 0 = false then 0x43
    else if s.ctrl.getLsbD 1 = false then 0x44
    else if 32 < s.pbLen.toNat then 0x1E
    else if s.params.scratchBytes < s.params.needEncRaw then 0x40
    else 0x00 := by
  unfold rawEncodeError
  simp only [firstFailing_cons, firstFailing_nil, apply_ite errOf, errOf_some, errOf_none, Err.code]
  refine ite_step (by simp [State.keyOk]) fun _ _ => ?_
  refine ite_step (by simp [State.ivOk]) fun _ _ => ?_
  refine ite_step (by simp) fun _ _ => ?_
  exact ite_step (by simp) fun _ _ => rfl

theorem encryptedLen_eq (s : State) : s.encryptedLen = if s.pbLen.toNat = 0 then 0 else 32 := by
  have : s.pbLen = 0x00 ↔ s.pbLen.toNat = 0 := ⟨fun h => by rw [h]; rfl, fun h => BitVec.eq_of_toNat_eq h⟩
  simp only [State.encryptedLen, this, encBody]

/-- `RawEncode` failing one of its first tests: nothing is written. -/
theorem rawEncode_early (s : State) (id : Bytes 8) (h : errOf (rawEncodeError s) ≠ 0x00) :
    ∃ e, e.code = errOf (rawEncodeError s) ∧ rawEncode s id = .failed s e := by
  cases he : rawEncodeError s with
  | none => rw [he] at h; exact absurd rfl h
  | some e => exact ⟨e, rfl, by simp only [rawEncode, he]⟩

/-- `RawEncode` failing in its header encode: `H_FL` is cleared, nothing else is written. -/
theorem rawEncode_header (s : State) (id : Bytes 8) (h : errOf (rawEncodeError s) = 0x00)
    (hv : encodeVerdict true s.aFtype s.aIl.toNat s.encryptedLen 23 s.fbLen.toNat ≠ 0x00) :
    ∃ e, e.code = encodeVerdict true s.aFtype s.aIl.toNat s.encryptedLen 23 s.fbLen.toNat ∧
      rawEncode s id = .failed s.invalidateHeader e := by
  rw [errOf_eq_zero] at h
  obtain ⟨e, he, hf⟩ := hdrEncode_failed s true s.aFtype (nonceSeq s.iv) id s.aIl.toNat s.encryptedLen 23 hv
  exact ⟨e, he, by simp only [rawEncode, h, hf, tlSecure]⟩

/-- The header bytes that `RawEncode` writes. -/
def State.secureHeader (s : State) (id : Bytes 8) : List Byte :=
  headerBytes (26 + s.aIl.toNat + s.encryptedLen) (s.aFtype ||| 0x80) ((s.iv[11]).toNat % 16) s.aIl.toNat s.encryptedLen id

/-- The state of `RawEncode` once its header is encoded. -/
def State.withSecureHeader (s : State) (id : Bytes 8) : State :=
  { s with
    mem := fbWrite s.mem 0 (s.secureHeader id),
    hType := s.aFtype ||| 0x80, hSeqIl := BitVec.ofNat 8 (16 * ((s.iv[11]).toNat % 16) + s.aIl.toNat),
    hBl := BitVec.ofNat 8 s.encryptedLen, hId := Vector.ofFn fun j => if j.val < s.aIl.toNat then id[j] else 0x00,
    hFl := BitVec.ofNat 8 (26 + s.aIl.toNat + s.encryptedLen) }

/-- `RawEncode` with its header encoded. -/
theorem rawEncode_body (s : State) (id : Bytes 8) (h : errOf (rawEncodeError s) = 0x00)
    (hv : encodeVerdict true s.aFtype s.aIl.toNat s.encryptedLen 23 s.fbLen.toNat = 0x00) :
    rawEncode s id = (rawEncodeBody (s.withSecureHeader id) (4 + s.aIl.toNat) s.encryptedLen).revertHeader s := by
  rw [errOf_eq_zero] at h
  have e3 : 3 + s.aIl.toNat + s.encryptedLen + 23 = 26 + s.aIl.toNat + s.encryptedLen := by omega
  simp only [rawEncode, h, tlSecure]
  rw [hdrEncode_done s true s.aFtype (nonceSeq s.iv) id s.aIl.toNat s.encryptedLen 23 hv]
  simp only [e3, if_true, nonceSeq_toNat]
  rfl

theorem encryptedLen_le (s : State) : s.encryptedLen ≤ 32 := by rw [encryptedLen_eq]; split <;> omega

theorem secureHeader_length (s : State) (id : Bytes 8) (h : s.aIl.toNat ≤ 8) : (s.secureHeader id).length = 4 + s.aIl.toNat :=
  headerBytes_length _ _ _ _ _ _ h

/-- The plaintext block that `RawEncode` hands to the AEAD engine: empty, or the padded block (R173, R176). -/
def State.plainBlock (s : State) : List Byte := if s.pbLen.toNat = 0 then [] else paddedBlock (pbBytes s.mem 0 s.pbLen.toNat)

/-- Memory after padding in place, or as it was without a plaintext. -/
def State.paddedMem (s : State) (m : Memory) : Memory :=
  if s.pbLen.toNat = 0 then m else pbWrite m s.pbLen.toNat (padding s.pbLen.toNat)

theorem pbLen_zero (s : State) : s.pbLen = 0x00 ↔ s.pbLen.toNat = 0 :=
  ⟨fun h => by rw [h]; rfl, fun h => BitVec.eq_of_toNat_eq h⟩

theorem plainBlock_length (s : State) (h : s.pbLen.toNat ≤ 31) : s.plainBlock.length = s.encryptedLen := by
  rw [State.plainBlock, encryptedLen_eq]
  split
  · rfl
  · exact paddedBlock_length _ (by rw [pbBytes_length]; exact h)

theorem padBody_done (s : State) (h : s.pbLen.toNat ≤ 31) :
    ∃ v, padBody s = .done { s with mem := s.paddedMem s.mem } v := by
  by_cases h0 : s.pbLen.toNat = 0
  · refine ⟨0, ?_⟩
    rw [padBody, if_pos ((pbLen_zero s).mpr h0), State.paddedMem, if_pos h0]
  · refine ⟨32, ?_⟩
    simp only [padBody, mt (pbLen_zero s).mp h0, if_false, pad32, ptMax, encBody, State.paddedMem, h0]
    rw [if_neg (by omega)]

theorem padBody_failed (s : State) (h : 31 < s.pbLen.toNat) : padBody s = .failed s .ptLen := by
  have h0 : s.pbLen.toNat ≠ 0 := by omega
  simp only [padBody, mt (pbLen_zero s).mp h0, if_false, pad32, ptMax]
  rw [if_pos h]

/-- The state of `RawEncode` when it calls the AEAD engine. -/
def State.withPadding (s : State) : State := { s with mem := s.paddedMem s.mem }

theorem fbBytes_paddedMem (s : State) (m : Memory) (i n : Nat) : fbBytes (s.paddedMem m) i n = fbBytes m i n := by
  simp only [State.paddedMem]; split <;> simp

theorem hFl_withSecureHeader (s : State) (id : Bytes 8)
    (hv : encodeVerdict true s.aFtype s.aIl.toNat s.encryptedLen 23 s.fbLen.toNat = 0x00) :
    (s.withSecureHeader id).hFl.toNat = 26 + s.aIl.toNat + s.encryptedLen := by
  have f := (encodeVerdict_eq_zero _ _ _ _ _ _).mp hv
  simp only [if_true] at f
  simp only [State.withSecureHeader]
  rw [BitVec.toNat_ofNat, Nat.mod_eq_of_lt]; omega

/-- What `RawEncode` hands to the AEAD engine: the header as written, and the padded plaintext. -/
theorem sealFrame_arguments (s : State) (id : Bytes 8) (hil : s.aIl.toNat ≤ 8) (hn : s.pbLen.toNat ≤ 31) :
    fbBytes ((s.withSecureHeader id).withPadding).mem 0 (4 + s.aIl.toNat) = s.secureHeader id ∧
    pbBytes ((s.withSecureHeader id).withPadding).mem 0 s.encryptedLen = s.plainBlock := by
  have hl := secureHeader_length s id hil
  constructor
  · simp only [State.withPadding, fbBytes_paddedMem]
    simp only [State.withSecureHeader]
    rw [← hl]; exact fbBytes_fbWrite_same _ _ _ (by omega)
  · rw [State.plainBlock, encryptedLen_eq]
    change pbBytes (if s.pbLen.toNat = 0 then fbWrite s.mem 0 (s.secureHeader id)
      else pbWrite (fbWrite s.mem 0 (s.secureHeader id)) s.pbLen.toNat (padding s.pbLen.toNat)) 0 _ = _
    split
    · rfl
    · rw [pbBytes_padded _ _ hn, pbBytes_fbWrite]

/-- `RawEncode` when its tests pass and the AEAD engine answers (R173): the frame in `FB`, the padding in `PB`. -/
theorem rawEncode_done (s : State) (id : Bytes 8) (ct tag : List Byte) (h : errOf (rawEncodeError s) = 0x00)
    (hv : encodeVerdict true s.aFtype s.aIl.toNat s.encryptedLen 23 s.fbLen.toNat = 0x00) (hn : s.pbLen.toNat ≤ 31)
    (hfit : 27 + s.aIl.toNat + s.encryptedLen ≤ s.fbLen.toNat)
    (ha : aeadEnc s.params.aead s.key.toList s.iv.toList (s.secureHeader id) s.plainBlock = some (ct, tag)) :
    ∃ m', m' = fbWrite ((s.withSecureHeader id).withPadding).mem (4 + s.aIl.toNat) (ct ++ nonceCtr s.iv ++ tag ++ [0x80]) ∧
      rawEncode s id = .done { s.withSecureHeader id with mem := m', scratch := [] } (27 + s.aIl.toNat + s.encryptedLen) ∧
      Stored (s.paddedMem s.mem) 0x080 (s.secureHeader id ++ ct ++ nonceCtr s.iv ++ tag ++ [0x80]) m' ∧
      (s.secureHeader id ++ ct ++ nonceCtr s.iv ++ tag ++ [0x80]).length = 27 + s.aIl.toNat + s.encryptedLen := by
  have f := (encodeVerdict_eq_zero _ _ _ _ _ _).mp hv
  simp only [if_true] at f
  have hl := secureHeader_length s id f.2.2.1
  obtain ⟨lc, lt⟩ := aeadEnc_lengths (by simp) (by simp) ha
  rw [plainBlock_length s hn] at lc
  have ln : (nonceCtr s.iv).length = 6 := by simp [nonceCtr, nonceId]
  obtain ⟨a1, a2⟩ := sealFrame_arguments s id f.2.2.1 hn
  have hfl := hFl_withSecureHeader s id hv
  refine ⟨fbWrite ((s.withSecureHeader id).withPadding).mem (4 + s.aIl.toNat) (ct ++ nonceCtr s.iv ++ tag ++ [0x80]), rfl, ?_, ?_, ?_⟩
  · rw [rawEncode_body s id h hv, rawEncodeBody, hfl]
    have hb : (s.withSecureHeader id).fbLen = s.fbLen := rfl
    rw [hb, if_neg (by omega)]
    obtain ⟨v, hp⟩ := padBody_done (s.withSecureHeader id) hn
    rw [hp]
    change (sealFrame ((s.withSecureHeader id).withPadding) _ _).revertHeader s = _
    rw [sealFrame, a1, a2]
    change (match aeadEnc s.params.aead s.key.toList s.iv.toList (s.secureHeader id) s.plainBlock with
      | none => _
      | some (ct, tag) => _ : Ended).revertHeader s = _
    rw [ha]
    change Ended.done _ ((s.withSecureHeader id).hFl.toNat + 1) = _
    rw [hfl, show 26 + s.aIl.toNat + s.encryptedLen + 1 = 27 + s.aIl.toNat + s.encryptedLen by omega]
    rfl
  · intro a
    simp only [read_fbWrite, List.length_append, hl, lc, ln, lt, List.length_cons, List.length_nil, List.append_assoc]
    have hp : ∀ b, 0xC0 ≤ b ∨ 0x80 + (4 + s.aIl.toNat) ≤ b ∨ b < 0x80 →
        Memory.read ((s.withSecureHeader id).withPadding).mem b = Memory.read (s.paddedMem s.mem) b := by
      intro b hb
      have hw : Memory.read (s.withSecureHeader id).mem b = Memory.read s.mem b := by
        simp only [State.withSecureHeader, read_fbWrite, hl]
        rw [if_neg (by omega)]
      simp only [State.withPadding, State.paddedMem]
      change Memory.read (if s.pbLen.toNat = 0 then (s.withSecureHeader id).mem
        else pbWrite (s.withSecureHeader id).mem s.pbLen.toNat (padding s.pbLen.toNat)) b = _
      split
      · exact hw
      · rw [read_pbWrite, read_pbWrite, hw]
    by_cases h1 : 0x80 ≤ a ∧ a < 0x80 + (27 + s.aIl.toNat + s.encryptedLen)
    · rw [if_pos (show 128 ≤ a ∧ a < 128 + (4 + s.aIl.toNat + (s.encryptedLen + (6 + (16 + (0 + 1))))) by omega)]
      by_cases h2 : a < 0x80 + (4 + s.aIl.toNat)
      · rw [if_neg (by omega), List.getD_append _ _ _ _ (by omega)]
        have : Memory.read ((s.withSecureHeader id).withPadding).mem a = Memory.read (s.withSecureHeader id).mem a := by
          simp only [State.withPadding, State.paddedMem]
          split
          · rfl
          · rw [read_pbWrite, if_neg (by omega)]
        rw [this]
        simp only [State.withSecureHeader, read_fbWrite, hl]
        rw [if_pos (by omega)]
      · rw [if_pos (by omega), List.getD_append_right (s.secureHeader id) _ _ _ (by omega), hl,
          show a - (128 + (4 + s.aIl.toNat)) = a - 128 - (4 + s.aIl.toNat) by omega]
    · rw [if_neg (by omega), if_neg (show ¬ (128 ≤ a ∧ a < 128 + (4 + s.aIl.toNat + (s.encryptedLen + (6 + (16 + (0 + 1)))))) by omega)]
      exact hp a (by omega)
  · simp only [List.length_append, hl, lc, ln, lt, List.length_cons, List.length_nil]; omega

theorem stored_paddedMem (s : State) (h : s.pbLen.toNat ≤ 31) : Stored s.mem 0x0C0 s.plainBlock (s.paddedMem s.mem) := by
  simp only [State.plainBlock, State.paddedMem]
  split
  · exact stored_nil _ _
  · exact stored_padding _ _ h

/-- `RawEncode` failing after its header encode (R173, R174, R264): the header bytes stay in `FB`, `H_FL` is cleared, the other
header registers are as before; padding is in `PB` only when the AEAD engine refused. -/
theorem rawEncode_late (s : State) (id : Bytes 8) (h : errOf (rawEncodeError s) = 0x00)
    (hv : encodeVerdict true s.aFtype s.aIl.toNat s.encryptedLen 23 s.fbLen.toNat = 0x00) :
    (s.fbLen.toNat < 27 + s.aIl.toNat + s.encryptedLen →
      rawEncode s id = .failed { s with hFl := 0x00, mem := (s.withSecureHeader id).mem } .frameFit) ∧
    (27 + s.aIl.toNat + s.encryptedLen ≤ s.fbLen.toNat → 31 < s.pbLen.toNat →
      rawEncode s id = .failed { s with hFl := 0x00, mem := (s.withSecureHeader id).mem } .ptLen) ∧
    (27 + s.aIl.toNat + s.encryptedLen ≤ s.fbLen.toNat → s.pbLen.toNat ≤ 31 →
      aeadEnc s.params.aead s.key.toList s.iv.toList (s.secureHeader id) s.plainBlock = none →
      rawEncode s id = .failed { s with hFl := 0x00, mem := ((s.withSecureHeader id).withPadding).mem } .encrypt) := by
  have f := (encodeVerdict_eq_zero _ _ _ _ _ _).mp hv
  simp only [if_true] at f
  have hfl := hFl_withSecureHeader s id hv
  have hb : (s.withSecureHeader id).fbLen = s.fbLen := rfl
  refine ⟨fun h1 => ?_, fun h1 h2 => ?_, fun h1 h2 ha => ?_⟩ <;> rw [rawEncode_body s id h hv, rawEncodeBody, hfl, hb]
  · rw [if_pos (by omega)]; rfl
  · rw [if_neg (by omega), padBody_failed (s.withSecureHeader id) h2]; rfl
  · rw [if_neg (by omega)]
    obtain ⟨v, hp⟩ := padBody_done (s.withSecureHeader id) h2
    obtain ⟨a1, a2⟩ := sealFrame_arguments s id f.2.2.1 h2
    rw [hp]
    change (sealFrame ((s.withSecureHeader id).withPadding) _ _).revertHeader s = _
    rw [sealFrame, a1, a2]
    change (match aeadEnc s.params.aead s.key.toList s.iv.toList (s.secureHeader id) s.plainBlock with
      | none => _
      | some (ct, tag) => _ : Ended).revertHeader s = _
    rw [ha]
    rfl

/-! ## `RawEncode` does not look at `CMD` and `A_ID` -/

theorem hdrEncode_relabel (s : State) (c : Byte) (a : Bytes 8) (sec : Bool) (ft : Byte) (seq : BitVec 4) (id : Bytes 8)
    (il bl tl : Nat) :
    hdrEncode { s with cmd := c, aId := a } sec ft seq id il bl tl =
      (hdrEncode s sec ft seq id il bl tl).map fun t => { t with cmd := c, aId := a } := by
  simp only [hdrEncode]
  cases hdrEncodeError sec ft il bl tl s.fbLen.toNat <;> rfl

theorem padBody_relabel (s : State) (c : Byte) (a : Bytes 8) :
    padBody { s with cmd := c, aId := a } = (padBody s).map fun t => { t with cmd := c, aId := a } := by
  simp only [padBody, pad32]
  split
  · rfl
  · split <;> rfl

theorem sealFrame_relabel (s : State) (c : Byte) (a : Bytes 8) (hl ebl : Nat) :
    sealFrame { s with cmd := c, aId := a } hl ebl = (sealFrame s hl ebl).map fun t => { t with cmd := c, aId := a } := by
  simp only [sealFrame]
  split <;> rfl

theorem rawEncodeBody_relabel (s : State) (c : Byte) (a : Bytes 8) (hl ebl : Nat) :
    rawEncodeBody { s with cmd := c, aId := a } hl ebl =
      (rawEncodeBody s hl ebl).map fun t => { t with cmd := c, aId := a } := by
  simp only [rawEncodeBody, padBody_relabel]
  split
  · rfl
  · cases padBody s
    · simp only [Ended.map, sealFrame_relabel]
    · rfl

theorem rawEncode_relabel (s : State) (c : Byte) (a id : Bytes 8) :
    rawEncode { s with cmd := c, aId := a } id = (rawEncode s id).map fun t => { t with cmd := c, aId := a } := by
  simp only [rawEncode, hdrEncode_relabel]
  change (match rawEncodeError s with | some e => _ | none => _) = _
  cases rawEncodeError s
  · change (match Ended.map _ (hdrEncode s true s.aFtype (nonceSeq s.iv) id s.aIl.toNat s.encryptedLen tlSecure) with
      | .failed s e => _ | .done s hl => _) = _
    dsimp only
    cases hdrEncode s true s.aFtype (nonceSeq s.iv) id s.aIl.toNat s.encryptedLen tlSecure with
    | done t hl =>
      simp only [Ended.map]
      change (rawEncodeBody { t with cmd := c, aId := a } hl t.encryptedLen).revertHeader _ = _
      rw [rawEncodeBody_relabel]
      cases rawEncodeBody t hl t.encryptedLen <;> rfl
    | failed => rfl
  · rfl

/-! ## The nonce (R118, R170, R171) -/

theorem nonceOf_toList (id : Bytes 8) (x : Bytes 6) : (nonceOf id x).toList = id.toList.take 6 ++ x.toList := by
  refine List.ext_getElem (by simp) fun i h1 h2 => ?_
  simp only [Vector.length_toList] at h1
  simp only [nonceOf, Vector.getElem_toList, Vector.getElem_ofFn, nonceId, List.getElem_append, List.length_take,
    Vector.length_toList, List.getElem_take]
  by_cases h : i < 6
  · simp only [h, if_true, List.getD_eq_getElem?_getD]; simp [show i < 8 by omega, h]
  · simp only [h, if_false, List.getD_eq_getElem?_getD]; simp [show i - 6 < 6 by omega, h]

theorem eq_nonceOf (id : Bytes 8) (x : Bytes 6) (iv : Bytes 12) (h : iv.toList = id.toList.take 6 ++ x.toList) :
    iv = nonceOf id x := by
  rw [← nonceOf_toList] at h
  exact Vector.toList_inj.mp h

theorem nonceCtr_nonceOf (id : Bytes 8) (x : Bytes 6) : nonceCtr (nonceOf id x) = x.toList := by
  rw [nonceCtr, nonceOf_toList]; simp [nonceId]

theorem nonceOf_last (id : Bytes 8) (x : Bytes 6) : (nonceOf id x)[11] = x[5] := by simp [nonceOf, nonceId]

theorem ctrl_with_iv (b : Byte) : (b ||| 0x02).getLsbD 1 = true ∧ (b ||| 0x02).getLsbD 0 = b.getLsbD 0 ∧
    (b ||| 0x02).getLsbD 2 = b.getLsbD 2 := by
  have : ∀ b : Byte, (b ||| 0x02).getLsbD 1 = true ∧ (b ||| 0x02).getLsbD 0 = b.getLsbD 0 ∧
    (b ||| 0x02).getLsbD 2 = b.getLsbD 2 := by decide +kernel
  exact this b

/-! ## `ENC_SEC` (R190) -/

theorem errOf_encSecError (s : State) : errOf (encSecError s) =
    if 6 < s.aIl.toNat ∧ s.pbLen ≠ 0x00 then 0x1F
    else if s.aFtype = 0x00 ∨ 0x7F ≤ s.aFtype.toNat then 0x10
    else if s.params.scratchBytes < s.params.needEncSec then 0x40
    else 0x00 := by
  unfold encSecError
  simp only [firstFailing_cons, firstFailing_nil, apply_ite errOf, errOf_some, errOf_none, Err.code]
  refine ite_step (by simp) fun _ _ => ?_
  refine ite_step (by simp [ftNone, ftInvalidHigh, BitVec.ule]) fun _ _ => ?_
  exact ite_step (by simp) fun _ _ => rfl

/-- `ENC_SEC` past its own tests: `RawEncode` with the nonce built. -/
theorem exec_encSec (s : State) (h : errOf (encSecError { s with cmd := 0x09 }) = 0x00) :
    exec .encSec s = .next (finish (rawEncode (State.setNonce { s with cmd := 0x09 } s.txId s.ctrA) s.txId)) := by
  rw [errOf_eq_zero] at h
  change Host.Outcome.next (finish (match encSecError { s with cmd := 0x09 } with | some e => _ | none => _)) = _
  rw [h]
  rfl

/-! ## `RawDecode` (R181) -/

theorem hTl_eq (s : State) (n : Nat) (hn : 0 < n) (h : s.hFl ≠ 0x00) :
    s.hTl = n ↔ s.hFl.toNat = 3 + n + s.hSeqIl.toNat % 16 + s.hBl.toNat := by
  rw [State.hTl, if_neg h, State.headerIl, ilOf_eq]; omega

theorem hFl_zero (s : State) : s.hFl = 0x00 ↔ s.hFl.toNat = 0 :=
  ⟨fun h => by rw [h]; rfl, fun h => BitVec.eq_of_toNat_eq h⟩

theorem hBl_zero (s : State) : s.hBl = 0x00 ↔ s.hBl.toNat = 0 :=
  ⟨fun h => by rw [h]; rfl, fun h => BitVec.eq_of_toNat_eq h⟩

/-- The tests of `RawDecode` before the AEAD engine, as the value of `ERR`. -/
theorem errOf_rawDecodeError (s : State) : errOf (rawDecodeError s) =
    if s.ctrl.getLsbD 0 = false then 0x43
    else if s.ctrl.getLsbD 1 = false then 0x44
    else if s.params.scratchBytes < s.params.needDecRaw then 0x40
    else if s.hFl.toNat = 0 then 0x1A
    else if s.hFl.toNat ≠ 26 + s.hSeqIl.toNat % 16 + s.hBl.toNat then 0x14
    else if s.fbLen.toNat < s.hFl.toNat + 1 then 0x41
    else if fbByte s.mem s.hFl.toNat ≠ 0x80 then 0x1B
    else if s.hBl.toNat ≠ 0 ∧ s.hBl.toNat ≠ 32 then 0x1C
    else if s.hSeqIl.toNat / 16 ≠ (s.iv[11]).toNat % 16 then 0x1D
    else 0x00 := by
  unfold rawDecodeError
  simp only [firstFailing_cons, firstFailing_nil, apply_ite errOf, errOf_some, errOf_none, Err.code]
  refine ite_step (by simp [State.keyOk]) fun _ _ => ?_
  refine ite_step (by simp [State.ivOk]) fun _ _ => ?_
  refine ite_step (by simp) fun _ _ => ?_
  refine ite_step (by rw [beq_iff_eq, hFl_zero]) fun _ h => ?_
  refine ite_step (by rw [decide_eq_true_eq, tlSecure, ne_eq, hTl_eq s 23 (by omega) (mt (hFl_zero s).mp h)]) fun _ _ => ?_
  refine ite_step (by simp) fun _ _ => ?_
  refine ite_step (by simp [formatByte]) fun _ _ => ?_
  refine ite_step (by simp [encBody]) fun _ _ => ?_
  refine ite_step ?_ fun _ _ => rfl
  rw [bne_iff_ne, ne_eq, ne_eq, ← BitVec.toNat_inj, seqOf_toNat, nonceSeq_toNat]

/-- `RawDecode` failing one of its tests: nothing is written. -/
theorem rawDecode_early (s : State) (h : errOf (rawDecodeError s) ≠ 0x00) :
    ∃ e, e.code = errOf (rawDecodeError s) ∧ rawDecode s = .failed s e := by
  cases he : rawDecodeError s with
  | none => rw [he] at h; exact absurd rfl h
  | some e => exact ⟨e, rfl, by simp only [rawDecode, he]⟩

/-- The facts that the tests of `RawDecode` establish. -/
theorem rawDecode_facts (s : State) (h : errOf (rawDecodeError s) = 0x00) :
    s.ctrl.getLsbD 0 = true ∧ s.ctrl.getLsbD 1 = true ∧ s.params.needDecRaw ≤ s.params.scratchBytes ∧ s.hFl.toNat ≠ 0 ∧
      s.hFl.toNat = 26 + s.hSeqIl.toNat % 16 + s.hBl.toNat ∧ s.hFl.toNat + 1 ≤ s.fbLen.toNat ∧
      fbByte s.mem s.hFl.toNat = 0x80 ∧ (s.hBl.toNat = 0 ∨ s.hBl.toNat = 32) ∧
      s.hSeqIl.toNat / 16 = (s.iv[11]).toNat % 16 := by
  rw [errOf_rawDecodeError] at h
  by_cases h1 : s.ctrl.getLsbD 0 = false
  · rw [if_pos h1] at h; exact absurd h (by decide)
  rw [if_neg h1] at h
  by_cases h2 : s.ctrl.getLsbD 1 = false
  · rw [if_pos h2] at h; exact absurd h (by decide)
  rw [if_neg h2] at h
  by_cases h3 : fbByte s.mem s.hFl.toNat = 0x80
  · repeat'
      split at h
      · exact absurd h (by decide)
    refine ⟨Bool.not_eq_false _ ▸ h1, Bool.not_eq_false _ ▸ h2, ?_, ?_, ?_, ?_, h3, ?_, ?_⟩ <;> omega
  · repeat'
      split at h
      · exact absurd h (by decide)
    exact absurd h (by decide)

/-- `RawDecode` past its tests: the AEAD engine decides (R181). -/
theorem rawDecode_late (s : State) (h : errOf (rawDecodeError s) = 0x00) :
    rawDecode s =
      match aeadDec s.params.aead s.key.toList s.iv.toList (fbBytes s.mem 0 (4 + s.hSeqIl.toNat % 16))
        (fbBytes s.mem (4 + s.hSeqIl.toNat % 16) s.hBl.toNat) (fbBytes s.mem (s.hFl.toNat - 16) 16) with
      | none => .failed s .auth
      | some pt => deliver s pt := by
  obtain ⟨_, _, _, _, f5, _, _, f8, _⟩ := rawDecode_facts s h
  rw [errOf_eq_zero] at h
  have hct : s.frameCt = fbBytes s.mem (4 + s.hSeqIl.toNat % 16) s.hBl.toNat := by
    simp only [State.frameCt, encBody, State.headerIl, ilOf_eq]
    split
    · rename_i h32; rw [h32]
    · rw [f8.resolve_right (by assumption)]; rfl
  have htag : s.frameTag = fbBytes s.mem (s.hFl.toNat - 16) 16 := by
    simp only [State.frameTag, State.headerIl, ilOf_eq, ctrLen, tagLen]
    rw [show 4 + s.hSeqIl.toNat % 16 + s.hBl.toNat + 6 = s.hFl.toNat - 16 by omega]
  simp only [rawDecode, h, State.frameAad, State.headerIl, ilOf_eq, hct, htag]
  all_goals
    (cases aeadDec s.params.aead s.key.toList s.iv.toList (fbBytes s.mem 0 (4 + s.hSeqIl.toNat % 16))
      (fbBytes s.mem (4 + s.hSeqIl.toNat % 16) s.hBl.toNat) (fbBytes s.mem (s.hFl.toNat - 16) 16) <;> rfl)

/-- What `RawDecode` does with the plaintext of an authenticated frame (R181, R183, R184). -/
theorem deliver_eq (s : State) (pt : List Byte) :
    deliver s pt =
      if s.ctrl.getLsbD 2 = true ∧ s.hBl.toNat ≠ 0 then
        if s.pbCap.toNat < dataLen pt then .failed s .ptCap
        else .done { s with mem := pbWrite s.mem 0 (pt.take (dataLen pt)), pbLen := BitVec.ofNat 8 (dataLen pt), scratch := [] }
          (s.hFl.toNat + 1)
      else .done { s with pbLen := 0x00, scratch := [] } 1 := by
  have hd := dataLen_le pt
  have hz : s.hBl ≠ 0x00 ↔ s.hBl.toNat ≠ 0 := not_congr (hBl_zero s)
  simp only [deliver, State.ptWant, hz, unpaddedLen_eq, resultNoBody, ptMax, State.zeroScratch]
  split
  · exact ite_step (by omega) fun _ _ => rfl
  · rfl

/-! ## `RawDecode` does not look at `CMD`, `FSM` and `FSM_TRACE` -/

theorem deliver_relabel (s : State) (c f g : Byte) (pt : List Byte) :
    deliver { s with cmd := c, fsm := f, fsmTrace := g } pt =
      (deliver s pt).map fun t => { t with cmd := c, fsm := f, fsmTrace := g } := by
  rw [deliver_eq, deliver_eq]
  dsimp only
  split
  · split <;> rfl
  · rfl

theorem rawDecode_relabel (s : State) (c f g : Byte) :
    rawDecode { s with cmd := c, fsm := f, fsmTrace := g } =
      (rawDecode s).map fun t => { t with cmd := c, fsm := f, fsmTrace := g } := by
  simp only [rawDecode]
  change (match rawDecodeError s with | some e => _ | none => _) = _
  cases rawDecodeError s
  · change (match aeadDec s.params.aead s.key.toList s.iv.toList s.frameAad s.frameCt s.frameTag with
      | none => _ | some pt => _) = _
    cases aeadDec s.params.aead s.key.toList s.iv.toList s.frameAad s.frameCt s.frameTag
    · rfl
    · exact deliver_relabel _ _ _ _ _
  · rfl

end Sys2Proof.Machine
end

