-- ==== Sys2Proof/Laws/Receive.lean ====
section
/-! SUPPORT. Top-level secure receive, said once stage by stage (spec/44_replay_guard.md R221, R226), and what `RawDecode`
can do to the state. -/
namespace Sys2Proof.Machine

/-! ## `RawDecode` as a change of state -/

/-- A failed `RawDecode` has written nothing (R182). -/
theorem rawDecode_failed_state {s t : State} {e : Err} (h : rawDecode s = .failed t e) : t = s := by
  by_cases h0 : errOf (rawDecodeError s) = 0x00
  · rw [rawDecode_late s h0] at h
    split at h
    · exact (Ended.failed.inj h).1.symm
    · rw [deliver_eq] at h
      split at h
      · split at h
        · exact (Ended.failed.inj h).1.symm
        · exact Ended.noConfusion h
      · exact Ended.noConfusion h
  · obtain ⟨_, _, hr⟩ := rawDecode_early s h0
    exact (Ended.failed.inj (hr.symm.trans h)).1.symm

/-- A `RawDecode` that succeeds: its tests passed, the AEAD engine accepted the frame, and only `PB[0..30]`, `PB_LEN` and
scratch were written (R181, R184). -/
theorem rawDecode_done_state {s t : State} {r : Nat} (h : rawDecode s = .done t r) :
    errOf (rawDecodeError s) = 0x00 ∧ ∃ pt,
      aeadDec s.params.aead s.key.toList s.iv.toList (fbBytes s.mem 0 (4 + s.hSeqIl.toNat % 16))
        (fbBytes s.mem (4 + s.hSeqIl.toNat % 16) s.hBl.toNat) (fbBytes s.mem (s.hFl.toNat - 16) 16) = some pt ∧
      ∃ bs, bs.length ≤ 31 ∧ ∃ n : Nat, n ≤ 31 ∧
        t = { s with mem := pbWrite s.mem 0 bs, pbLen := BitVec.ofNat 8 n, scratch := [] } := by
  by_cases h0 : errOf (rawDecodeError s) = 0x00
  · refine ⟨h0, ?_⟩
    rw [rawDecode_late s h0] at h
    split at h
    · exact Ended.noConfusion h
    · rename_i pt hpt
      refine ⟨pt, hpt, ?_⟩
      have hd := dataLen_le pt
      rw [deliver_eq] at h
      split at h
      · split at h
        · exact Ended.noConfusion h
        · refine ⟨pt.take (dataLen pt), by rw [List.length_take]; omega, dataLen pt, hd, (Ended.done.inj h).1.symm⟩
      · exact ⟨[], by simp, 0, by omega, (Ended.done.inj h).1.symm⟩
  · obtain ⟨_, _, hr⟩ := rawDecode_early s h0
    exact Ended.noConfusion (hr.symm.trans h)

/-! ## The stages of `DEC_SEC` -/

/-- The message counter in the trailer, in the spec's terms (R221). -/
theorem frameCtr_toList (s : State) (h : s.hFl ≠ 0x00) :
    s.frameCtr.toList = fbBytes s.mem (4 + s.hSeqIl.toNat % 16 + s.hBl.toNat) 6 := by
  refine List.ext_getElem (by simp) fun i h1 h2 => ?_
  rw [fbBytes_getElem]
  simp only [State.frameCtr, Vector.getElem_toList, Vector.getElem_ofFn, State.hToff, if_neg h, State.headerIl, ilOf_eq]

theorem eq_frameCtr (s : State) (h : s.hFl ≠ 0x00) (x : Bytes 6)
    (hx : x.toList = fbBytes s.mem (4 + s.hSeqIl.toNat % 16 + s.hBl.toNat) 6) : x = s.frameCtr := by
  rw [← frameCtr_toList s h] at hx
  exact Vector.toList_inj.mp hx

/-- The tests of `DEC_SEC` before the lookup, as the value of `ERR`. -/
theorem errOf_decSecError (s : State) (h : s.hFl ≠ 0x00) : errOf (decSecError s) =
    if s.params.scratchBytes < s.params.needDecSec then 0x40
    else if s.hFl.toNat ≠ 26 + s.hSeqIl.toNat % 16 + s.hBl.toNat then 0x14
    else if s.fbLen.toNat < s.hFl.toNat + 1 then 0x41
    else 0x00 := by
  unfold decSecError
  simp only [firstFailing_cons, firstFailing_nil, apply_ite errOf, errOf_some, errOf_none, Err.code]
  refine ite_step (by simp) fun _ _ => ?_
  refine ite_step (by rw [decide_eq_true_eq, tlSecure, ne_eq, hTl_eq s 23 (by omega) h]) fun _ _ => ?_
  exact ite_step (by simp) fun _ _ => rfl

/-- The state of `DEC_SEC` once entry `k` is resolved, in `IdResolved`. -/
def State.resolved (s : State) (k : Nat) : State :=
  { s with cmd := 0x0A, fsm := 2, fsmTrace := 0x07, assocIdx := BitVec.ofNat 8 k, nodeId := assocId s.mem k }

/-- The state of `DEC_SEC` when it calls `RawDecode`, in `CounterChecked`, with the nonce built. -/
def State.checked (s : State) (k : Nat) : State :=
  { s with
    cmd := 0x0A, fsm := 3, fsmTrace := 0x0F, assocIdx := BitVec.ofNat 8 k, nodeId := assocId s.mem k,
    iv := nonceOf (assocId s.mem k) s.frameCtr, ctrl := s.ctrl ||| 0x02 }

/-- `DEC_SEC` without a valid header. -/
theorem exec_decSec_noHeader (s : State) (h : s.hFl = 0x00) :
    exec .decSec s = .next
      { s with cmd := 0x0A, result := 0x00, err := 0x1A, fsm := 7, fsmTrace := 0x81, scratch := [] } := by
  change Host.Outcome.next (finish (if s.hFl = 0x00 then _ else _)) = _
  rw [if_pos h]; with_unfolding_all rfl

/-- `DEC_SEC` failing a structural test. -/
theorem exec_decSec_structure (s : State) (h : s.hFl ≠ 0x00) (he : errOf (decSecError s) ≠ 0x00) :
    exec .decSec s = .next
      { s with cmd := 0x0A, result := 0x00, err := errOf (decSecError s), fsm := 7, fsmTrace := 0x83, scratch := [] } := by
  change Host.Outcome.next (finish (if s.hFl = 0x00 then _ else match decSecError s with | some e => _ | none => _)) = _
  rw [if_neg h]
  cases hx : decSecError s with
  | none => rw [hx] at he; exact absurd rfl he
  | some e => with_unfolding_all rfl

/-- `DEC_SEC` of an unknown sender. -/
theorem exec_decSec_unknown (s : State) (h : s.hFl ≠ 0x00) (he : errOf (decSecError s) = 0x00)
    (hk : lookup s.mem s.params.assocN s.hId (s.hSeqIl.toNat % 16) = none) :
    exec .decSec s = .next
      { s with
        cmd := 0x0A, result := 0x00, err := 0x30, fsm := 7, fsmTrace := 0x83, assocIdx := 0xFF, scratch := [] } := by
  rw [errOf_eq_zero] at he
  rw [← ilOf_eq] at hk
  change Host.Outcome.next (finish (if s.hFl = 0x00 then _ else match decSecError s with
    | some e => _
    | none => match lookup s.mem s.params.assocN s.hId (ilOf s.hSeqIl) with | none => _ | some k => _)) = _
  rw [if_neg h, he, hk]; with_unfolding_all rfl

/-- Entering a state, with `FSM_TRACE` known. -/
theorem enter_eq {s : State} {x : RxState} {c b b' : Byte} (h : s.fsmTrace = b) (hc : BitVec.ofNat 8 x.code = c)
    (hb : b ||| (1#8 <<< x.code) = b') : s.enter x = { s with fsm := c, fsmTrace := b' } := by
  rw [State.enter, h, hc, hb]

/-- A rejection, with `FSM_TRACE` known. -/
theorem reject_eq {s : State} {e : Err} {b b' : Byte} (h : s.fsmTrace = b) (hb : b ||| 0x80 = b') :
    reject s e = .failed { s with fsm := 7, fsmTrace := b' } e := by
  rw [reject, enter_eq (x := .rejected) (c := 7) h rfl hb]

/-- `DEC_SEC` once the sender is resolved, with the earlier stages in `FSM_TRACE`. -/
theorem decSecAuthenticate_eq (s : State) (k : Nat) (h : s.fsmTrace = 0x03) :
    decSecAuthenticate s k =
      if ctrValue (assocCtr s.mem k) < ctrValue s.frameCtr then
        match rawDecode { s with
            fsm := 3, fsmTrace := 0x0F, iv := nonceOf s.nodeId s.frameCtr, ctrl := s.ctrl ||| 0x02 } with
        | .failed t e => reject t e
        | .done t r => decSecCommit t k s.frameCtr r
      else .failed { s with fsm := 7, fsmTrace := 0x87 } .replay := by
  have e1 : s.enter .idResolved = { s with fsm := 2, fsmTrace := 0x07 } := enter_eq h rfl rfl
  have e2 : State.enter { s with fsm := 2, fsmTrace := 0x07 } .counterChecked = { s with fsm := 3, fsmTrace := 0x0F } :=
    enter_eq (b := 0x07) rfl rfl rfl
  have e3 : reject { s with fsm := 2, fsmTrace := 0x07 } .replay = .failed { s with fsm := 7, fsmTrace := 0x87 } .replay :=
    reject_eq (b := 0x07) rfl rfl
  simp only [decSecAuthenticate, e1, e2, e3]
  change (if (!decide (ctrValue (assocCtr s.mem k) < ctrValue s.frameCtr)) = true then _ else _) = _
  by_cases hc : ctrValue (assocCtr s.mem k) < ctrValue s.frameCtr
  · rw [if_pos hc, if_neg (by simp [hc])]; rfl
  · rw [if_neg hc, if_pos (by simp [hc])]

/-- `DEC_SEC` with the sender resolved. -/
theorem exec_decSec_resolved (s : State) (k : Nat) (h : s.hFl ≠ 0x00) (he : errOf (decSecError s) = 0x00)
    (hk : lookup s.mem s.params.assocN s.hId (s.hSeqIl.toNat % 16) = some k) :
    exec .decSec s = .next (finish
      (if ctrValue (assocCtr s.mem k) < ctrValue s.frameCtr then
        match rawDecode (s.checked k) with
        | .failed t e => reject t e
        | .done t r => decSecCommit t k s.frameCtr r
      else .failed { s.resolved k with fsm := 7, fsmTrace := 0x87 } .replay)) := by
  rw [errOf_eq_zero] at he
  rw [← ilOf_eq] at hk
  have e1 : State.enter { s with cmd := 0x0A, fsm := 0x00, fsmTrace := 0x01 } .headerValid =
    { s with cmd := 0x0A, fsm := 1, fsmTrace := 0x03 } := enter_eq (b := 0x01) rfl rfl rfl
  have e2 : exec .decSec s = .next (finish (if s.hFl = 0x00 then
      reject { s with cmd := 0x0A, fsm := 0x00, fsmTrace := 0x01 } .hdrInvalid
    else decSecResolve { s with cmd := 0x0A, fsm := 0x00, fsmTrace := 0x01 })) := rfl
  rw [e2, if_neg h]
  simp only [decSecResolve, e1]
  have e3 : decSecError { s with cmd := 0x0A, fsm := 1, fsmTrace := 0x03 } = none := he
  have e4 : State.headerIl { s with cmd := 0x0A, fsm := 1, fsmTrace := 0x03 } = ilOf s.hSeqIl := rfl
  rw [e3, e4]
  dsimp only
  rw [hk]
  dsimp only
  rw [decSecAuthenticate_eq _ k rfl]
  rfl

/-- The commit of `DEC_SEC` in the state that `RawDecode` leaves (R217, R221). -/
theorem decSecCommit_eq (s t : State) (k r : Nat) (h : rawDecode (s.checked k) = .done t r)
    (hc : ctrValue (assocCtr s.mem k) < ctrValue s.frameCtr) :
    decSecCommit t k s.frameCtr r =
      if s.commitOk = true then .done { t with fsm := 5, fsmTrace := 0x3F, mem := setAssocCtr t.mem k s.frameCtr } r
      else .failed { t with fsm := 7, fsmTrace := 0x9F } .commit := by
  obtain ⟨_, pt, _, bs, _, n, _, ht⟩ := rawDecode_done_state h
  have hm : assocCtr t.mem k = assocCtr s.mem k := by rw [ht]; exact assocCtr_pbWrite _ _ _ _
  have hok : t.commitOk = s.commitOk := by rw [ht]; rfl
  have htr : t.fsmTrace = 0x0F := by rw [ht]; rfl
  have e1 : t.enter .authenticated = { t with fsm := 4, fsmTrace := 0x1F } := enter_eq htr rfl rfl
  have e2 : reject { t with fsm := 4, fsmTrace := 0x1F } .commit = .failed { t with fsm := 7, fsmTrace := 0x9F } .commit :=
    reject_eq (b := 0x1F) rfl rfl
  have e3 : State.enter { t with fsm := 4, fsmTrace := 0x1F, mem := setAssocCtr t.mem k s.frameCtr } .counterCommitted =
    { t with fsm := 5, fsmTrace := 0x3F, mem := setAssocCtr t.mem k s.frameCtr } := enter_eq (b := 0x1F) rfl rfl rfl
  rw [decSecCommit, e1]
  dsimp only
  change (if (!t.commitOk || !decide (ctrValue (assocCtr t.mem k) < ctrValue s.frameCtr)) = true then
    reject { t with fsm := 4, fsmTrace := 0x1F } .commit
    else .done (State.enter { t with fsm := 4, fsmTrace := 0x1F, mem := setAssocCtr t.mem k s.frameCtr } .counterCommitted) r) = _
  rw [e2, e3]
  by_cases hx : s.commitOk = true
  · rw [if_pos hx, if_neg (by simp [hm, hok, hx, hc])]
  · rw [if_neg hx, if_pos (by simp [hok, hx])]

/-- `DEC_SEC` whose `RawDecode` fails: nothing but the resolution, the nonce and the outcome is written (R221, R222). -/
theorem exec_decSec_undecoded (s : State) (k : Nat) (u : State) (e : Err) (h : s.hFl ≠ 0x00)
    (he : errOf (decSecError s) = 0x00) (hk : lookup s.mem s.params.assocN s.hId (s.hSeqIl.toNat % 16) = some k)
    (hc : ctrValue (assocCtr s.mem k) < ctrValue s.frameCtr) (hr : rawDecode (s.checked k) = .failed u e) :
    exec .decSec s = .next
      { s.checked k with result := 0x00, err := e.code, fsm := 7, fsmTrace := 0x8F, scratch := [] } := by
  have hu := rawDecode_failed_state hr
  subst hu
  rw [exec_decSec_resolved s k h he hk, if_pos hc, hr]
  dsimp only
  rw [reject_eq (b := 0x0F) (b' := 0x8F) rfl rfl]; rfl

/-- `DEC_SEC` whose `RawDecode` succeeds: the commit, or `E_COMMIT` (R217, R221). -/
theorem exec_decSec_decoded (s : State) (k : Nat) (u : State) (r : Nat) (h : s.hFl ≠ 0x00)
    (he : errOf (decSecError s) = 0x00) (hk : lookup s.mem s.params.assocN s.hId (s.hSeqIl.toNat % 16) = some k)
    (hc : ctrValue (assocCtr s.mem k) < ctrValue s.frameCtr) (hr : rawDecode (s.checked k) = .done u r) :
    exec .decSec s = .next
      (if s.commitOk = true then
        { u with
          result := BitVec.ofNat 8 r, err := 0x00, fsm := 5, fsmTrace := 0x3F, mem := setAssocCtr u.mem k s.frameCtr }
      else { u with result := 0x00, err := 0x32, fsm := 7, fsmTrace := 0x9F, scratch := [] }) := by
  rw [exec_decSec_resolved s k h he hk, if_pos hc, hr]
  dsimp only
  rw [decSecCommit_eq s u k r hr hc]
  by_cases hx : s.commitOk = true
  · rw [if_pos hx, if_pos hx]; rfl
  · rw [if_neg hx, if_neg hx]; rfl

/-- `DEC_SEC` of a replayed or stale counter: rejected before any decryption (R221, R223). -/
theorem exec_decSec_replay (s : State) (k : Nat) (h : s.hFl ≠ 0x00) (he : errOf (decSecError s) = 0x00)
    (hk : lookup s.mem s.params.assocN s.hId (s.hSeqIl.toNat % 16) = some k)
    (hc : ctrValue s.frameCtr ≤ ctrValue (assocCtr s.mem k)) :
    exec .decSec s = .next
      { s.resolved k with result := 0x00, err := 0x31, fsm := 7, fsmTrace := 0x87, scratch := [] } := by
  rw [exec_decSec_resolved s k h he hk, if_neg (by omega)]; rfl

/-- Everything an acceptance by `DEC_SEC` implies (R221). -/
theorem decSec_accepted {s t : State} (h : exec .decSec s = .next t) (ht : t.err = 0x00) :
    s.hFl ≠ 0x00 ∧ errOf (decSecError s) = 0x00 ∧ s.commitOk = true ∧
      ∃ k, lookup s.mem s.params.assocN s.hId (s.hSeqIl.toNat % 16) = some k ∧
        ctrValue (assocCtr s.mem k) < ctrValue s.frameCtr ∧ ∃ u r, rawDecode (s.checked k) = .done u r ∧
          t = { u with
            result := BitVec.ofNat 8 r, err := 0x00, fsm := 5, fsmTrace := 0x3F,
            mem := setAssocCtr u.mem k s.frameCtr } := by
  by_cases h1 : s.hFl = 0x00
  · rw [exec_decSec_noHeader s h1] at h
    rw [← Host.Outcome.next.inj h] at ht; exact absurd ht (by dsimp only; decide)
  by_cases h2 : errOf (decSecError s) = 0x00
  swap
  · rw [exec_decSec_structure s h1 h2] at h
    rw [← Host.Outcome.next.inj h] at ht; exact absurd ht h2
  cases hk : lookup s.mem s.params.assocN s.hId (s.hSeqIl.toNat % 16) with
  | none =>
    rw [exec_decSec_unknown s h1 h2 hk] at h
    rw [← Host.Outcome.next.inj h] at ht; exact absurd ht (by dsimp only; decide)
  | some k =>
    by_cases hc : ctrValue (assocCtr s.mem k) < ctrValue s.frameCtr
    swap
    · rw [exec_decSec_replay s k h1 h2 hk (by omega)] at h
      rw [← Host.Outcome.next.inj h] at ht; exact absurd ht (by dsimp only; decide)
    cases hr : rawDecode (s.checked k) with
    | failed u e =>
      rw [exec_decSec_undecoded s k u e h1 h2 hk hc hr] at h
      rw [← Host.Outcome.next.inj h] at ht; exact absurd ht e.code_ne_zero
    | done u r =>
      rw [exec_decSec_decoded s k u r h1 h2 hk hc hr] at h
      by_cases hx : s.commitOk = true
      · rw [if_pos hx] at h
        exact ⟨h1, h2, hx, k, rfl, hc, u, r, hr, (Host.Outcome.next.inj h).symm⟩
      · rw [if_neg hx] at h
        rw [← Host.Outcome.next.inj h] at ht; exact absurd ht (by dsimp only; decide)

end Sys2Proof.Machine
end

