-- ==== Sys2Proof/Laws/Commands.lean ====
section
/-! SUPPORT. Every command said once: all the ends its meaning can have, each as the old state with the fields that change. The
statements about all commands cite these instead of unfolding a meaning. -/
namespace Sys2Proof.Machine

/-! ## What a command can do to memory -/

/-- `m'` differs from `m` at most in `FB[0 .. n-1]` and `PB[0 .. 31]`, and keeps the form of memory. -/
structure BufferOnly (n : Nat) (m m' : Memory) : Prop where
  reads : ∀ a, ¬ (0x080 ≤ a ∧ a < 0x080 + n ∧ a < 0x0C0) → ¬ (0x0C0 ≤ a ∧ a < 0x0E0) → Memory.read m' a = Memory.read m a
  wf : Memory.wf m = true → Memory.wf m' = true
  cells : ∀ c ∈ m', (0x080 ≤ c.1 ∧ c.1 < 0x100) ∨ c ∈ m

theorem BufferOnly.refl (n : Nat) (m : Memory) : BufferOnly n m m := ⟨fun _ _ _ => rfl, id, fun _ h => Or.inr h⟩

theorem BufferOnly.trans {n : Nat} {m₁ m₂ m₃ : Memory} (h : BufferOnly n m₁ m₂) (g : BufferOnly n m₂ m₃) :
    BufferOnly n m₁ m₃ :=
  ⟨fun a p q => (g.reads a p q).trans (h.reads a p q), fun w => g.wf (h.wf w),
    fun c hc => (g.cells c hc).elim Or.inl (h.cells c)⟩

theorem BufferOnly.fbWrite {n : Nat} (m : Memory) (i : Nat) (bs : List Byte) (h : i + bs.length ≤ n) :
    BufferOnly n m (fbWrite m i bs) :=
  ⟨fun a p _ => by rw [read_fbWrite, if_neg (by omega)], wf_fbWrite _ _ _,
    fun c hc => (mem_fbWrite _ _ _ _ hc).imp (fun h => by omega) id⟩

theorem BufferOnly.pbWrite {n : Nat} (m : Memory) (i : Nat) (bs : List Byte) (h : i + bs.length ≤ 32) :
    BufferOnly n m (pbWrite m i bs) :=
  ⟨fun a _ p => by rw [read_pbWrite, if_neg (by omega)], wf_pbWrite _ _ _,
    fun c hc => (mem_pbWrite _ _ _ _ hc).imp (fun h => by omega) id⟩

theorem BufferOnly.table {n : Nat} {m m' : Memory} (h : BufferOnly n m m') (a : Nat) (ha : 0x100 ≤ a) :
    Memory.read m' a = Memory.read m a := h.reads a (by omega) (by omega)

theorem BufferOnly.assocId {n : Nat} {m m' : Memory} (h : BufferOnly n m m') (k : Nat) : assocId m' k = assocId m k :=
  Vector.ext fun j hj => by rw [assocId_getElem, assocId_getElem, h.table _ (by omega)]

theorem BufferOnly.assocCtr {n : Nat} {m m' : Memory} (h : BufferOnly n m m') (k : Nat) : assocCtr m' k = assocCtr m k :=
  Vector.ext fun j hj => by rw [assocCtr_getElem, assocCtr_getElem, h.table _ (by omega)]

/-! ## Codes -/

/-- The header encode's codes (R132). -/
theorem encodeVerdict_mem (secure : Bool) (ftype : Byte) (il bl tl cap : Nat) :
    encodeVerdict secure ftype il bl tl cap ∈ [0x00, 0x10, 0x11, 0x12, 0x13, (0x14 : Byte)] := by
  unfold encodeVerdict
  repeat'
    split
    · decide
  decide

/-- No `E_BODYLEN` for a secure frame: its body is 0 or 32 bytes. -/
theorem encodeVerdict_secure_mem (ftype : Byte) (il bl cap : Nat) (h : bl ≤ 32) :
    encodeVerdict true ftype il bl 23 cap ∈ [0x00, 0x10, 0x11, 0x12, (0x14 : Byte)] := by
  unfold encodeVerdict
  split
  · decide
  split
  · decide
  split
  · decide
  rw [if_neg (by omega)]
  split
  · decide
  split <;> decide

/-- No `E_TRAILERLEN` for a CRC trailer: it is one byte. -/
theorem encodeVerdict_crc_mem (ftype : Byte) (il bl cap : Nat) :
    encodeVerdict false ftype il bl 1 cap ∈ [0x00, 0x10, 0x11, 0x12, (0x13 : Byte)] := by
  unfold encodeVerdict
  split
  · decide
  split
  · decide
  split
  · decide
  split
  · decide
  rw [if_neg (by simp), if_neg (by simp)]; decide

/-- The header decode's codes (R137). -/
theorem decodeVerdict_mem (fb : Nat → Byte) (n : Nat) : decodeVerdict fb n ∈ 0x00 :: raisedBy .decHdr := by
  unfold decodeVerdict
  dsimp only
  repeat'
    split
    · decide
  decide

/-- A code of a list with 0x00 that is not 0x00. -/
theorem code_mem {e : Byte} {l : List Byte} (h : e ∈ 0x00 :: l) (hne : e ≠ 0x00) : e ∈ l :=
  (List.mem_cons.mp h).resolve_left hne

/-! ## Valid headers -/

/-- A header that `HdrEncode` wrote is valid (R142). -/
theorem headerOk_encoded (s : State) (secure : Bool) (ftype : Byte) (q il bl tl cap : Nat)
    (h : encodeVerdict secure ftype il bl tl cap = 0x00)
    (ht : s.hType = ftype ||| (if secure then 0x80 else 0x00)) (hs : s.hSeqIl = BitVec.ofNat 8 (16 * q + il))
    (hb : s.hBl = BitVec.ofNat 8 bl) (hf : s.hFl = BitVec.ofNat 8 (3 + il + bl + tl))
    (hid : ∀ (i : Nat) (hi : i < 8), il ≤ i → s.hId[i] = 0x00) (hfl : 3 + il + bl + tl ≤ 63) : HeaderOk s := by
  obtain ⟨g1, g2, g3, g4, g5, g6⟩ := (encodeVerdict_eq_zero _ _ _ _ _ _).mp h
  have e1 : s.hFl.toNat = 3 + il + bl + tl := by rw [hf, BitVec.toNat_ofNat, Nat.mod_eq_of_lt]; omega
  have e2 : s.hBl.toNat = bl := by rw [hb, BitVec.toNat_ofNat, Nat.mod_eq_of_lt]; omega
  have e3 : s.headerIl = il := by rw [State.headerIl, ilOf_eq, hs, BitVec.toNat_ofNat]; omega
  have key : ∀ b : Byte, b ≠ 0x00 → b.toNat < 0x7F →
      1 ≤ ((b ||| 0x80).extractLsb' 0 7).toNat ∧ ((b ||| 0x80).extractLsb' 0 7).toNat ≤ 0x7E ∧ isSecure (b ||| 0x80) = true ∧
      1 ≤ ((b ||| 0x00).extractLsb' 0 7).toNat ∧ ((b ||| 0x00).extractLsb' 0 7).toNat ≤ 0x7E := by decide +kernel
  obtain ⟨k1, k2, k3, k4, k5⟩ := key ftype g1 g2
  have htl : 1 ≤ tl := by
    cases secure
    · simp at g6; omega
    · exact g6.1
  refine ⟨by omega, by omega, ?_, ?_, by omega, by omega, fun hsec => ?_, fun i hi hj => hid i hi (by omega)⟩
  · rw [ht]; cases secure <;> assumption
  · rw [ht]; cases secure <;> assumption
  · cases secure
    · have : s.hFl ≠ 0x00 := mt (hFl_zero s).mp (by omega)
      simp at g6
      rw [hTl_eq s 1 (by omega) this]
      rw [State.headerIl, ilOf_eq] at e3
      omega
    · rw [ht] at hsec; exact absurd (k3.symm.trans hsec) (by decide)

/-- A header that `HdrDecode` read is valid (R142). -/
theorem headerOk_decoded (s : State) (fb : Nat → Byte) (n : Nat) (h : decodeVerdict fb n = 0x00)
    (ht : s.hType = fb 1) (hs : s.hSeqIl = fb 2) (hb : s.hBl = fb (3 + (fb 2).toNat % 16)) (hf : s.hFl = fb 0)
    (hid : ∀ (i : Nat) (hi : i < 8), (fb 2).toNat % 16 ≤ i → s.hId[i] = 0x00) : HeaderOk s := by
  obtain ⟨g1, g2, g3, g4, g5, g6, g7, g8⟩ := decodeVerdict_facts fb n h
  have e3 : s.headerIl = (fb 2).toNat % 16 := by rw [State.headerIl, ilOf_eq, hs]
  refine ⟨by rw [hf]; exact g1, by rw [hf]; exact g2, ?_, ?_, by omega, ?_, fun hsec => ?_, fun i hi hj => hid i hi (by omega)⟩
  · rw [ht, byte_low7]; exact g3
  · rw [ht, byte_low7]; exact g4
  · rw [hf, hb]; omega
  · rw [ht, isSecure_eq] at hsec
    have := g8 (by simpa using hsec)
    have hne : s.hFl ≠ 0x00 := mt (hFl_zero s).mp (by rw [hf]; omega)
    rw [hTl_eq s 1 (by omega) hne, hs, hb, hf]; omega

/-- Only the header registers count. -/
theorem HeaderOk.congr {s t : State} (h : HeaderOk s) (h1 : t.hFl = s.hFl) (h2 : t.hType = s.hType) (h3 : t.hSeqIl = s.hSeqIl)
    (h4 : t.hBl = s.hBl) (h5 : t.hId = s.hId) : HeaderOk t := by
  have e : t.headerIl = s.headerIl := by simp only [State.headerIl, h3]
  have f : t.hTl = s.hTl := by simp only [State.hTl, State.headerIl, h1, h3, h4]
  exact ⟨by rw [h1]; exact h.flLow, by rw [h1]; exact h.flHigh, by rw [h2]; exact h.typeLow, by rw [h2]; exact h.typeHigh,
    by rw [e]; exact h.il, by rw [e, h4, h1]; exact h.fits, fun g => by rw [f]; exact h.crcTrailer (by rw [← h2]; exact g),
    fun i hi g => by simp only [h5]; exact h.idZero i hi (by rw [← e]; exact g)⟩

/-! ## The header commands -/

/-- A write of the header registers and of memory. -/
def State.putHeader (s : State) (fl ty q bl : Byte) (id : Bytes 8) (m : Memory) : State :=
  { s with hFl := fl, hType := ty, hSeqIl := q, hBl := bl, hId := id, mem := m }

theorem idPrefix_zero (il : Nat) (id : Bytes 8) (i : Nat) (hi : i < 8) (h : il ≤ i) :
    (Vector.ofFn fun j : Fin 8 => if j.val < il then id[j] else 0x00)[i] = (0x00 : Byte) := by
  rw [Vector.getElem_ofFn, if_neg (by simpa using h)]

/-- The ends of `HdrEncode` (R132 to R134). -/
theorem hdrEncode_cases (s : State) (secure : Bool) (ftype : Byte) (q : BitVec 4) (id : Bytes 8) (il bl tl : Nat)
    (hsec : secure = true ∨ tl = 1) :
    (∃ fl ty qi b i m, hdrEncode s secure ftype q id il bl tl = .done (s.putHeader fl ty qi b i m) (4 + il) ∧
      BufferOnly s.fbLen.toNat s.mem m ∧ HeaderOk (s.putHeader fl ty qi b i m)) ∨
    (∃ e, e.code ∈ [0x10, 0x11, 0x12, 0x13, (0x14 : Byte)] ∧
      hdrEncode s secure ftype q id il bl tl = .failed s.invalidateHeader e) := by
  by_cases h : encodeVerdict secure ftype il bl tl s.fbLen.toNat = 0x00
  · left
    obtain ⟨g1, g2, g3, g4, g5, g6⟩ := (encodeVerdict_eq_zero _ _ _ _ _ _).mp h
    refine ⟨_, _, _, _, _, _, hdrEncode_done s secure ftype q id il bl tl h, BufferOnly.fbWrite _ _ _ ?_,
      headerOk_encoded _ secure ftype q.toNat il bl tl _ h rfl rfl rfl rfl (fun i hi => idPrefix_zero il id i hi) ?_⟩
    · rw [headerBytes_length _ _ _ _ _ _ g3]; omega
    · cases secure
      · simp at hsec; omega
      · exact g6.2
  · right
    obtain ⟨e, he, hf⟩ := hdrEncode_failed s secure ftype q id il bl tl h
    exact ⟨e, by rw [he]; exact code_mem (encodeVerdict_mem _ _ _ _ _ _) h, hf⟩

/-- The ends of `ENC_HDR` (R131). -/
theorem encHdr_cases (s : State) :
    (∃ r fl ty q b i m, exec .encHdr s = .next { s.putHeader fl ty q b i m with cmd := 0x01, result := r, err := 0x00 } ∧
      BufferOnly s.fbLen.toNat s.mem m ∧ HeaderOk (s.putHeader fl ty q b i m)) ∨
    (∃ e ∈ [0x10, 0x11, 0x12, 0x13, (0x14 : Byte)],
      exec .encHdr s = .next { s with cmd := 0x01, result := 0x00, err := e, hFl := 0x00, scratch := [] }) := by
  have hx : exec .encHdr s = .next (finish (hdrEncode { s with cmd := 0x01 } (s.aSecure == 1#1) s.aFtype s.aSeq s.aId
    s.aIl.toNat s.aBl.toNat s.aTl.toNat)) := rfl
  by_cases h : encodeVerdict (s.aSecure == 1#1) s.aFtype s.aIl.toNat s.aBl.toNat s.aTl.toNat s.fbLen.toNat = 0x00
  · have hc := hdrEncode_cases { s with cmd := 0x01 } (s.aSecure == 1#1) s.aFtype s.aSeq s.aId s.aIl.toNat s.aBl.toNat
      s.aTl.toNat (by
        have := ((encodeVerdict_eq_zero _ _ _ _ _ _).mp h).2.2.2.2.2
        split at this
        · left; assumption
        · right; assumption)
    rcases hc with ⟨fl, ty, q, b, i, m, hd, hm, ho⟩ | ⟨e, he, hf⟩
    · exact Or.inl ⟨_, fl, ty, q, b, i, m, by rw [hx, hd]; rfl, hm, ho.congr rfl rfl rfl rfl rfl⟩
    · exact Or.inr ⟨e.code, he, by rw [hx, hf]; rfl⟩
  · right
    obtain ⟨e, he, hf⟩ := hdrEncode_failed { s with cmd := 0x01 } (s.aSecure == 1#1) s.aFtype s.aSeq s.aId s.aIl.toNat
      s.aBl.toNat s.aTl.toNat h
    exact ⟨e.code, by rw [he]; exact code_mem (encodeVerdict_mem _ _ _ _ _ _) h, by rw [hx, hf]; rfl⟩

/-- The ends of `DEC_HDR` (R136). -/
theorem decHdr_cases (s : State) :
    (∃ r fl ty q b i, exec .decHdr s = .next
        { s.putHeader fl ty q b i s.mem with cmd := 0x02, result := r, err := 0x00, fsm := 1, fsmTrace := 0x03 } ∧
      HeaderOk (s.putHeader fl ty q b i s.mem)) ∨
    (∃ e ∈ raisedBy .decHdr, exec .decHdr s = .next
      { s with cmd := 0x02, result := 0x00, err := e, fsm := 7, fsmTrace := 0x81, hFl := 0x00, scratch := [] }) := by
  have hx : exec .decHdr s = .next (finish (match hdrDecode { s with cmd := 0x02, fsm := 0x00, fsmTrace := 0x01 } with
    | .failed s e => reject s e
    | .done s hl => .done (s.enter .headerValid) hl)) := rfl
  by_cases h : decodeVerdict (fbByte s.mem) s.fbLen.toNat = 0x00
  · left
    have hd := hdrDecode_done { s with cmd := 0x02, fsm := 0x00, fsmTrace := 0x01 } h
    dsimp only at hd
    refine ⟨BitVec.ofNat 8 (4 + (fbByte s.mem 2).toNat % 16), fbByte s.mem 0, fbByte s.mem 1, fbByte s.mem 2,
      fbByte s.mem (3 + (fbByte s.mem 2).toNat % 16),
      Vector.ofFn fun i => if i.val < (fbByte s.mem 2).toNat % 16 then fbByte s.mem (3 + i.val) else 0x00, ?_, headerOk_decoded _ (fbByte s.mem) _ h rfl rfl rfl rfl (fun i hi hj => ?_)⟩
    · rw [hx, hd]; dsimp only
      rw [enter_eq (b := 0x01) (b' := 0x03) (c := 1) rfl rfl rfl]; rfl
    · change (Vector.ofFn _)[i] = _
      rw [Vector.getElem_ofFn, if_neg (by simpa using hj)]
  · right
    obtain ⟨e, he, hf⟩ := hdrDecode_failed { s with cmd := 0x02, fsm := 0x00, fsmTrace := 0x01 } h
    refine ⟨e.code, by rw [he]; exact code_mem (decodeVerdict_mem _ _) h, ?_⟩
    rw [hx, hf]; dsimp only
    rw [reject_eq (b := 0x01) (b' := 0x81) rfl rfl]; rfl

/-! ## The other codec commands -/

/-- `ENC_NS` after its header, for a known frame length. -/
theorem encNsBody_eq (s : State) (hl fl : Nat) (h : s.hFl.toNat = fl) : encNsBody s hl =
    if s.fbLen.toNat < fl + 1 then .failed s.invalidateHeader .frameFit
    else .done { s with
      mem := fbWrite (fbWrite s.mem hl (pbBytes s.mem 0 s.pbLen.toNat)) fl
        [crcSpan (fbWrite s.mem hl (pbBytes s.mem 0 s.pbLen.toNat)) fl] } (fl + 1) := by subst h; rfl

/-- The ends of `ENC_NS` (R153). -/
theorem encNs_cases (s : State) :
    (∃ r fl ty q b i m, exec .encNs s = .next { s.putHeader fl ty q b i m with cmd := 0x03, result := r, err := 0x00 } ∧
      BufferOnly s.fbLen.toNat s.mem m ∧ HeaderOk (s.putHeader fl ty q b i m)) ∨
    (∃ e ∈ [0x10, 0x11, 0x12, (0x13 : Byte)],
      exec .encNs s = .next { s with cmd := 0x03, result := 0x00, err := e, hFl := 0x00, scratch := [] }) ∨
    (∃ m, exec .encNs s = .next
        { s with cmd := 0x03, result := 0x00, err := 0x41, hFl := 0x00, scratch := [], mem := m } ∧
      BufferOnly s.fbLen.toNat s.mem m) := by
  have hx : exec .encNs s = .next (finish (match hdrEncode { s with cmd := 0x03 } false s.aFtype s.aSeq s.aId s.aIl.toNat
      s.pbLen.toNat 1 with
    | .failed s e => .failed s e
    | .done t hl => (encNsBody t hl).revertHeader s)) := rfl
  by_cases h : encodeVerdict false s.aFtype s.aIl.toNat s.pbLen.toNat 1 s.fbLen.toNat = 0x00
  · obtain ⟨g1, g2, g3, g4, g5, g6⟩ := (encodeVerdict_eq_zero _ _ _ _ _ _).mp h
    have hd := hdrEncode_done { s with cmd := 0x03 } false s.aFtype s.aSeq s.aId s.aIl.toNat s.pbLen.toNat 1 h
    dsimp only at hd
    have ho := headerOk_encoded
      (s.putHeader (BitVec.ofNat 8 (3 + s.aIl.toNat + s.pbLen.toNat + 1)) (s.aFtype ||| 0x00)
        (BitVec.ofNat 8 (16 * s.aSeq.toNat + s.aIl.toNat)) (BitVec.ofNat 8 s.pbLen.toNat)
        (Vector.ofFn fun j => if j.val < s.aIl.toNat then s.aId[j] else 0x00) s.mem)
      false s.aFtype s.aSeq.toNat s.aIl.toNat s.pbLen.toNat 1 _ h rfl rfl rfl rfl
      (fun i hi => idPrefix_zero s.aIl.toNat s.aId i hi) (by omega)
    have hfl : (BitVec.ofNat 8 (3 + s.aIl.toNat + s.pbLen.toNat + 1)).toNat = 4 + s.aIl.toNat + s.pbLen.toNat := by
      rw [BitVec.toNat_ofNat, Nat.mod_eq_of_lt] <;> omega
    let m := fbWrite s.mem 0 (headerBytes (3 + s.aIl.toNat + s.pbLen.toNat + 1) (s.aFtype ||| 0x00) s.aSeq.toNat s.aIl.toNat
      s.pbLen.toNat s.aId)
    have hm : BufferOnly s.fbLen.toNat s.mem m :=
      BufferOnly.fbWrite _ _ _ (by rw [headerBytes_length _ _ _ _ _ _ g3]; omega)
    by_cases hfit : s.fbLen.toNat < 4 + s.aIl.toNat + s.pbLen.toNat + 1
    · right; right
      refine ⟨m, ?_, hm⟩
      rw [hx, hd]
      dsimp only
      rw [encNsBody_eq _ _ _ hfl, if_pos hfit]; rfl
    · left
      let m₁ := fbWrite m (4 + s.aIl.toNat) (pbBytes m 0 s.pbLen.toNat)
      refine ⟨BitVec.ofNat 8 (4 + s.aIl.toNat + s.pbLen.toNat + 1), _, _, _, _, _,
        fbWrite m₁ (4 + s.aIl.toNat + s.pbLen.toNat) [crcSpan m₁ (4 + s.aIl.toNat + s.pbLen.toNat)], ?_, ?_,
        ho.congr rfl rfl rfl rfl rfl⟩
      · rw [hx, hd]
        dsimp only
        rw [encNsBody_eq _ _ _ hfl, if_neg hfit]; rfl
      · exact (hm.trans (BufferOnly.fbWrite _ _ _ (by rw [pbBytes_length]; omega))).trans
          (BufferOnly.fbWrite _ _ _ (by simp only [List.length_singleton]; omega))
  · right; left
    obtain ⟨e, he, hf⟩ := hdrEncode_failed { s with cmd := 0x03 } false s.aFtype s.aSeq s.aId s.aIl.toNat s.pbLen.toNat 1 h
    refine ⟨e.code, ?_, by rw [hx, hf]; rfl⟩
    rw [he]
    exact code_mem (encodeVerdict_crc_mem _ _ _ _) h

/-- The ends of `DEC_NS` (R157). -/
theorem decNs_cases (s : State) :
    (∃ r, exec .decNs s = .next { s with cmd := 0x04, result := r, err := 0x00 }) ∨
    (∃ e ∈ [0x14, 0x1A, 0x20, (0x41 : Byte)],
      exec .decNs s = .next { s with cmd := 0x04, result := 0x00, err := e, scratch := [] }) := by
  have hx : exec .decNs s = .next (finish (match decNsError s with
    | some e => .failed { s with cmd := 0x04 } e
    | none => .done { s with cmd := 0x04 } (s.hFl.toNat + 1))) := rfl
  cases he : decNsError s with
  | none => exact Or.inl ⟨_, by rw [hx, he]; rfl⟩
  | some e =>
    refine Or.inr ⟨e.code, ?_, by rw [hx, he]; rfl⟩
    have := firstFailing_mem _ _ he
    simp only [List.map_cons, List.map_nil, List.mem_cons, List.not_mem_nil, or_false] at this
    rcases this with rfl | rfl | rfl | rfl <;> decide

/-- The ends of `PAD32` (R166). -/
theorem pad32_cases (s : State) :
    (∃ r m, exec .pad32 s = .next { s with cmd := 0x05, result := r, err := 0x00, mem := m } ∧
      BufferOnly s.fbLen.toNat s.mem m) ∨
    exec .pad32 s = .next { s with cmd := 0x05, result := 0x00, err := 0x1E, scratch := [] } := by
  have hx : exec .pad32 s = .next (finish (if 31 < s.pbLen.toNat then .failed { s with cmd := 0x05 } .ptLen
    else .done { s with cmd := 0x05, mem := pbWrite s.mem s.pbLen.toNat (padding s.pbLen.toNat) } 32)) := rfl
  by_cases h : 31 < s.pbLen.toNat
  · exact Or.inr (by rw [hx, if_pos h]; rfl)
  · exact Or.inl ⟨_, _, by rw [hx, if_neg h]; rfl,
      BufferOnly.pbWrite _ _ _ (by rw [padding_length _ (by omega)]; omega)⟩

/-- The ends of `UNPAD32` (R168). -/
theorem unpad32_cases (s : State) :
    (∃ r, exec .unpad32 s = .next { s with cmd := 0x06, result := r, err := 0x00 }) ∨
    exec .unpad32 s = .next { s with cmd := 0x06, result := 0x00, err := 0x23, scratch := [] } := by
  have hx : exec .unpad32 s = .next (finish (if 31 < (pbByte s.mem 31).toNat then .failed { s with cmd := 0x06 } .pad
    else .done { s with cmd := 0x06 } (31 - (pbByte s.mem 31).toNat))) := rfl
  by_cases h : 31 < (pbByte s.mem 31).toNat
  · exact Or.inr (by rw [hx, if_pos h]; rfl)
  · exact Or.inl ⟨_, by rw [hx, if_neg h]; rfl⟩

/-- The ends of `RawEncode` (R173). -/
theorem rawEncode_cases (s : State) (id : Bytes 8) :
    (∃ r fl ty q b i m, rawEncode s id = .done { s.putHeader fl ty q b i m with scratch := [] } r ∧
      BufferOnly s.fbLen.toNat s.mem m ∧ HeaderOk (s.putHeader fl ty q b i m)) ∨
    (∃ e, errOf (rawEncodeError s) = e.code ∧ rawEncode s id = .failed s e) ∨
    (∃ e, e.code ∈ [0x10, 0x11, 0x12, (0x14 : Byte)] ∧ rawEncode s id = .failed s.invalidateHeader e) ∨
    (∃ e m, e.code ∈ [0x1E, 0x22, (0x41 : Byte)] ∧
      rawEncode s id = .failed { s with hFl := 0x00, mem := m } e ∧ BufferOnly s.fbLen.toNat s.mem m) := by
  by_cases h : errOf (rawEncodeError s) = 0x00
  swap
  · obtain ⟨e, he, hf⟩ := rawEncode_early s id h
    exact Or.inr (Or.inl ⟨e, he.symm, hf⟩)
  by_cases hv : encodeVerdict true s.aFtype s.aIl.toNat s.encryptedLen 23 s.fbLen.toNat = 0x00
  swap
  · obtain ⟨e, he, hf⟩ := rawEncode_header s id h hv
    exact Or.inr (Or.inr (Or.inl ⟨e, by rw [he]; exact code_mem (encodeVerdict_secure_mem _ _ _ _ (encryptedLen_le s)) hv, hf⟩))
  have f := (encodeVerdict_eq_zero _ _ _ _ _ _).mp hv
  simp only [if_true] at f
  have hl := secureHeader_length s id f.2.2.1
  have hm : BufferOnly s.fbLen.toNat s.mem (s.withSecureHeader id).mem :=
    BufferOnly.fbWrite _ _ _ (by rw [hl]; omega)
  have hp : s.pbLen.toNat ≤ 31 → BufferOnly s.fbLen.toNat s.mem ((s.withSecureHeader id).withPadding).mem := by
    intro hn
    refine hm.trans ?_
    change BufferOnly _ _ (if s.pbLen.toNat = 0 then _ else pbWrite _ s.pbLen.toNat (padding s.pbLen.toNat))
    split
    · exact BufferOnly.refl _ _
    · exact BufferOnly.pbWrite _ _ _ (by rw [padding_length _ hn]; omega)
  obtain ⟨l1, l2, l3⟩ := rawEncode_late s id h hv
  by_cases hfit : s.fbLen.toNat < 27 + s.aIl.toNat + s.encryptedLen
  · exact Or.inr (Or.inr (Or.inr ⟨_, _, by decide, l1 hfit, hm⟩))
  by_cases hn : 31 < s.pbLen.toNat
  · exact Or.inr (Or.inr (Or.inr ⟨_, _, by decide, l2 (by omega) hn, hm⟩))
  cases ha : aeadEnc s.params.aead s.key.toList s.iv.toList (s.secureHeader id) s.plainBlock with
  | none => exact Or.inr (Or.inr (Or.inr ⟨_, _, by decide, l3 (by omega) (by omega) ha, hp (by omega)⟩))
  | some p =>
    obtain ⟨ct, tag⟩ := p
    obtain ⟨lc, lt⟩ := aeadEnc_lengths (by simp) (by simp) ha
    rw [plainBlock_length s (by omega)] at lc
    obtain ⟨m', hm', hd, -, -⟩ := rawEncode_done s id ct tag h hv (by omega) (by omega) ha
    refine Or.inl ⟨_, _, _, _, _, _, m', hd, ?_, headerOk_encoded _ true s.aFtype ((s.iv[11]).toNat % 16) s.aIl.toNat
      s.encryptedLen 23 _ hv rfl rfl rfl ?_ (fun i hi => idPrefix_zero s.aIl.toNat id i hi) (by omega)⟩
    · rw [hm']
      refine (hp (by omega)).trans (BufferOnly.fbWrite _ _ _ ?_)
      simp only [List.length_append, lc, lt, nonceCtr, nonceId, List.length_drop, Vector.length_toList, List.length_singleton]
      omega
    · change BitVec.ofNat 8 (26 + s.aIl.toNat + s.encryptedLen) = _
      congr 1; omega

/-- The codes of `RawEncode`'s own tests (R173). -/
theorem rawEncodeError_codes (s : State) {e : Err} (h : errOf (rawEncodeError s) = e.code) :
    e.code ∈ [0x1E, 0x40, 0x43, (0x44 : Byte)] ∧ (s.ctrl.getLsbD 1 = true → e.code ∈ [0x1E, 0x40, (0x43 : Byte)]) := by
  have hne := e.code_ne_zero
  rw [← h] at hne ⊢
  rw [errOf_rawEncodeError] at hne ⊢
  split
  · exact ⟨by decide, fun _ => by decide⟩
  split
  · rename_i hb; exact ⟨by decide, fun g => absurd (g.symm.trans hb) (by decide)⟩
  split
  · exact ⟨by decide, fun _ => by decide⟩
  split
  · exact ⟨by decide, fun _ => by decide⟩
  · simp_all

/-- The ends of `ENC_RAW` (R172). -/
theorem encRaw_cases (s : State) :
    (∃ r fl ty q b i m, exec .encRaw s = .next
        { s.putHeader fl ty q b i m with cmd := 0x07, result := r, err := 0x00, scratch := [] } ∧
      BufferOnly s.fbLen.toNat s.mem m ∧ HeaderOk (s.putHeader fl ty q b i m)) ∨
    (∃ e ∈ [0x1E, 0x40, 0x43, (0x44 : Byte)],
      exec .encRaw s = .next { s with cmd := 0x07, result := 0x00, err := e, scratch := [] }) ∨
    (∃ e m, e ∈ [0x10, 0x11, 0x12, 0x14, 0x1E, 0x22, (0x41 : Byte)] ∧ exec .encRaw s = .next
        { s with cmd := 0x07, result := 0x00, err := e, hFl := 0x00, scratch := [], mem := m } ∧
      BufferOnly s.fbLen.toNat s.mem m) := by
  have hx : exec .encRaw s = .next (finish (rawEncode { s with cmd := 0x07 } s.aId)) := rfl
  rcases rawEncode_cases { s with cmd := 0x07 } s.aId with ⟨r, fl, ty, q, b, i, m, hd, hm, ho⟩ | ⟨e, he, hf⟩ | ⟨e, he, hf⟩ |
    ⟨e, m, he, hf, hm⟩
  · exact Or.inl ⟨_, fl, ty, q, b, i, m, by rw [hx, hd]; rfl, hm, ho.congr rfl rfl rfl rfl rfl⟩
  · exact Or.inr (Or.inl ⟨e.code, (rawEncodeError_codes _ he).1, by rw [hx, hf]; rfl⟩)
  · refine Or.inr (Or.inr ⟨e.code, s.mem, ?_, by rw [hx, hf]; rfl, BufferOnly.refl _ _⟩)
    simp only [List.mem_cons, List.not_mem_nil, or_false] at he ⊢; tauto
  · refine Or.inr (Or.inr ⟨e.code, m, ?_, by rw [hx, hf]; rfl, hm⟩)
    simp only [List.mem_cons, List.not_mem_nil, or_false] at he ⊢; tauto

/-- The ends of `ENC_SEC` (R190). -/
theorem encSec_cases (s : State) :
    (∃ e ∈ [0x10, 0x1F, (0x40 : Byte)],
      exec .encSec s = .next { s with cmd := 0x09, result := 0x00, err := e, scratch := [] }) ∨
    (∃ r fl ty q b i m iv, exec .encSec s = .next
        { s.putHeader fl ty q b i m with
          cmd := 0x09, result := r, err := 0x00, scratch := [], iv := iv, ctrl := s.ctrl ||| 0x02 } ∧
      BufferOnly s.fbLen.toNat s.mem m ∧ HeaderOk (s.putHeader fl ty q b i m)) ∨
    (∃ e iv, e ∈ [0x1E, 0x40, (0x43 : Byte)] ∧ exec .encSec s = .next
      { s with cmd := 0x09, result := 0x00, err := e, scratch := [], iv := iv, ctrl := s.ctrl ||| 0x02 }) ∨
    (∃ e m iv, e ∈ [0x10, 0x11, 0x12, 0x14, 0x1E, 0x22, (0x41 : Byte)] ∧ exec .encSec s = .next
        { s with
          cmd := 0x09, result := 0x00, err := e, hFl := 0x00, scratch := [], iv := iv, ctrl := s.ctrl ||| 0x02,
          mem := m } ∧
      BufferOnly s.fbLen.toNat s.mem m) := by
  by_cases h : errOf (encSecError { s with cmd := 0x09 }) = 0x00
  · right
    have hx := exec_encSec s h
    rcases rawEncode_cases (State.setNonce { s with cmd := 0x09 } s.txId s.ctrA) s.txId with
      ⟨r, fl, ty, q, b, i, m, hd, hm, ho⟩ | ⟨e, he, hf⟩ | ⟨e, he, hf⟩ | ⟨e, m, he, hf, hm⟩
    · exact Or.inl ⟨_, fl, ty, q, b, i, m, nonceOf s.txId s.ctrA, by rw [hx, hd]; rfl, hm, ho.congr rfl rfl rfl rfl rfl⟩
    · exact Or.inr (Or.inl ⟨e.code, nonceOf s.txId s.ctrA, (rawEncodeError_codes _ he).2 (ctrl_with_iv _).1,
        by rw [hx, hf]; rfl⟩)
    · refine Or.inr (Or.inr ⟨e.code, s.mem, nonceOf s.txId s.ctrA, ?_, by rw [hx, hf]; rfl,
        BufferOnly.refl _ _⟩)
      simp only [List.mem_cons, List.not_mem_nil, or_false] at he ⊢; tauto
    · refine Or.inr (Or.inr ⟨e.code, m, nonceOf s.txId s.ctrA, ?_, by rw [hx, hf]; rfl, hm⟩)
      simp only [List.mem_cons, List.not_mem_nil, or_false] at he ⊢; tauto
  · left
    have hx : exec .encSec s = .next (finish (match encSecError { s with cmd := 0x09 } with
      | some e => .failed { s with cmd := 0x09 } e
      | none => rawEncode (State.setNonce { s with cmd := 0x09 } s.txId s.ctrA) s.txId)) := rfl
    cases he : encSecError { s with cmd := 0x09 } with
    | none => rw [he] at h; exact absurd rfl h
    | some e =>
      refine ⟨e.code, ?_, by rw [hx, he]; rfl⟩
      have := firstFailing_mem _ _ he
      simp only [List.map_cons, List.map_nil, List.mem_cons, List.not_mem_nil, or_false] at this
      rcases this with rfl | rfl | rfl <;> decide

/-- The codes of `RawDecode` (R181). -/
theorem rawDecode_codes {s t : State} {e : Err} (h : rawDecode s = .failed t e) :
    e.code ∈ [0x14, 0x1A, 0x1B, 0x1C, 0x1D, 0x21, 0x40, 0x41, 0x42, 0x43, (0x44 : Byte)] ∧
      (s.ctrl.getLsbD 1 = true → e.code ≠ 0x44) := by
  by_cases h0 : errOf (rawDecodeError s) = 0x00
  · rw [rawDecode_late s h0] at h
    split at h
    · rw [← (Ended.failed.inj h).2]; exact ⟨by decide, fun _ => by decide⟩
    · rw [deliver_eq] at h
      split at h
      · split at h
        · rw [← (Ended.failed.inj h).2]; exact ⟨by decide, fun _ => by decide⟩
        · exact Ended.noConfusion h
      · exact Ended.noConfusion h
  · obtain ⟨x, hx, hr⟩ := rawDecode_early s h0
    have : x = e := (Ended.failed.inj (hr.symm.trans h)).2
    subst this
    rw [hx]
    rw [errOf_rawDecodeError] at h0 ⊢
    split
    · exact ⟨by decide, fun _ => by decide⟩
    split
    · rename_i hb; exact ⟨by decide, fun g => absurd (g.symm.trans hb) (by decide)⟩
    iterate 7
      split
      · exact ⟨by decide, fun _ => by decide⟩
    simp_all

/-- The ends of `DEC_RAW` (R180). -/
theorem decRaw_cases (s : State) :
    (∃ r n m, exec .decRaw s = .next
        { s with cmd := 0x08, result := r, err := 0x00, pbLen := n, scratch := [], mem := m } ∧
      BufferOnly s.fbLen.toNat s.mem m) ∨
    (∃ e ∈ raisedBy .decRaw, exec .decRaw s = .next { s with cmd := 0x08, result := 0x00, err := e, scratch := [] }) := by
  have hx : exec .decRaw s = .next (finish (rawDecode { s with cmd := 0x08 })) := rfl
  cases hr : rawDecode { s with cmd := 0x08 } with
  | failed t e =>
    have ht := rawDecode_failed_state hr
    subst ht
    exact Or.inr ⟨e.code, (rawDecode_codes hr).1, by rw [hx, hr]; rfl⟩
  | done t r =>
    obtain ⟨_, _, _, bs, hb, n, hn, rfl⟩ := rawDecode_done_state hr
    exact Or.inl ⟨_, _, _, by rw [hx, hr]; rfl, BufferOnly.pbWrite _ _ _ (by omega)⟩

/-! ## The counter, the guard and the system commands -/

/-- The ends of `CTR_ADD` (R204). -/
theorem ctrAdd_cases (s : State) :
    (∃ r x, exec .ctrAdd s = .next { s with cmd := 0x0C, result := r, err := 0x00, ctrA := x }) ∨
    exec .ctrAdd s = .next { s with cmd := 0x0C, result := 0x00, err := 0x50, scratch := [] } := by
  have hx : exec .ctrAdd s = .next (finish (if 2 ^ 48 - 1 < ctrValue s.ctrA + s.delta.toNat
    then .failed { s with cmd := 0x0C } .ctrOverflow
    else .done { s with cmd := 0x0C, ctrA := ctrOfNat (ctrValue s.ctrA + s.delta.toNat) } 1)) := rfl
  by_cases h : 2 ^ 48 - 1 < ctrValue s.ctrA + s.delta.toNat
  · exact Or.inr (by rw [hx, if_pos h]; rfl)
  · exact Or.inl ⟨_, _, by rw [hx, if_neg h]; rfl⟩

/-- The ends of `RX_LOOKUP` (R210). -/
theorem rxLookup_cases (s : State) :
    (∃ r k x y, k < s.params.assocN ∧ exec .rxLookup s = .next
      { s with cmd := 0x0D, result := r, err := 0x00, assocIdx := BitVec.ofNat 8 k, nodeId := x, ctrB := y }) ∨
    exec .rxLookup s = .next { s with cmd := 0x0D, result := 0x00, err := 0x11, scratch := [] } ∨
    exec .rxLookup s = .next { s with cmd := 0x0D, result := 0x00, err := 0x30, assocIdx := 0xFF, scratch := [] } := by
  have hx : exec .rxLookup s = .next (finish (if 8 < s.aIl.toNat then .failed { s with cmd := 0x0D } .idLen
    else match lookup s.mem s.params.assocN s.aId s.aIl.toNat with
      | none => .failed { s with cmd := 0x0D, assocIdx := 0xFF } .unknownId
      | some k => .done { s with
          cmd := 0x0D, assocIdx := BitVec.ofNat 8 k, nodeId := assocId s.mem k, ctrB := assocCtr s.mem k } 1)) := rfl
  by_cases h : 8 < s.aIl.toNat
  · exact Or.inr (Or.inl (by rw [hx, if_pos h]; rfl))
  · rw [if_neg h] at hx
    cases hk : lookup s.mem s.params.assocN s.aId s.aIl.toNat with
    | none => exact Or.inr (Or.inr (by rw [hx, hk]; rfl))
    | some k => exact Or.inl ⟨_, k, _, _, lookup_lt hk, by rw [hx, hk]; rfl⟩

/-- The ends of `RX_VALIDATE` (R213). -/
theorem rxValidate_cases (s : State) :
    (∃ r k, k < s.params.assocN ∧
      exec .rxValidate s = .next { s with cmd := 0x0E, result := r, err := 0x00, assocIdx := BitVec.ofNat 8 k }) ∨
    (∃ k, k < s.params.assocN ∧ exec .rxValidate s = .next
      { s with cmd := 0x0E, result := 0x00, err := 0x31, assocIdx := BitVec.ofNat 8 k, scratch := [] }) ∨
    exec .rxValidate s = .next { s with cmd := 0x0E, result := 0x00, err := 0x30, assocIdx := 0xFF, scratch := [] } := by
  have hx : exec .rxValidate s = .next (finish (match lookup s.mem s.params.assocN s.nodeId 8 with
      | none => .failed { s with cmd := 0x0E, assocIdx := 0xFF } .unknownId
      | some k => if isNewer { s with cmd := 0x0E, assocIdx := BitVec.ofNat 8 k } s.ctrA k
          then .done { s with cmd := 0x0E, assocIdx := BitVec.ofNat 8 k } 1
          else .failed { s with cmd := 0x0E, assocIdx := BitVec.ofNat 8 k } .replay)) := rfl
  cases hk : lookup s.mem s.params.assocN s.nodeId 8 with
  | none => exact Or.inr (Or.inr (by rw [hx, hk]; rfl))
  | some k =>
    rw [hk] at hx
    dsimp only at hx
    split at hx
    · exact Or.inl ⟨_, k, lookup_lt hk, hx⟩
    · exact Or.inr (Or.inl ⟨k, lookup_lt hk, hx⟩)

/-- The ends of `RX_COMMIT` (R216). -/
theorem rxCommit_cases (s : State) :
    (∃ r k, k < s.params.assocN ∧ ctrValue (assocCtr s.mem k) < ctrValue s.ctrA ∧ exec .rxCommit s = .next
      { s with
        cmd := 0x0F, result := r, err := 0x00, assocIdx := BitVec.ofNat 8 k, mem := setAssocCtr s.mem k s.ctrA }) ∨
    (∃ e k, e ∈ [0x31, (0x32 : Byte)] ∧ k < s.params.assocN ∧ exec .rxCommit s = .next
      { s with cmd := 0x0F, result := 0x00, err := e, assocIdx := BitVec.ofNat 8 k, scratch := [] }) ∨
    exec .rxCommit s = .next { s with cmd := 0x0F, result := 0x00, err := 0x30, assocIdx := 0xFF, scratch := [] } := by
  have hx : exec .rxCommit s = .next (finish (match lookup s.mem s.params.assocN s.nodeId 8 with
      | none => .failed { s with cmd := 0x0F, assocIdx := 0xFF } .unknownId
      | some k => if (!decide (ctrValue (assocCtr s.mem k) < ctrValue s.ctrA)) = true
          then .failed { s with cmd := 0x0F, assocIdx := BitVec.ofNat 8 k } .replay
          else if (!s.commitOk) = true then .failed { s with cmd := 0x0F, assocIdx := BitVec.ofNat 8 k } .commit
          else .done { s with cmd := 0x0F, assocIdx := BitVec.ofNat 8 k, mem := setAssocCtr s.mem k s.ctrA } 1)) := rfl
  cases hk : lookup s.mem s.params.assocN s.nodeId 8 with
  | none => exact Or.inr (Or.inr (by rw [hx, hk]; rfl))
  | some k =>
    rw [hk] at hx
    dsimp only at hx
    split at hx
    · exact Or.inr (Or.inl ⟨0x31, k, by decide, lookup_lt hk, hx⟩)
    · rename_i hc
      split at hx
      · exact Or.inr (Or.inl ⟨0x32, k, by decide, lookup_lt hk, hx⟩)
      · exact Or.inl ⟨_, k, lookup_lt hk, by simpa using hc, hx⟩

/-- The ends of `DEC_SEC` (R220). -/
theorem decSec_cases (s : State) :
    (∃ r n m k, k < s.params.assocN ∧ BufferOnly s.fbLen.toNat s.mem m ∧
      ctrValue (assocCtr s.mem k) < ctrValue s.frameCtr ∧ exec .decSec s = .next
        { s.checked k with
          result := r, err := 0x00, pbLen := n, scratch := [], fsm := 5, fsmTrace := 0x3F,
          mem := setAssocCtr m k s.frameCtr }) ∨
    (∃ n m k, k < s.params.assocN ∧ BufferOnly s.fbLen.toNat s.mem m ∧ exec .decSec s = .next
        { s.checked k with
          result := 0x00, err := 0x32, pbLen := n, scratch := [], fsm := 7, fsmTrace := 0x9F, mem := m }) ∨
    (∃ e k, e ∈ [0x14, 0x1A, 0x1B, 0x1C, 0x1D, 0x21, 0x40, 0x41, 0x42, (0x43 : Byte)] ∧ k < s.params.assocN ∧
      exec .decSec s = .next { s.checked k with result := 0x00, err := e, fsm := 7, fsmTrace := 0x8F, scratch := [] }) ∨
    (∃ k, k < s.params.assocN ∧ exec .decSec s = .next
      { s.resolved k with result := 0x00, err := 0x31, fsm := 7, fsmTrace := 0x87, scratch := [] }) ∨
    exec .decSec s = .next
      { s with cmd := 0x0A, result := 0x00, err := 0x30, fsm := 7, fsmTrace := 0x83, assocIdx := 0xFF, scratch := [] } ∨
    (∃ e tr, e ∈ [0x14, 0x1A, 0x40, (0x41 : Byte)] ∧ tr ∈ [0x81, (0x83 : Byte)] ∧ exec .decSec s = .next
      { s with cmd := 0x0A, result := 0x00, err := e, fsm := 7, fsmTrace := tr, scratch := [] }) := by
  by_cases h1 : s.hFl = 0x00
  · exact Or.inr (Or.inr (Or.inr (Or.inr (Or.inr ⟨0x1A, 0x81, by decide, by decide, exec_decSec_noHeader s h1⟩))))
  by_cases h2 : errOf (decSecError s) = 0x00
  swap
  · refine Or.inr (Or.inr (Or.inr (Or.inr (Or.inr ⟨_, 0x83, ?_, by decide, exec_decSec_structure s h1 h2⟩))))
    rw [errOf_decSecError s h1] at h2 ⊢
    split
    · decide
    split
    · decide
    split
    · decide
    · simp_all
  cases hk : lookup s.mem s.params.assocN s.hId (s.hSeqIl.toNat % 16) with
  | none => exact Or.inr (Or.inr (Or.inr (Or.inr (Or.inl (exec_decSec_unknown s h1 h2 hk)))))
  | some k =>
    have hlt := lookup_lt hk
    by_cases hc : ctrValue (assocCtr s.mem k) < ctrValue s.frameCtr
    swap
    · exact Or.inr (Or.inr (Or.inr (Or.inl ⟨k, hlt, exec_decSec_replay s k h1 h2 hk (by omega)⟩)))
    cases hr : rawDecode (s.checked k) with
    | failed u e =>
      refine Or.inr (Or.inr (Or.inl ⟨e.code, k, ?_, hlt, exec_decSec_undecoded s k u e h1 h2 hk hc hr⟩))
      obtain ⟨c1, c2⟩ := rawDecode_codes hr
      have c3 := c2 (ctrl_with_iv _).1
      simp only [List.mem_cons, List.not_mem_nil, or_false] at c1 ⊢
      tauto
    | done u r =>
      have hx := exec_decSec_decoded s k u r h1 h2 hk hc hr
      obtain ⟨_, _, _, bs, hb, n, hn, rfl⟩ := rawDecode_done_state hr
      have hm : BufferOnly s.fbLen.toNat s.mem (pbWrite s.mem 0 bs) := BufferOnly.pbWrite _ _ _ (by omega)
      split at hx
      · exact Or.inl ⟨_, _, _, k, hlt, hm, hc, hx⟩
      · exact Or.inr (Or.inl ⟨_, _, k, hlt, hm, hx⟩)

end Sys2Proof.Machine
end

