-- ==== Sys2Proof/Laws/PerInstr.lean ====
section
/-! SUPPORT. The statement made per command: a command decodes from its one-byte code, with whatever follows it, and its code
is the only byte that decodes to it (spec/30_encoding.md R90, R111). -/
namespace Sys2Proof.Laws.DecodesFromItsCode

/-- The command is well-formed, its encoding is one byte, that byte followed by anything decodes to the command and leaves the
rest, and no other byte selects it. -/
def Statement (i : Instr) : Prop :=
  i.wf = true ∧ (encode i).length = 1 ∧ (∀ rest, decode (encode i ++ rest) = .ok (i, rest)) ∧
    ∀ c, commandOf c = some i → c = opcode i

/-- The codes of the map, one by one: what a byte selects has that byte for its code. -/
theorem opcode_of_commandOf (c : Byte) (i : Instr) (h : commandOf c = some i) : c = opcode i := by
  have key : ∀ c : Byte, ∀ i, commandOf c = some i → c = opcode i := by decide +kernel
  exact key c i h

end Sys2Proof.Laws.DecodesFromItsCode

theorem Sys2Proof.Laws.DecodesFromItsCode.nop : Sys2Proof.Laws.DecodesFromItsCode.Statement .nop :=
  ⟨rfl, rfl, fun _ => rfl, fun c h => Sys2Proof.Laws.DecodesFromItsCode.opcode_of_commandOf c _ h⟩

theorem Sys2Proof.Laws.DecodesFromItsCode.encHdr : Sys2Proof.Laws.DecodesFromItsCode.Statement .encHdr :=
  ⟨rfl, rfl, fun _ => rfl, fun c h => Sys2Proof.Laws.DecodesFromItsCode.opcode_of_commandOf c _ h⟩

theorem Sys2Proof.Laws.DecodesFromItsCode.decHdr : Sys2Proof.Laws.DecodesFromItsCode.Statement .decHdr :=
  ⟨rfl, rfl, fun _ => rfl, fun c h => Sys2Proof.Laws.DecodesFromItsCode.opcode_of_commandOf c _ h⟩

theorem Sys2Proof.Laws.DecodesFromItsCode.encNs : Sys2Proof.Laws.DecodesFromItsCode.Statement .encNs :=
  ⟨rfl, rfl, fun _ => rfl, fun c h => Sys2Proof.Laws.DecodesFromItsCode.opcode_of_commandOf c _ h⟩

theorem Sys2Proof.Laws.DecodesFromItsCode.decNs : Sys2Proof.Laws.DecodesFromItsCode.Statement .decNs :=
  ⟨rfl, rfl, fun _ => rfl, fun c h => Sys2Proof.Laws.DecodesFromItsCode.opcode_of_commandOf c _ h⟩

theorem Sys2Proof.Laws.DecodesFromItsCode.pad32 : Sys2Proof.Laws.DecodesFromItsCode.Statement .pad32 :=
  ⟨rfl, rfl, fun _ => rfl, fun c h => Sys2Proof.Laws.DecodesFromItsCode.opcode_of_commandOf c _ h⟩

theorem Sys2Proof.Laws.DecodesFromItsCode.unpad32 : Sys2Proof.Laws.DecodesFromItsCode.Statement .unpad32 :=
  ⟨rfl, rfl, fun _ => rfl, fun c h => Sys2Proof.Laws.DecodesFromItsCode.opcode_of_commandOf c _ h⟩

theorem Sys2Proof.Laws.DecodesFromItsCode.encRaw : Sys2Proof.Laws.DecodesFromItsCode.Statement .encRaw :=
  ⟨rfl, rfl, fun _ => rfl, fun c h => Sys2Proof.Laws.DecodesFromItsCode.opcode_of_commandOf c _ h⟩

theorem Sys2Proof.Laws.DecodesFromItsCode.decRaw : Sys2Proof.Laws.DecodesFromItsCode.Statement .decRaw :=
  ⟨rfl, rfl, fun _ => rfl, fun c h => Sys2Proof.Laws.DecodesFromItsCode.opcode_of_commandOf c _ h⟩

theorem Sys2Proof.Laws.DecodesFromItsCode.encSec : Sys2Proof.Laws.DecodesFromItsCode.Statement .encSec :=
  ⟨rfl, rfl, fun _ => rfl, fun c h => Sys2Proof.Laws.DecodesFromItsCode.opcode_of_commandOf c _ h⟩

theorem Sys2Proof.Laws.DecodesFromItsCode.decSec : Sys2Proof.Laws.DecodesFromItsCode.Statement .decSec :=
  ⟨rfl, rfl, fun _ => rfl, fun c h => Sys2Proof.Laws.DecodesFromItsCode.opcode_of_commandOf c _ h⟩

theorem Sys2Proof.Laws.DecodesFromItsCode.ctrCmp : Sys2Proof.Laws.DecodesFromItsCode.Statement .ctrCmp :=
  ⟨rfl, rfl, fun _ => rfl, fun c h => Sys2Proof.Laws.DecodesFromItsCode.opcode_of_commandOf c _ h⟩

theorem Sys2Proof.Laws.DecodesFromItsCode.ctrAdd : Sys2Proof.Laws.DecodesFromItsCode.Statement .ctrAdd :=
  ⟨rfl, rfl, fun _ => rfl, fun c h => Sys2Proof.Laws.DecodesFromItsCode.opcode_of_commandOf c _ h⟩

theorem Sys2Proof.Laws.DecodesFromItsCode.rxLookup : Sys2Proof.Laws.DecodesFromItsCode.Statement .rxLookup :=
  ⟨rfl, rfl, fun _ => rfl, fun c h => Sys2Proof.Laws.DecodesFromItsCode.opcode_of_commandOf c _ h⟩

theorem Sys2Proof.Laws.DecodesFromItsCode.rxValidate : Sys2Proof.Laws.DecodesFromItsCode.Statement .rxValidate :=
  ⟨rfl, rfl, fun _ => rfl, fun c h => Sys2Proof.Laws.DecodesFromItsCode.opcode_of_commandOf c _ h⟩

theorem Sys2Proof.Laws.DecodesFromItsCode.rxCommit : Sys2Proof.Laws.DecodesFromItsCode.Statement .rxCommit :=
  ⟨rfl, rfl, fun _ => rfl, fun c h => Sys2Proof.Laws.DecodesFromItsCode.opcode_of_commandOf c _ h⟩

theorem Sys2Proof.Laws.DecodesFromItsCode.srst : Sys2Proof.Laws.DecodesFromItsCode.Statement .srst :=
  ⟨rfl, rfl, fun _ => rfl, fun c h => Sys2Proof.Laws.DecodesFromItsCode.opcode_of_commandOf c _ h⟩
end

