-- ==== Sys2Proof/Machine/HostNotation.lean ====
section
/-! DEFINITION. The host-program notation (spec/30_encoding.md R119, R120): its lines and macros, their well-formedness, and
their expansion to host actions. -/
namespace Sys2Proof.Machine

/-- A line of the notation (R119, R120). -/
inductive Line where
  /-- `WR <name>, <byte>`. -/
  | wr (l : Loc) (v : Byte)
  /-- `WR <name>[i..j], b0 b1 ...`: consecutive bytes from the location on. -/
  | wrs (l : Loc) (bs : List Byte)
  /-- `RD <name>`. -/
  | rd (l : Loc)
  /-- `CMD <mnemonic>`. -/
  | cmd (i : Instr)
  /-- `SETKEY b0..b15`. -/
  | setKey (k : Bytes 16)
  /-- `SETIV b0..b11`. -/
  | setIv (n : Bytes 12)
  /-- `WANTPT cap`. -/
  | wantPt (cap : Byte)
  /-- `LOADFRAME b0..b(n-1)`. -/
  | loadFrame (bs : List Byte)
  /-- `LOADBODY b0..b(n-1)`. -/
  | loadBody (bs : List Byte)
  /-- `ASSOCSET k, id8, ctr6`. -/
  | assocSet (k : Nat) (id : Bytes 8) (ctr : Bytes 6)
  /-- `TXNEXT`. -/
  | txNext
  /-- `RXSEC`. -/
  | rxSec
  /-- `RXNS`. -/
  | rxNs
  deriving DecidableEq, Repr

/-- The location `d` places further in the same array; a register that is no array has only itself. -/
def Loc.plus (l : Loc) (d : Nat) : Loc :=
  match l with
  | .aId i => .aId (i + d)
  | .hId i => .hId (i + d)
  | .ctrA i => .ctrA (i + d)
  | .ctrB i => .ctrB (i + d)
  | .iv i => .iv (i + d)
  | .key i => .key (i + d)
  | .txId i => .txId (i + d)
  | .nodeId i => .nodeId (i + d)
  | .fb i => .fb (i + d)
  | .pb i => .pb (i + d)
  | .assocId k j => .assocId k (j + d)
  | .assocCtr k j => .assocCtr k (j + d)
  | l => if d = 0 then l else .reserved

/-- A line is well-formed for `ASSOC_N = n`: its names exist, and what it loads fits its array (R20, R119, R120). -/
def Line.wf (n : Nat) : Line → Bool
  | .wr l _ | .rd l => l.wf n
  | .wrs l bs => (List.range bs.length).all fun d => (l.plus d).wf n
  | .loadFrame bs | .loadBody bs => decide (bs.length ≤ 64)
  | .assocSet k _ _ => decide (k < n)
  | .cmd i => i.wf
  | .setKey _ | .setIv _ | .wantPt _ | .txNext | .rxSec | .rxNs => true

/-- Consecutive byte writes from a location on (R119). -/
def writes (l : Loc) (bs : List Byte) : List HostAction :=
  (List.range bs.length).map fun d => .write (l.plus d).addr (bs.getD d 0x00)

/-- `CMD <mnemonic>` is `WR CMD, <code of mnemonic>` (R119). -/
def issue (i : Instr) : HostAction := .write Loc.cmd.addr (opcode i)

/-- "and, only if `ERR = 0`, `CMD <mnemonic>`" (R120). -/
def issueIfOk (i : Instr) : HostAction := .writeIfOk Loc.cmd.addr (opcode i)

/-- The expansion of a line to host actions (R119, R120). -/
def Line.expand : Line → List HostAction
  | .wr l v => [.write l.addr v]
  | .wrs l bs => writes l bs
  | .rd l => [.read l.addr]
  | .cmd i => [issue i]
  | .setKey k => writes (.key 0) k.toList ++ [.setBits Loc.ctrl.addr 0x01]
  | .setIv n => writes (.iv 0) n.toList ++ [.setBits Loc.ctrl.addr 0x02]
  | .wantPt cap => [.write Loc.pbCap.addr cap, .setBits Loc.ctrl.addr 0x04]
  | .loadFrame bs => writes (.fb 0) bs ++ [.write Loc.fbLen.addr (BitVec.ofNat 8 bs.length)]
  | .loadBody bs => writes (.pb 0) bs ++ [.write Loc.pbLen.addr (BitVec.ofNat 8 bs.length)]
  | .assocSet k id ctr =>
    writes (.assocId k 0) id.toList ++ writes (.assocCtr k 0) ctr.toList ++ [.write (Loc.assocValid k).addr 0x01]
  | .txNext => [.write Loc.delta.addr 0x01, issue .ctrAdd, issueIfOk .encSec]
  | .rxSec => [issue .decHdr, issueIfOk .decSec]
  | .rxNs => [issue .decHdr, issueIfOk .decNs]

/-- `EXPECT <name> = <value>` "states what a following `RD` returns" (R119). -/
def State.expects (s : State) (l : Loc) (v : Byte) : Bool := busRead s l.addr == v

/-- The host has the lines to perform next, in their order. -/
def State.withLines (s : State) (ls : List Line) : State := { s with host := ls.flatMap Line.expand ++ s.host }

end Sys2Proof.Machine
end

