-- ==== Sys2Proof/Tests/Slice0.lean ====
section
/-! SUPPORT. Tests: the words of the opcode map, ill-formed terms, one or two steps per command with the expected values of
spec/95_test_vectors.md, and for every obligation with hypotheses a state and operands that meet them. -/
namespace Sys2Proof.Tests
open Sys2Proof Sys2Proof.Machine

set_option Elab.async false

/-! ## Helpers -/

/-- The next state of an outcome. -/
def nextOf : Host.Outcome State Fault Refusal → State
  | .next t => t
  | .refused _ => State.reset

/-- `ERR` and `RESULT` after a command. -/
def outcome (i : Instr) (s : State) : Byte × Byte := ((nextOf (exec i s)).err, (nextOf (exec i s)).result)

/-- `FB[0 .. n-1]` after a command. -/
def frameAfter (i : Instr) (s : State) (n : Nat) : List Byte := fbBytes (nextOf (exec i s)).mem 0 n

/-- Default parameters with another AEAD engine. -/
def withEngine (k : AeadKind) : Params := { Params.default with aead := k }

/-- Memory with a frame in `FB`. -/
def frameMem (bs : List Byte) : Memory := Memory.writeBytes [] 0x080 bs

/-- Memory with bytes in `PB`. -/
def bodyMem (bs : List Byte) : Memory := Memory.writeBytes [] 0x0C0 bs

/-- The plaintext of the source's secure frame. -/
def p8 : List Byte := [0x7f, 0x11, 0x7b, 0x22, 0x62, 0x22, 0x3a, 0x31]

/-- The sender of the source's secure frame. -/
def idA : Bytes 8 := #v[0xaa, 0xaa, 0xaa, 0xaa, 0x55, 0x55, 0x55, 0x55]

/-- Its message counter. -/
def ctr19 : Bytes 6 := #v[0x00, 0x00, 0x2a, 0x00, 0x03, 0x19]

/-- Its nonce, `IVS` of the spec's vectors. -/
def ivs : Bytes 12 := #v[0xaa, 0xaa, 0xaa, 0xaa, 0x55, 0x55, 0x00, 0x00, 0x2a, 0x00, 0x03, 0x19]

/-- The association table `T3` of section 7.3 on top of a memory. -/
def withT3 (m : Memory) : Memory :=
  [(0x100, [0x01, 0x11, 0x22, 0x33, 0x44, 0x55, 0x66, 0x77, 0x88]),
   (0x110, [0x01, 0xaa, 0xaa, 0xaa, 0xaa, 0x55, 0x55, 0x55, 0x55, 0x00, 0x00, 0x2a, 0x00, 0x03, 0x18]),
   (0x120, [0x01, 0xaa, 0xaa, 0xaa, 0xaa, 0x99, 0x99, 0x99, (0x99 : Byte)])].foldl
    (fun m row => Memory.writeBytes m row.1 row.2) m

/-- Header, padded block or ciphertext, and trailer of the frames of section 1.3. -/
def srcHeader : List Byte := [0x3e, 0xcf, 0x94, 0xaa, 0xaa, 0xaa, 0xaa, 0x20]

/-- `SRC`: the frame of section 1.3 under AES-128-GCM. -/
def srcFrame : List Byte :=
  srcHeader ++
  [0xb3, 0x45, 0xf9, 0x29, 0x69, 0x57, 0x0c, 0xb8, 0x28, 0x66, 0x14, 0xb4, 0xf0, 0x69, 0xb0, 0x08,
   0x71, 0xda, 0xd8, 0xfe, 0x47, 0xc1, 0xc3, 0x53, 0x83, 0x48, 0x88, 0x03, 0x7d, 0x58, 0x75, 0x75] ++
  ctr19.toList ++
  [0x29, 0x3b, 0x31, 0x52, 0xc3, 0x26, 0xd2, 0x6d, 0xd0, 0x8d, 0x70, 0x1e, 0x4b, 0x68, 0x0d, 0xcb, 0x80]

/-- `NUL`: the frame of section 1.3 under the null double, with the count byte `z`. -/
def nulFrame (z : Byte) : List Byte :=
  srcHeader ++ p8 ++ List.replicate 23 0x00 ++ [z] ++ ctr19.toList ++ ivs.toList ++ [0x00, 0x00, 0x00, 0x00, 0x80]

/-- The null double's frame without a body (fl 30, il 4). -/
def nulEmpty : List Byte :=
  [0x1e, 0xcf, 0x94, 0xaa, 0xaa, 0xaa, 0xaa, 0x00] ++ ctr19.toList ++ ivs.toList ++ [0x00, 0x00, 0x00, 0x00, 0x80]

/-- The transmitter of section 5.1. -/
def sender (k : AeadKind) : State :=
  { State.reset with
    params := withEngine k, ctrl := 0x01, txId := idA, ctrA := ctr19, aFtype := 0x4F, aIl := 4, pbLen := 8, fbLen := 64,
    mem := bodyMem p8 }

/-- The transmitter of section 5.2, with the nonce loaded: ID length `il`, plaintext length `n`, capacity `cap`. -/
def rawSender (il n cap : Nat) : State :=
  { sender .nullDouble with
    ctrl := 0x03, iv := ivs, aId := idA, aIl := BitVec.ofNat 8 il, pbLen := BitVec.ofNat 8 n, fbLen := BitVec.ofNat 8 cap }

/-- The receiver of sections 5.3 and 7.4 after `DEC_HDR` of a frame with the header of section 1.3. -/
def receiver (k : AeadKind) (frame : List Byte) : State :=
  { State.reset with
    params := withEngine k, ctrl := 0x05, pbCap := 32, fbLen := 63, fsm := 1, fsmTrace := 0x03, hFl := 0x3e, hType := 0xcf,
    hSeqIl := 0x94, hBl := 0x20, hId := #v[0xaa, 0xaa, 0xaa, 0xaa, 0x00, 0x00, 0x00, 0x00],
    mem := withT3 (frameMem frame) }

/-- The same after `DEC_HDR` of the frame without a body. -/
def emptyReceiver : State := { receiver .nullDouble nulEmpty with hFl := 0x1e, hBl := 0x00, fbLen := 31 }

/-- The receiver of section 5.3: the nonce loaded by the host. -/
def rawReceiver (frame : List Byte) : State := { receiver .nullDouble frame with ctrl := 0x07, iv := ivs }

/-- A host that presents the bytes `bs` to `DEC_HDR`, with `FB_LEN = n`. -/
def presented (bs : List Byte) (n : Nat) : State := { State.reset with fbLen := BitVec.ofNat 8 n, mem := frameMem bs }

/-- The arguments of `ENC_HDR` (section 2.1). -/
def headerArgs (cap : Nat) (sec : BitVec 1) (ftype : Byte) (seq il bl tl : Nat) : State :=
  { State.reset with
    fbLen := BitVec.ofNat 8 cap, aSecure := sec, aFtype := ftype, aSeq := BitVec.ofNat 4 seq, aIl := BitVec.ofNat 8 il,
    aBl := BitVec.ofNat 8 bl, aTl := BitVec.ofNat 8 tl, aId := #v[0x01, 0x02, 0x03, 0x04, 0x05, 0x06, 0x07, 0x08] }

/-- The arguments of `ENC_NS` (section 3.2). -/
def nsArgs (cap il : Nat) (body : List Byte) : State :=
  { headerArgs cap 0 0x4F 0 il 0 0 with
    aId := #v[0x80, 0x81, 0x82, 0x83, 0x84, 0x85, 0x86, 0x87], pbLen := BitVec.ofNat 8 body.length, mem := bodyMem body }

/-- A received non-secure frame after `DEC_HDR` (section 3.3): il 2, bl 2. -/
def nsReceived (bs : List Byte) : State :=
  { presented bs 9 with hFl := 0x08, hType := bs.getD 1 0x00, hSeqIl := 0x02, hBl := 0x02 }

/-! ## Decoding: the words of the opcode map (R111), and the reserved codes (R112) -/

theorem test_decode_words :
    [0x00, 0x01, 0x02, 0x03, 0x04, 0x05, 0x06, 0x07, 0x08, 0x09, 0x0A, 0x0B, 0x0C, 0x0D, 0x0E, 0x0F, (0xFF : Byte)].map
      (fun c => commandOf c) =
    [some .nop, some .encHdr, some .decHdr, some .encNs, some .decNs, some .pad32, some .unpad32, some .encRaw, some .decRaw,
     some .encSec, some .decSec, some .ctrCmp, some .ctrAdd, some .rxLookup, some .rxValidate, some .rxCommit,
     some .srst] := by decide
theorem test_decode_encRaw : decodeTableWord 8 0b00000111 = some .encRaw := by decide
theorem test_decode_reserved : (commandOf 0x10).isNone ∧ (commandOf 0xFE).isNone ∧ (commandOf 0x55).isNone := by decide
theorem test_decode_no_byte : decodeTableWord 0 0 = none := by decide
theorem test_encode : encode .srst = [0xFF] ∧ encode .rxCommit = [0x0F] := by decide

/-! ## Ill-formed terms, each refused by its check -/

theorem test_wf_params_zero : Params.wf { Params.default with assocN := 0 } = false := by decide
theorem test_wf_params_large : Params.wf { Params.default with assocN := 65 } = false := by decide
theorem test_wf_params_ends :
    Params.wf { Params.default with assocN := 1 } = true ∧ Params.wf { Params.default with assocN := 64 } = true := by decide
theorem test_wf_command : Instr.wf .decSec = true := by decide
theorem test_wf_location :
    Loc.wf 8 (.aId 8) = false ∧ Loc.wf 8 (.ctrA 6) = false ∧ Loc.wf 8 (.iv 12) = false ∧ Loc.wf 8 (.key 16) = false ∧
      Loc.wf 8 (.fb 64) = false ∧ Loc.wf 8 (.assocValid 8) = false ∧ Loc.wf 8 (.assocId 0 8) = false ∧
      Loc.wf 8 (.assocCtr 0 6) = false ∧ Loc.wf 8 .reserved = false := by decide
theorem test_wf_line_span : Line.wf 8 (.wrs (.ctrA 5) [0x00, 0x00]) = false := by decide
theorem test_wf_line_no_array : Line.wf 8 (.wrs .aIl [0x00, 0x00]) = false := by decide
theorem test_wf_line_frame : Line.wf 8 (.loadFrame (List.replicate 65 0x00)) = false := by decide
theorem test_wf_line_body : Line.wf 8 (.loadBody (List.replicate 65 0x00)) = false := by decide
theorem test_wf_line_entry : Line.wf 8 (.assocSet 8 idA ctr19) = false := by decide
theorem test_wf_line_ok : Line.wf 8 (.assocSet 7 idA ctr19) = true := by decide

/-! ## The bus (R65, R70) and the notation (R119, R120) -/

theorem test_bus_saturates : busRead (nextOf (busWrite State.reset 0x00E 0xFF)) 0x00E = 64 := by decide +kernel
theorem test_bus_map :
    locOf 8 0x02E = .hToff ∧ locOf 8 0x0BF = .fb 63 ∧ locOf 8 0x0C0 = .pb 0 ∧ locOf 8 0x119 = .assocCtr 1 0 ∧
      locOf 8 0x17F = .reserved ∧ locOf 8 0x180 = .reserved ∧ locOf 9 0x180 = .assocValid 8 := by decide +kernel
/-- P2 line 17: `WANTPT 32` on a `CTRL` of 0x03 writes 0x07. -/
theorem test_wantPt : (nextOf (perform { State.reset with ctrl := 0x03 } (.setBits 0x006 0x04))).ctrl = 0x07 := by decide +kernel
theorem test_txNext_stops :
    (nextOf (perform { State.reset with err := 0x50 } (issueIfOk .encSec))).cmd = 0x00 := by decide +kernel
theorem test_setIv_line : (Line.expand (.setIv ivs)).getLast? = some (.setBits 0x006 0x02) := by decide +kernel
theorem test_hardReset : (nextOf (perform { sender .nullDouble with assocIdx := 1 } .hardReset)).assocIdx = 0xFF := by decide +kernel
theorem test_commit_ok_pin : (nextOf (perform State.reset (.driveCommitOk false))).commitOk = false := by decide +kernel
theorem test_fetch : (nextOf (step (State.reset.withFetchWord 8 0x05))).result = 32 := by decide +kernel

/-! ## The commands, against spec/95_test_vectors.md -/

/-- Section 8: after the failed `DEC_HDR`. -/
theorem test_nop : outcome .nop { State.reset with err := 0x17, fsm := 7 } = (0x00, 0x00) ∧
    (nextOf (exec .nop { State.reset with err := 0x17, fsm := 7 })).fsm = 7 := by decide +kernel
/-- Section 2.1, "il 8, secure". -/
theorem test_encHdr :
    outcome .encHdr (headerArgs 12 1 0x01 0xF 8 0 23) = (0x00, 12) ∧
    frameAfter .encHdr (headerArgs 12 1 0x01 0xF 8 0 23) 13 =
      [0x22, 0x81, 0xf8, 0x01, 0x02, 0x03, 0x04, 0x05, 0x06, 0x07, 0x08, 0x00, 0x00] := by decide +kernel
/-- Section 2.1, "secure il 6 bl 32 tl 23". -/
theorem test_encHdr_trailer : outcome .encHdr (headerArgs 64 1 0x4F 9 6 32 23) = (0x14, 0x00) := by decide +kernel
/-- Section 2.2, "secure, tl 2". -/
theorem test_decHdr : outcome .decHdr (presented [0x08, 0xcf, 0x02, 0x80, 0x81, 0x01, 0x00, 0x01, 0x23] 9) = (0x00, 6) ∧
    (nextOf (exec .decHdr (presented [0x08, 0xcf, 0x02, 0x80, 0x81, 0x01, 0x00, 0x01, 0x23] 9))).hToff = 7 := by decide +kernel
/-- Section 2.2, "last byte ff". -/
theorem test_decHdr_last : outcome .decHdr (presented [0x08, 0x4f, 0x02, 0x80, 0x81, 0x02, 0x00, 0x01, 0xff] 9) = (0x19, 0x00) ∧
    (nextOf (exec .decHdr (presented [0x08, 0x4f, 0x02, 0x80, 0x81, 0x02, 0x00, 0x01, 0xff] 9))).fsmTrace = 0x81 := by decide +kernel
/-- Section 3.2, "second example". -/
theorem test_encNs : outcome .encNs (nsArgs 64 2 p8) = (0x00, 15) ∧ frameAfter .encNs (nsArgs 64 2 p8) 15 =
    [0x0e, 0x4f, 0x02, 0x80, 0x81, 0x08, 0x7f, 0x11, 0x7b, 0x22, 0x62, 0x22, 0x3a, 0x31, 0x61] := by decide +kernel
/-- Section 3.2, "one byte short"; and R264: the type byte of an earlier header stays. -/
theorem test_encNs_fit : outcome .encNs (nsArgs 8 2 [0x00, 0x01]) = (0x41, 0x00) ∧
    frameAfter .encNs (nsArgs 8 2 [0x00, 0x01]) 7 = [0x08, 0x4f, 0x02, 0x80, 0x81, 0x02, 0x00] ∧
    (nextOf (exec .encNs { nsArgs 8 2 [0x00, 0x01] with hType := 0xCF, hFl := 0x3E })).hType = 0xCF := by decide +kernel
/-- Section 3.3, "secure flag set, tl 1, right CRC". -/
theorem test_decNs : outcome .decNs (nsReceived [0x08, 0xcf, 0x02, 0x80, 0x81, 0x02, 0x00, 0x01, 0x78]) = (0x00, 9) := by decide +kernel
/-- Section 3.3, "seq changed". -/
theorem test_decNs_crc : outcome .decNs { nsReceived [0x08, 0x4f, 0x12, 0x80, 0x81, 0x02, 0x00, 0x01, 0x23] with
    hSeqIl := 0x12 } = (0x20, 0x00) := by decide +kernel
/-- Section 4, `PB_LEN` 8. -/
theorem test_pad32 : pbBytes (nextOf (exec .pad32 { State.reset with
    pbLen := 8, mem := bodyMem ((List.range 33).map fun i => BitVec.ofNat 8 (0xC0 + i)) })).mem 0 33 =
    [0xc0, 0xc1, 0xc2, 0xc3, 0xc4, 0xc5, 0xc6, 0xc7] ++ List.replicate 23 0x00 ++ [0x17, 0xe0] := by decide +kernel
theorem test_pad32_long : outcome .pad32 { State.reset with pbLen := 32 } = (0x1E, 0x00) := by decide +kernel
/-- Section 4, count bytes 0x17 and 0x20. -/
theorem test_unpad32 : outcome .unpad32 { State.reset with mem := Memory.write [] 0x0DF 0x17 } = (0x00, 8) := by decide +kernel
theorem test_unpad32_pad : outcome .unpad32 { State.reset with mem := Memory.write [] 0x0DF 0x20 } = (0x23, 0x00) := by decide +kernel
/-- Section 1.3, the null double's frame from `ENC_RAW`. -/
theorem test_encRaw : outcome .encRaw (rawSender 4 8 64) = (0x00, 63) ∧
    frameAfter .encRaw (rawSender 4 8 64) 63 = nulFrame 0x17 := by decide +kernel
/-- Section 5.2, "`PB_LEN` 32": the header is written. -/
theorem test_encRaw_long : outcome .encRaw (rawSender 4 32 64) = (0x1E, 0x00) ∧
    frameAfter .encRaw (rawSender 4 32 64) 8 = srcHeader := by decide +kernel
/-- Section 5.3, "count byte 0x00". -/
theorem test_decRaw : outcome .decRaw (rawReceiver (nulFrame 0x00)) = (0x00, 63) ∧
    pbBytes (nextOf (exec .decRaw (rawReceiver (nulFrame 0x00)))).mem 0 31 = p8 ++ List.replicate 23 0x00 := by decide +kernel
/-- Section 5.3, "count byte 0x00, capacity 30". -/
theorem test_decRaw_cap : outcome .decRaw { rawReceiver (nulFrame 0x00) with pbCap := 30 } = (0x42, 0x00) := by decide +kernel
/-- Sections 1.3 and 5.1, "source vector", under AES-128-GCM. -/
theorem test_encSec_aes : frameAfter .encSec (sender .aes128Gcm) 63 = srcFrame := by decide +kernel
/-- Section 5.1, "il 6 with body". -/
theorem test_encSec_long : outcome .encSec { sender .aes128Gcm with aIl := 6 } = (0x14, 0x00) := by decide +kernel
/-- Section 7.4, `SRC`, under AES-128-GCM. -/
theorem test_decSec_aes : pbBytes (nextOf (exec .decSec (receiver .aes128Gcm srcFrame))).mem 0 8 = p8 := by decide +kernel
/-- Section 7.4, "`COMMIT_OK = 0`". -/
theorem test_decSec_commit : outcome .decSec { receiver .nullDouble (nulFrame 0x17) with commitOk := false } = (0x32, 0x00) ∧
    (nextOf (exec .decSec { receiver .nullDouble (nulFrame 0x17) with commitOk := false })).fsmTrace = 0x9F := by decide +kernel
/-- Section 7.1: unsigned, and the least significant byte last. -/
theorem test_ctrCmp : outcome .ctrCmp { State.reset with
    ctrA := #v[0x80, 0, 0, 0, 0, 0], ctrB := #v[0x7f, 0xff, 0xff, 0xff, 0xff, 0xff] } = (0x00, 0x01) := by decide +kernel
theorem test_ctrCmp_less : outcome .ctrCmp { State.reset with
    ctrA := #v[0, 0, 0, 0, 0, 0xff], ctrB := #v[0, 0, 0, 0, 1, 0] } = (0x00, 0xFF) := by decide +kernel
/-- Section 7.2. -/
theorem test_ctrAdd : (nextOf (exec .ctrAdd { State.reset with
    ctrA := #v[0x00, 0xff, 0xff, 0xff, 0xff, 0xff], delta := 255 })).ctrA = #v[0x01, 0x00, 0x00, 0x00, 0x00, 0xfe] := by decide +kernel
theorem test_ctrAdd_overflow : outcome .ctrAdd { State.reset with
    ctrA := #v[0xff, 0xff, 0xff, 0xff, 0xff, 0x01], delta := 255 } = (0x50, 0x00) := by decide +kernel
/-- Section 7.3, "2-byte prefix". -/
theorem test_rxLookup : (nextOf (exec .rxLookup { State.reset with aIl := 2, aId := idA, mem := withT3 [] })).assocIdx = 1 ∧
    (nextOf (exec .rxLookup { State.reset with aIl := 2, aId := idA, mem := withT3 [] })).nodeId = idA := by decide +kernel
theorem test_rxLookup_none : outcome .rxLookup { State.reset with aIl := 0 } = (0x30, 0x00) := by decide +kernel
/-- Section 7.3: a greater counter, and the equal one. -/
theorem test_rxValidate : outcome .rxValidate { State.reset with nodeId := idA, ctrA := ctr19, mem := withT3 [] } = (0x00, 0x01) := by
  decide +kernel
theorem test_rxValidate_equal : outcome .rxValidate { State.reset with
    nodeId := idA, ctrA := #v[0x00, 0x00, 0x2a, 0x00, 0x03, 0x18], mem := withT3 [] } = (0x31, 0x00) := by decide +kernel
theorem test_rxCommit : assocCtr (nextOf (exec .rxCommit { State.reset with
    nodeId := idA, ctrA := ctr19, mem := withT3 [] })).mem 1 = ctr19 := by decide +kernel
theorem test_rxCommit_refused : outcome .rxCommit { State.reset with
    nodeId := idA, ctrA := ctr19, mem := withT3 [], commitOk := false } = (0x32, 0x00) := by decide +kernel
/-- P5: the table survives a soft reset, the frame buffer does not. -/
theorem test_srst : assocId (nextOf (exec .srst (receiver .nullDouble srcFrame))).mem 1 = idA ∧
    frameAfter .srst (receiver .nullDouble srcFrame) 63 = List.replicate 63 0x00 := by decide +kernel
/-- P5: a reserved code. -/
theorem test_reserved : (nextOf (busWrite State.reset 0x000 0x55)).err = 0x7F := by decide +kernel

/-! ## Witnesses: the hypotheses of the obligations are met, each clause at the ends of its range -/

theorem witness_ReservedCodeOnlyReports :
    (0x10 ≤ (0x10 : Byte).toNat ∧ (0x10 : Byte).toNat ≤ 0xFE) ∧ (0x10 ≤ (0xFE : Byte).toNat ∧ (0xFE : Byte).toNat ≤ 0xFE) := by decide

theorem witness_StepRunsTheDecodedCommand :
    (∃ (s : State) (c : Byte) (i : Instr) (rest : List HostAction), s.params.wf = true ∧
      s.host = .write 0x000 c :: rest ∧ decode [c] = .ok (i, []) ∧ i.wf = true) ∧
    (∃ (s : State) (w : Nat) (i : Instr), s.params.wf = true ∧ decodeTableWord 8 w = some i) :=
  ⟨⟨{ State.reset with host := [.write 0x000 0x05, .hardReset] }, 0x05, .pad32, [.hardReset], by decide, rfl, rfl, rfl⟩,
    State.reset, 0xFF, .srst, by decide, by decide⟩

/-- Each kind of pending action, and none, with parameters in range; and the two values next to the range of `ASSOC_N`. -/
theorem witness_HostActionSteps :
    State.reset.params.wf = true ∧ State.reset.host = [] ∧
    (∀ a ∈ [HostAction.read 0xFFF, .write 0x17E 0xFF, .setBits 0x100 0x01, .setBits 0x006 0xFF, .driveCommitOk false],
      ∃ s : State, s.params.wf = true ∧ s.host = a :: []) ∧
    (∃ s : State, s.params.assocN = 0) ∧ (∃ s : State, s.params.assocN = 65) :=
  ⟨by decide, rfl, fun a _ => ⟨{ State.reset with host := [a] }, show State.reset.params.wf = true by decide, rfl⟩,
    ⟨{ State.reset with params := { Params.default with assocN := 0 } }, rfl⟩,
    ⟨{ State.reset with params := { Params.default with assocN := 65 } }, rfl⟩⟩

theorem witness_ConditionalCommandNeedsSuccess :
    (∃ (s : State) (c : Byte) (i : Instr) (rest : List HostAction), s.params.wf = true ∧
      s.host = .writeIfOk 0x000 c :: rest ∧ decode [c] = .ok (i, []) ∧ s.err ≠ 0x00) ∧
    (∃ (s : State) (c : Byte) (i : Instr) (rest : List HostAction), s.params.wf = true ∧
      s.host = .writeIfOk 0x000 c :: rest ∧ decode [c] = .ok (i, []) ∧ s.err = 0x00) :=
  ⟨⟨{ State.reset with host := [issueIfOk .encSec], err := 0x50 }, 0x09, .encSec, [], by decide, rfl, rfl, by decide⟩,
    ⟨{ State.reset with host := [issueIfOk .decSec] }, 0x0A, .decSec, [], by decide, rfl, rfl, by decide⟩⟩

theorem witness_AddressMapIsOneToOne :
    Loc.wf 64 (.assocCtr 63 5) = true ∧ Loc.wf 0 .cmd = true ∧ Loc.wf 1 (.assocValid 0) = true ∧ Loc.wf 1 (.fb 63) = true := by decide

/-- The first and the last address of every clause, for `ASSOC_N = 8`, and what the map names there. -/
theorem witness_BusWriteStoresAtItsAddressOnly :
    State.reset.params.wf = true ∧ State.reset.params.assocN = 8 ∧
    ∀ x ∈ ([(0x006, .ctrl), (0x009, .aSecure), (0x00A, .aSeq), (0x00E, .fbLen), (0x010, .pbCap), (0x008, .aFtype),
        (0x00B, .aIl), (0x011, .delta), (0x018, .aId 0), (0x01F, .aId 7), (0x030, .ctrA 0), (0x035, .ctrA 5),
        (0x038, .ctrB 0), (0x03D, .ctrB 5), (0x040, .iv 0), (0x04B, .iv 11), (0x060, .txId 0), (0x06F, .nodeId 7),
        (0x080, .fb 0), (0x0FF, .pb 63), (0x050, .key 0), (0x05F, .key 15), (0x100, .assocValid 0), (0x101, .assocId 0 0),
        (0x10E, .assocCtr 0 5), (0x170, .assocValid 7), (0x17E, .assocCtr 7 5), (0x001, .status), (0x005, .fsmTrace),
        (0x007, .assocIdx), (0x020, .hId 0), (0x02E, .hToff)] : List (BusAddr × Loc)),
      x.1 ≠ 0x000 ∧ locOf 8 x.1 = x.2 := by decide +kernel

/-- The ends of the reserved and unmapped ranges. -/
theorem witness_BusWriteStoresAtItsAddressOnly_reserved :
    ([0x012, 0x017, 0x02F, 0x036, 0x037, 0x03E, 0x03F, 0x04C, 0x04F, 0x070, 0x07F, 0x10F, 0x17F, 0x180, 0xFFF] :
      List BusAddr).map (locOf 8) = List.replicate 15 .reserved := by decide +kernel

/-- The reset state with other header registers satisfies the invariant. -/
theorem inv_of_header (f ty q b : Byte)
    (h : f = 0x00 ∨ HeaderOk { State.reset with hFl := f, hType := ty, hSeqIl := q, hBl := b }) :
    Inv { State.reset with hFl := f, hType := ty, hSeqIl := q, hBl := b } where
  params := by dsimp only; decide
  memWf := by dsimp only; decide
  storage := by intro c hc; exact absurd hc (List.not_mem_nil)
  validBit := by intro k; exact Nat.zero_le _
  scratch := rfl
  fbLen := by dsimp only; decide
  pbCap := by dsimp only; decide
  ctrl := by dsimp only; decide
  header := h
  attempt := by dsimp only; decide
  err := by dsimp only; decide
  assocIdx := Or.inl rfl

/-- The least and the greatest frame length. -/
theorem witness_ComputedViewsFollowTheRegisters :
    (∃ s : State, Inv s ∧ s.hFl = 0x00) ∧ (∃ s : State, Inv s ∧ s.hFl = 0x04) ∧ (∃ s : State, Inv s ∧ s.hFl = 0x3F) := by
  refine ⟨⟨_, inv_of_header 0x00 0x00 0x00 0x00 (Or.inl rfl), rfl⟩, ⟨_, inv_of_header 0x04 0x01 0x00 0x00 (Or.inr ?_), rfl⟩,
    ⟨_, inv_of_header 0x3F 0xFE 0xF8 0x33 (Or.inr ?_), rfl⟩⟩ <;>
  constructor <;> decide

theorem witness_ResetReads :
    (∃ p : Params, p.wf = true ∧ p.assocN = 1) ∧ (∃ p : Params, p.wf = true ∧ p.assocN = 64) :=
  ⟨⟨{ Params.default with assocN := 1 }, by decide, rfl⟩, ⟨{ Params.default with assocN := 64 }, by decide, rfl⟩⟩

theorem witness_EveryStepKeepsTheInvariant : ∃ s t : State, Inv s ∧ step s = .next t :=
  ⟨State.reset, State.reset, inv_of_header 0x00 0x00 0x00 0x00 (Or.inl rfl), rfl⟩

/-- Also for `PlainCommandsDoNotDependOnTheKey`, `StoredCountersOnlyIncrease` and `CommandsStayInsideTheBuffers`. -/
theorem witness_CommandsKeepTheArgumentRegisters :
    ∃ (i : Instr) (s t : State), i ≠ .srst ∧ i ∉ [Instr.encRaw, .decRaw, .encSec, .decSec] ∧ exec i s = .next t :=
  ⟨.rxLookup, State.reset, _, by decide, by decide, rfl⟩

theorem witness_ReceiveStateWriters :
    (∃ (i : Instr) (s t : State), exec i s = .next t ∧ i ≠ .decHdr ∧ i ≠ .decSec ∧ i ≠ .srst) ∧
    (∃ s t : State, exec .srst s = .next t) ∧
    (∃ s t : State, exec .decHdr s = .next t ∧ t.err = 0x00) ∧ (∃ s t : State, exec .decHdr s = .next t ∧ t.err ≠ 0x00) ∧
    (∃ s t : State, exec .decSec s = .next t ∧ t.err = 0x00) ∧ (∃ s t : State, exec .decSec s = .next t ∧ t.err ≠ 0x00) ∧
    (∃ (s t : State) (a : BusAddr) (v : Byte), locOf s.params.assocN a ≠ .cmd ∧ busWrite s a v = .next t) :=
  ⟨⟨.rxCommit, State.reset, _, rfl, by decide, by decide, by decide⟩, ⟨State.reset, _, rfl⟩,
    ⟨presented srcHeader 8, _, rfl, by decide +kernel⟩, ⟨State.reset, _, rfl, by decide +kernel⟩,
    ⟨receiver .nullDouble (nulFrame 0x17), _, rfl, by decide +kernel⟩, ⟨State.reset, _, rfl, by decide +kernel⟩,
    ⟨State.reset, _, 0x004, 0xFF, by decide +kernel, rfl⟩⟩

/-- Each of the five commands succeeds somewhere; also for `HeaderRegisterWriters`. -/
theorem witness_SuccessfulCodecLeavesAValidHeader :
    (∃ s t : State, exec .encHdr s = .next t ∧ t.err = 0x00) ∧ (∃ s t : State, exec .decHdr s = .next t ∧ t.err = 0x00) ∧
    (∃ s t : State, exec .encNs s = .next t ∧ t.err = 0x00) ∧ (∃ s t : State, exec .encRaw s = .next t ∧ t.err = 0x00) ∧
    (∃ s t : State, exec .encSec s = .next t ∧ t.err = 0x00) :=
  ⟨⟨headerArgs 64 0 0x4F 0 8 51 1, _, rfl, by decide +kernel⟩, ⟨presented srcHeader 8, _, rfl, by decide +kernel⟩,
    ⟨nsArgs 5 0 [], _, rfl, by decide +kernel⟩, ⟨rawSender 5 31 64, _, rfl, by decide +kernel⟩,
    ⟨sender .nullDouble, _, rfl, by decide +kernel⟩⟩

/-- Each of the five commands fails somewhere, the secure two before and after their header encode. -/
theorem witness_HeaderRegisterWriters :
    (∃ (i : Instr) (s t : State), exec i s = .next t ∧ i ∉ [Instr.encHdr, .decHdr, .encNs, .encRaw, .encSec, .srst]) ∧
    (∃ s t : State, exec .encHdr s = .next t ∧ t.err ≠ 0x00) ∧ (∃ s t : State, exec .decHdr s = .next t ∧ t.err ≠ 0x00) ∧
    (∃ s t : State, exec .encNs s = .next t ∧ t.err ≠ 0x00) ∧
    (∃ s t : State, exec .encRaw s = .next t ∧ t.err = 0x43) ∧ (∃ s t : State, exec .encRaw s = .next t ∧ t.err = 0x41) ∧
    (∃ s t : State, exec .encSec s = .next t ∧ t.err = 0x1F) :=
  ⟨⟨.decSec, State.reset, _, rfl, by decide⟩, ⟨State.reset, _, rfl, by decide +kernel⟩, ⟨State.reset, _, rfl, by decide +kernel⟩,
    ⟨State.reset, _, rfl, by decide +kernel⟩, ⟨State.reset, _, rfl, by decide +kernel⟩,
    ⟨rawSender 4 8 62, _, rfl, by decide +kernel⟩, ⟨{ sender .nullDouble with aIl := 7 }, _, rfl, by decide +kernel⟩⟩

/-- A stored counter does change, in both commands that may. -/
theorem witness_StoredCountersOnlyIncrease :
    (∃ s t : State, exec .rxCommit s = .next t ∧ t.err = 0x00 ∧ assocCtr t.mem 1 ≠ assocCtr s.mem 1) ∧
    (∃ s t : State, exec .decSec s = .next t ∧ t.err = 0x00 ∧ assocCtr t.mem 1 ≠ assocCtr s.mem 1) ∧
    (∃ s t : State, exec .rxCommit s = .next t ∧ t.err ≠ 0x00) :=
  ⟨⟨{ State.reset with nodeId := idA, ctrA := ctr19, mem := withT3 [] }, _, rfl, by decide +kernel, by decide +kernel⟩,
    ⟨receiver .nullDouble (nulFrame 0x17), _, rfl, by decide +kernel, by decide +kernel⟩,
    ⟨State.reset, _, rfl, by decide +kernel⟩⟩

theorem witness_NopOnlyClearsTheOutcome : ∃ s t : State, exec .nop s = .next t := ⟨State.reset, _, rfl⟩

theorem witness_ResetsTakeTheResetValues :
    (∃ s t : State, exec .srst s = .next t) ∧
    (∃ (s : State) (rest : List HostAction), s.params.wf = true ∧ s.host = .hardReset :: rest) :=
  ⟨⟨State.reset, _, rfl⟩, { State.reset with host := [.hardReset] }, [], by decide, rfl⟩

/-- The longest ID with the largest body, the largest body, the least header in the least capacity, and the longest secure
trailer. -/
theorem witness_EncHdrWritesTheHeader :
    ∀ s ∈ [headerArgs 64 0 0x4F 0 8 51 1, headerArgs 64 0 0x7E 15 0 59 1, headerArgs 4 0 0x01 0 0 0 1,
        headerArgs 64 1 0x4F 0 0 0 60],
      encodeVerdict (s.aSecure == 1#1) s.aFtype s.aIl.toNat s.aBl.toNat s.aTl.toNat s.fbLen.toNat = 0x00 := by decide +kernel

/-- Section 2.1: one row for each code, at the end of its range. -/
theorem witness_EncHdrFailsByTheFirstTest :
    [headerArgs 64 0 0x7F 0 0 0 1, headerArgs 64 0 0x4F 0 9 0 1, headerArgs 5 0 0x4F 0 2 0 1, headerArgs 64 0 0x4F 0 8 52 1,
      headerArgs 64 1 0x4F 0 0 0 61, headerArgs 64 1 0x4F 0 0 0 0, headerArgs 64 0 0x4F 0 0 0 2].map
      (fun s => encodeVerdict (s.aSecure == 1#1) s.aFtype s.aIl.toNat s.aBl.toNat s.aTl.toNat s.fbLen.toNat) =
    [0x10, 0x11, 0x12, 0x13, 0x14, 0x14, 0x14] := by decide +kernel

/-- The least frame, the header of section 1.3 alone, and the longest frame. -/
theorem witness_DecHdrReadsTheHeader :
    ∀ s ∈ [presented [0x04, 0x4f, 0x00, 0x00, 0x5b] 5, presented srcHeader 8,
        presented ([0x3f, 0x4f, 0x00, 0x3b] ++ List.replicate 59 0x00 ++ [0x55]) 64],
      decodeVerdict (fbByte s.mem) s.fbLen.toNat = 0x00 := by decide +kernel

/-- Section 2.2: one row for each code. -/
theorem witness_DecHdrFailsByTheFirstTest :
    [presented [0x04, 0x4f, 0x00, 0x00, 0x61] 4, presented [0x03, 0x4f, 0x00, 0x00, 0x61] 5,
      presented [0x40, 0x4f, 0x00, 0x00, 0x61] 5, presented [0x04, 0xff, 0x00, 0x00, 0x61] 5,
      presented [0x10, 0x4f, 0x09, 0x00, 0x00] 5, presented [0x0b, 0x4f, 0x08, 0x00, 0x00] 5,
      presented [0x0c, 0x4f, 0x08, 0xaa, 0xaa, 0xaa, 0xaa] 7, presented [0x08, 0x4f, 0x02, 0x80, 0x81, 0x03, 0x00, 0x01, 0x23] 9,
      presented [0x04, 0x4f, 0x00, 0x00, 0x00] 5, presented [0x08, 0x4f, 0x02, 0x80, 0x81, 0x01, 0x00, 0x01, 0x23] 9].map
      (fun s => decodeVerdict (fbByte s.mem) s.fbLen.toNat) =
    [0x15, 0x16, 0x17, 0x10, 0x11, 0x18, 0x12, 0x13, 0x19, 0x14] := by decide +kernel

theorem witness_CrcSeesEverySingleBitError : (0 : Nat) < 8 ∧ (7 : Nat) < 8 := by decide

theorem witness_EncNsBuildsTheFrame :
    ∀ s ∈ [nsArgs 5 0 [], nsArgs 9 2 [0x00, 0x01], nsArgs 64 8 (List.replicate 51 0xa5)],
      encodeVerdict false s.aFtype s.aIl.toNat s.pbLen.toNat 1 s.fbLen.toNat = 0x00 ∧
      5 + s.aIl.toNat + s.pbLen.toNat ≤ s.fbLen.toNat := by decide +kernel

theorem witness_EncNsFailures :
    [{ nsArgs 64 0 [] with aFtype := 0x7F }, nsArgs 64 9 [], nsArgs 5 2 [], nsArgs 64 0 (List.replicate 60 0x00),
      nsArgs 8 2 [0x00, 0x01]].map
      (fun s => (encodeVerdict false s.aFtype s.aIl.toNat s.pbLen.toNat 1 s.fbLen.toNat,
        decide (s.fbLen.toNat < 5 + s.aIl.toNat + s.pbLen.toNat))) =
    [(0x10, false), (0x11, false), (0x12, true), (0x13, true), (0x00, true)] := by decide +kernel

/-- Each of the five cases. -/
theorem witness_DecNsVerdict :
    [State.reset, { nsReceived [0x08, 0xcf, 0x02, 0x80, 0x81, 0x01, 0x00, 0x01, 0x23] with hBl := 0x01 },
      { nsReceived [0x08, 0x4f, 0x02, 0x80, 0x81, 0x02, 0x00, 0x01, 0x23] with fbLen := 8 },
      nsReceived [0x08, 0x4f, 0x02, 0x80, 0x81, 0x02, 0x00, 0x00, 0x23],
      nsReceived [0x08, 0x4f, 0x02, 0x80, 0x81, 0x02, 0x00, 0x01, 0x23]].map (outcome .decNs) =
    [(0x1A, 0x00), (0x14, 0x00), (0x41, 0x00), (0x20, 0x00), (0x00, 9)] := by decide +kernel

theorem witness_NonSecureRoundTrip :
    ∀ s ∈ [nsArgs 64 8 (List.replicate 51 0xa5), nsArgs 64 0 []],
      1 ≤ s.aFtype.toNat ∧ s.aFtype.toNat ≤ 0x7E ∧ s.aIl.toNat ≤ 8 ∧ s.aIl.toNat + s.pbLen.toNat ≤ 59 ∧ s.fbLen = 64 := by
  decide +kernel

theorem witness_Pad32WritesThePaddedBlock :
    (∃ s : State, s.pbLen.toNat = 0) ∧ (∃ s : State, s.pbLen.toNat = 31) ∧ (∃ s : State, s.pbLen.toNat = 32) :=
  ⟨⟨State.reset, rfl⟩, ⟨{ State.reset with pbLen := 31 }, rfl⟩, ⟨{ State.reset with pbLen := 32 }, rfl⟩⟩

theorem witness_Unpad32ReadsTheCountByte : ∃ s t : State, exec .pad32 s = .next t ∧ t.err = 0x00 ∧ s.pbLen = 31 :=
  ⟨{ State.reset with pbLen := 31 }, _, rfl, by decide +kernel, rfl⟩

/-! ### The secure codec -/

/-- The largest frame (n 31, il 5) and the frame without a plaintext (il 8), at exact capacities. -/
theorem witness_EncRawBuildsTheFrame :
    ∀ x ∈ [(5, 31, 32, 64), (8, 0, 0, 35)],
      let s := rawSender x.1 x.2.1 x.2.2.2
      x.2.1 = s.pbLen.toNat ∧ x.1 = s.aIl.toNat ∧ x.2.2.1 = (if x.2.1 = 0 then 0 else 32) ∧
      s.ctrl.getLsbD 0 = true ∧ s.ctrl.getLsbD 1 = true ∧ x.2.1 ≤ 31 ∧ s.params.needEncRaw ≤ s.params.scratchBytes ∧
      encodeVerdict true s.aFtype x.1 x.2.2.1 23 s.fbLen.toNat = 0x00 ∧ 27 + x.1 + x.2.2.1 ≤ s.fbLen.toNat ∧
      (aeadEnc s.params.aead s.key.toList s.iv.toList
        (headerBytes (26 + x.1 + x.2.2.1) (s.aFtype ||| 0x80) ((s.iv[11]).toNat % 16) x.1 x.2.2.1 s.aId)
        (if x.2.1 = 0 then [] else paddedBlock (pbBytes s.mem 0 x.2.1))).isSome = true := by decide +kernel

/-- Each of the four tests fails somewhere; and with all four passed, each code of the header's tests that can arise. -/
theorem witness_EncRawEarlyFailures :
    [State.reset, { rawSender 4 8 64 with ctrl := 0x01 }, rawSender 4 33 64,
      { rawSender 4 8 64 with params := { Params.default with needEncRaw := 1 } },
      { rawSender 4 8 64 with aFtype := 0x00 }, rawSender 9 0 64, rawSender 4 8 7, rawSender 6 8 64].map (outcome .encRaw) =
    [(0x43, 0x00), (0x44, 0x00), (0x1E, 0x00), (0x40, 0x00), (0x10, 0x00), (0x11, 0x00), (0x12, 0x00), (0x14, 0x00)] := by
  decide +kernel

/-- `E_FRAME_FIT` one byte short, and `E_PTLEN` for 32 bytes. -/
theorem witness_EncRawLateFailures :
    ∀ x ∈ [(rawSender 4 8 62, 4, 8), (rawSender 4 32 63, 4, 32)],
      let s := x.1
      x.2.2 = s.pbLen.toNat ∧ x.2.1 = s.aIl.toNat ∧ s.ctrl.getLsbD 0 = true ∧ s.ctrl.getLsbD 1 = true ∧ x.2.2 ≤ 32 ∧
      s.params.needEncRaw ≤ s.params.scratchBytes ∧ encodeVerdict true s.aFtype x.2.1 32 23 s.fbLen.toNat = 0x00 ∧
      (s.fbLen.toNat < 27 + x.2.1 + 32 ∨ (27 + x.2.1 + 32 ≤ s.fbLen.toNat ∧ x.2.2 = 32)) := by decide +kernel

/-- `E_ENCRYPT` on any engine that answers `ok = 0` to this frame; the two described engines never do (R241). -/
theorem witness_EncRawLateFailures_encrypt (i : Nat)
    (h : ∀ key iv aad pt, Config.otherAeadEnc i key iv aad pt = none) :
    let s := { rawSender 4 8 64 with params := withEngine (.other i) }
    s.ctrl.getLsbD 0 = true ∧ s.ctrl.getLsbD 1 = true ∧ encodeVerdict true s.aFtype 4 32 23 s.fbLen.toNat = 0x00 ∧
      27 + 4 + 32 ≤ s.fbLen.toNat ∧
      aeadEnc s.params.aead s.key.toList s.iv.toList
        (headerBytes 62 (s.aFtype ||| 0x80) ((s.iv[11]).toNat % 16) 4 32 s.aId) (paddedBlock (pbBytes s.mem 0 8)) = none := by
  refine ⟨show (rawSender 4 8 64).ctrl.getLsbD 0 = true by decide +kernel,
    show (rawSender 4 8 64).ctrl.getLsbD 1 = true by decide +kernel,
    show encodeVerdict true (rawSender 4 8 64).aFtype 4 32 23 (rawSender 4 8 64).fbLen.toNat = 0x00 by decide +kernel,
    show 27 + 4 + 32 ≤ (rawSender 4 8 64).fbLen.toNat by decide +kernel, ?_⟩
  show (match Config.otherAeadEnc i _ _ _ _ with | some (ct, tag) => _ | none => none) = none
  rw [h]

/-- `NUL` with the capacity its plaintext needs exactly, and with the longest plaintext. -/
theorem witness_DecRawDeliversThePlaintext :
    ∀ x ∈ [({ rawReceiver (nulFrame 0x17) with pbCap := 8 }, nulFrame 0x17), ({ rawReceiver (nulFrame 0x00) with pbCap := 31 }, nulFrame 0x00)],
      let s := x.1
      s.hFl.toNat = 62 ∧ s.hSeqIl.toNat % 16 = 4 ∧ s.ctrl.getLsbD 0 = true ∧ s.ctrl.getLsbD 1 = true ∧ s.ctrl.getLsbD 2 = true ∧
      s.params.needDecRaw ≤ s.params.scratchBytes ∧ s.hBl = 32 ∧ 62 = 26 + 4 + 32 ∧ 62 + 1 ≤ s.fbLen.toNat ∧
      fbByte s.mem 62 = 0x80 ∧ s.hSeqIl.toNat / 16 = (s.iv[11]).toNat % 16 ∧
      aeadDec s.params.aead s.key.toList s.iv.toList (fbBytes s.mem 0 8) (fbBytes s.mem 8 32) (fbBytes s.mem 46 16) =
        some ((x.2.drop 8).take 32) ∧
      dataLen ((x.2.drop 8).take 32) ≤ s.pbCap.toNat := by decide +kernel

/-- No body, with the plaintext wanted; and a body that is not wanted. -/
theorem witness_DecRawWithoutPlaintext :
    ∀ x ∈ [({ emptyReceiver with ctrl := 0x07, iv := ivs }, 30, 0), ({ rawReceiver (nulFrame 0x17) with ctrl := 0x03 }, 62, 32)],
      let s := x.1
      x.2.1 = s.hFl.toNat ∧ 4 = s.hSeqIl.toNat % 16 ∧ x.2.2 = s.hBl.toNat ∧
      s.ctrl.getLsbD 0 = true ∧ s.ctrl.getLsbD 1 = true ∧ (s.ctrl.getLsbD 2 = false ∨ x.2.2 = 0) ∧
      s.params.needDecRaw ≤ s.params.scratchBytes ∧ (x.2.2 = 0 ∨ x.2.2 = 32) ∧ x.2.1 = 26 + 4 + x.2.2 ∧
      x.2.1 + 1 ≤ s.fbLen.toNat ∧ fbByte s.mem x.2.1 = 0x80 ∧ s.hSeqIl.toNat / 16 = (s.iv[11]).toNat % 16 ∧
      (aeadDec s.params.aead s.key.toList s.iv.toList (fbBytes s.mem 0 8) (fbBytes s.mem 8 x.2.2)
        (fbBytes s.mem (x.2.1 - 16) 16)).isSome = true := by decide +kernel

/-- Section 5.3: a state for each code, in the order of the tests. -/
theorem witness_DecRawFailuresReleaseNothing :
    [State.reset, { State.reset with ctrl := 0x01 },
      { rawReceiver (nulFrame 0x17) with params := { Params.default with needDecRaw := 1 } },
      { rawReceiver (nulFrame 0x17) with hFl := 0x00 }, { rawReceiver (nulFrame 0x17) with hFl := 0x3d },
      { rawReceiver (nulFrame 0x17) with fbLen := 62 }, rawReceiver ((nulFrame 0x17).set 62 0x81),
      { rawReceiver ([0x1f, 0xcf, 0x94, 0xaa, 0xaa, 0xaa, 0xaa, 0x01] ++ List.replicate 23 0x00 ++ [0x80]) with
        hFl := 0x1f, hBl := 0x01 },
      { rawReceiver (nulFrame 0x17) with iv := ivs.set 11 0x18 }, rawReceiver ((nulFrame 0x17).set 60 0x01),
      { rawReceiver (nulFrame 0x17) with pbCap := 7 }].map (outcome .decRaw) =
    [(0x43, 0x00), (0x44, 0x00), (0x40, 0x00), (0x1A, 0x00), (0x14, 0x00), (0x41, 0x00), (0x1B, 0x00), (0x1C, 0x00), (0x1D, 0x00),
      (0x21, 0x00), (0x42, 0x00)] := by decide +kernel

/-- The largest frame (n 31, il 5), and no plaintext with il 8, at exact capacities. -/
theorem witness_EncSecBuildsTheFrame :
    ∀ x ∈ [(5, 31, 32, 64), (8, 0, 0, 35)],
      let s := { rawSender x.1 x.2.1 x.2.2.2 with ctrl := 0x01 }
      x.2.1 = s.pbLen.toNat ∧ x.1 = s.aIl.toNat ∧ x.2.2.1 = (if x.2.1 = 0 then 0 else 32) ∧
      s.ctrl.getLsbD 0 = true ∧ x.2.1 ≤ 31 ∧ s.params.needEncSec ≤ s.params.scratchBytes ∧
      s.params.needEncRaw ≤ s.params.scratchBytes ∧
      encodeVerdict true s.aFtype x.1 x.2.2.1 23 s.fbLen.toNat = 0x00 ∧ 27 + x.1 + x.2.2.1 ≤ s.fbLen.toNat ∧
      (aeadEnc s.params.aead s.key.toList (s.txId.toList.take 6 ++ s.ctrA.toList)
        (headerBytes (26 + x.1 + x.2.2.1) (s.aFtype ||| 0x80) ((s.ctrA[5]).toNat % 16) x.1 x.2.2.1 s.txId)
        (if x.2.1 = 0 then [] else paddedBlock (pbBytes s.mem 0 x.2.1))).isSome = true := by decide +kernel

/-- Section 5.1: each of the three tests; and all three passed, with the nonce of the delegation. -/
theorem witness_EncSecIsEncRawWithTheBuiltNonce :
    [{ sender .nullDouble with aIl := 7 }, { sender .nullDouble with aFtype := 0x7F },
      { sender .nullDouble with params := { Params.default with needEncSec := 1 } }].map (outcome .encSec) =
      [(0x1F, 0x00), (0x10, 0x00), (0x40, 0x00)] ∧
    (outcome .encSec (sender .nullDouble) = (0x00, 63) ∧
      ivs.toList = (sender .nullDouble).txId.toList.take 6 ++ (sender .nullDouble).ctrA.toList) ∧
    ∃ t, exec .encRaw { sender .nullDouble with iv := ivs, ctrl := 0x03, aId := idA } = .next t :=
  ⟨by decide +kernel, by decide +kernel, _, rfl⟩

/-! ### Counters and the replay guard -/

/-- The sum 2^48 - 1 and the sum 2^48; and a success with `DELTA > 0`. -/
theorem witness_CtrAddAddsOrOverflows :
    (∃ s : State, ctrValue s.ctrA + s.delta.toNat = 2 ^ 48 - 1) ∧ (∃ s : State, ctrValue s.ctrA + s.delta.toNat = 2 ^ 48) ∧
    (∃ s t : State, exec .ctrAdd s = .next t ∧ t.err = 0x00 ∧ s.delta ≠ 0x00) :=
  ⟨⟨{ State.reset with ctrA := #v[0xff, 0xff, 0xff, 0xff, 0xff, 0x00], delta := 255 }, by decide +kernel⟩,
    ⟨{ State.reset with ctrA := #v[0xff, 0xff, 0xff, 0xff, 0xff, 0xff], delta := 1 }, by decide +kernel⟩,
    ⟨{ State.reset with delta := 1 }, _, rfl, by decide +kernel, by decide⟩⟩

/-- The shortest and the longest prefix; a match that is not the first entry, and no match. -/
theorem witness_LookupFindsTheFirstMatch :
    FirstMatch (withT3 []) 8 idA 8 1 ∧ FirstMatch (withT3 []) 8 idA 0 0 ∧ NoMatch (withT3 []) 8 (Vector.replicate 8 0x00) 8 :=
  ⟨(lookup_eq_some _ _ _ _ _).mp (by decide +kernel), (lookup_eq_some _ _ _ _ _).mp (by decide +kernel),
    (lookup_eq_none _ _ _ _).mp (by decide +kernel)⟩

/-- The host's side of `RX_LOOKUP`, `RX_VALIDATE` and `RX_COMMIT` on the table `T3`. -/
def guardArgs (ctr : Bytes 6) (ok : Bool) : State :=
  { State.reset with aIl := 8, aId := idA, nodeId := idA, ctrA := ctr, commitOk := ok, mem := withT3 [] }

theorem witness_RxLookupResolvesThePrefix :
    (∃ s : State, s.aIl.toNat = 9) ∧
    (∃ s : State, s.aIl.toNat ≤ 8 ∧ NoMatch s.mem s.params.assocN s.aId s.aIl.toNat) ∧
    (∃ (s : State) (k : Nat), s.aIl.toNat = 8 ∧ FirstMatch s.mem s.params.assocN s.aId s.aIl.toNat k) :=
  ⟨⟨{ State.reset with aIl := 9 }, rfl⟩, ⟨State.reset, by decide, (lookup_eq_none _ _ _ _).mp (by decide +kernel)⟩,
    ⟨guardArgs ctr19 true, 1, rfl, (lookup_eq_some _ _ _ _ _).mp (by decide +kernel)⟩⟩

/-- No entry; the equal counter; the next counter. -/
theorem witness_RxValidateAcceptsOnlyGreater :
    (∃ s : State, NoMatch s.mem s.params.assocN s.nodeId 8) ∧
    (∃ (s : State) (k : Nat), FirstMatch s.mem s.params.assocN s.nodeId 8 k ∧
      ctrValue s.ctrA = ctrValue (assocCtr s.mem k)) ∧
    (∃ (s : State) (k : Nat), FirstMatch s.mem s.params.assocN s.nodeId 8 k ∧
      ctrValue s.ctrA = ctrValue (assocCtr s.mem k) + 1) :=
  ⟨⟨State.reset, (lookup_eq_none _ _ _ _).mp (by decide +kernel)⟩,
    ⟨guardArgs (ctr19.set 5 0x18) true, 1, (lookup_eq_some _ _ _ _ _).mp (by decide +kernel), by decide +kernel⟩,
    ⟨guardArgs ctr19 true, 1, (lookup_eq_some _ _ _ _ _).mp (by decide +kernel), by decide +kernel⟩⟩

theorem witness_RxCommitComparesAndSets :
    (∃ s : State, NoMatch s.mem s.params.assocN s.nodeId 8) ∧
    (∃ (s : State) (k : Nat), FirstMatch s.mem s.params.assocN s.nodeId 8 k ∧
      ctrValue s.ctrA = ctrValue (assocCtr s.mem k)) ∧
    (∃ (s : State) (k : Nat), FirstMatch s.mem s.params.assocN s.nodeId 8 k ∧
      ctrValue (assocCtr s.mem k) + 1 = ctrValue s.ctrA ∧ s.commitOk = false) ∧
    (∃ (s : State) (k : Nat), FirstMatch s.mem s.params.assocN s.nodeId 8 k ∧
      ctrValue (assocCtr s.mem k) + 1 = ctrValue s.ctrA ∧ s.commitOk = true) :=
  ⟨⟨State.reset, (lookup_eq_none _ _ _ _).mp (by decide +kernel)⟩,
    ⟨guardArgs (ctr19.set 5 0x18) true, 1, (lookup_eq_some _ _ _ _ _).mp (by decide +kernel), by decide +kernel⟩,
    ⟨guardArgs ctr19 false, 1, (lookup_eq_some _ _ _ _ _).mp (by decide +kernel), by decide +kernel, rfl⟩,
    ⟨guardArgs ctr19 true, 1, (lookup_eq_some _ _ _ _ _).mp (by decide +kernel), by decide +kernel, rfl⟩⟩

/-- A frame with a body whose plaintext just fits, and a frame without a body. -/
theorem witness_DecSecAcceptsAFreshFrame :
    ∀ x ∈ [({ receiver .nullDouble (nulFrame 0x17) with pbCap := 8 }, 62, 32), (emptyReceiver, 30, 0)],
      let s := x.1
      x.2.1 = s.hFl.toNat ∧ 4 = s.hSeqIl.toNat % 16 ∧ x.2.2 = s.hBl.toNat ∧
      s.params.needDecSec ≤ s.params.scratchBytes ∧ s.params.needDecRaw ≤ s.params.scratchBytes ∧
      (x.2.2 = 0 ∨ x.2.2 = 32) ∧ x.2.1 = 26 + 4 + x.2.2 ∧ x.2.1 + 1 ≤ s.fbLen.toNat ∧
      lookup s.mem s.params.assocN s.hId 4 = some 1 ∧
      ctr19.toList = fbBytes s.mem (4 + 4 + x.2.2) 6 ∧ ctrValue (assocCtr s.mem 1) < ctrValue ctr19 ∧
      s.ctrl.getLsbD 0 = true ∧ fbByte s.mem x.2.1 = 0x80 ∧ s.hSeqIl.toNat / 16 = (ctr19[5]).toNat % 16 ∧
      aeadDec s.params.aead s.key.toList ((assocId s.mem 1).toList.take 6 ++ ctr19.toList) (fbBytes s.mem 0 8)
        (fbBytes s.mem 8 x.2.2) (fbBytes s.mem (x.2.1 - 16) 16) = some (fbBytes s.mem 8 x.2.2) ∧
      (x.2.2 = 32 → dataLen (fbBytes s.mem 8 x.2.2) ≤ s.pbCap.toNat) ∧
      s.commitOk = true := by decide +kernel

/-- The entry of the two frames. -/
theorem witness_DecSecAcceptsAFreshFrame_entry :
    FirstMatch (receiver .nullDouble (nulFrame 0x17)).mem 8 #v[0xaa, 0xaa, 0xaa, 0xaa, 0x00, 0x00, 0x00, 0x00] 4 1 ∧
      FirstMatch emptyReceiver.mem 8 #v[0xaa, 0xaa, 0xaa, 0xaa, 0x00, 0x00, 0x00, 0x00] 4 1 :=
  ⟨(lookup_eq_some _ _ _ _ _).mp (by decide +kernel), (lookup_eq_some _ _ _ _ _).mp (by decide +kernel)⟩

/-- One state for each way through `DEC_SEC`, with `ERR` and `FSM_TRACE` (section 7.4). -/
theorem witness_DecSecStages :
    [State.reset, { receiver .nullDouble (nulFrame 0x17) with params := { Params.default with needDecSec := 1 } },
      { receiver .nullDouble (nulFrame 0x17) with hBl := 0x00 }, { receiver .nullDouble (nulFrame 0x17) with fbLen := 62 },
      { receiver .nullDouble (nulFrame 0x17) with hId := Vector.replicate 8 0xbb },
      { receiver .nullDouble (nulFrame 0x17) with mem := Memory.write (receiver .nullDouble (nulFrame 0x17)).mem 0x11E 0x19 },
      { receiver .nullDouble (nulFrame 0x17) with ctrl := 0x00 },
      { receiver .nullDouble (nulFrame 0x17) with commitOk := false }, receiver .nullDouble (nulFrame 0x17)].map
      (fun s => ((nextOf (exec .decSec s)).err, (nextOf (exec .decSec s)).fsmTrace)) =
    [(0x1A, 0x81), (0x40, 0x83), (0x14, 0x83), (0x41, 0x83), (0x30, 0x83), (0x31, 0x87), (0x43, 0x8F), (0x32, 0x9F),
      (0x00, 0x3F)] := by decide +kernel

/-- The entry, the counter and the nonce that the stages speak of. -/
theorem witness_DecSecStages_entry :
    FirstMatch (receiver .nullDouble (nulFrame 0x17)).mem 8 (receiver .nullDouble (nulFrame 0x17)).hId 4 1 ∧
    ctr19.toList = fbBytes (receiver .nullDouble (nulFrame 0x17)).mem (4 + 4 + 32) 6 ∧
    ivs.toList = (assocId (receiver .nullDouble (nulFrame 0x17)).mem 1).toList.take 6 ++ ctr19.toList ∧
    NoMatch (receiver .nullDouble (nulFrame 0x17)).mem 8 (Vector.replicate 8 0xbb) 4 :=
  ⟨(lookup_eq_some _ _ _ _ _).mp (by decide +kernel), by decide +kernel, by decide +kernel,
    (lookup_eq_none _ _ _ _).mp (by decide +kernel)⟩

/-- An accepted frame, the `DEC_HDR` before it, and a later presentation of the same ID and counter. -/
theorem witness_AcceptedFrameIsRejectedTheSecondTime :
    (∃ s t : State, exec .decSec s = .next t ∧ t.err = 0x00 ∧
      ∃ x u : State, x.params = t.params ∧ (∀ a, 0x100 ≤ a → Memory.read x.mem a = Memory.read t.mem a) ∧
        x.hSeqIl.toNat % 16 = s.hSeqIl.toNat % 16 ∧ x.hId = s.hId ∧ x.frameCtr = s.frameCtr ∧ exec .decSec x = .next u) ∧
    (∃ r s t : State, exec .decHdr r = .next s ∧ s.err = 0x00 ∧ exec .decSec s = .next t ∧ t.err = 0x00) := by
  let s := receiver .nullDouble (nulFrame 0x17)
  let t := nextOf (exec .decSec s)
  refine ⟨⟨s, t, rfl, by decide +kernel, t, _, rfl, fun _ _ => rfl, by decide +kernel, by decide +kernel, by decide +kernel, rfl⟩, s,
    _, _, rfl, by decide +kernel, rfl, by decide +kernel⟩

/-- The next frame of the same sender: three bytes of `FB` change (seq and counter, counter in the tag), then `DEC_HDR`. -/
def nextFrame : List HostAction :=
  [.write 0x082 0xa4, .write 0x0AD 0x1a, .write 0x0B9 0x1a, .write 0x000 0x02]

/-- A step that raises a stored counter: `RX_COMMIT` of a greater one, the last address below the table, and no action. -/
theorem witness_SparedCountersNeverDecrease_step :
    ∀ s ∈ [{ guardArgs ctr19 true with host := [.write 0x000 0x0F] }, { guardArgs ctr19 true with host := [.write 0x0FF 0x01] },
        guardArgs ctr19 true],
      (∀ a ∈ s.host.head?, a.sparesTable = true) ∧
      ctrValue (assocCtr (nextOf (step s)).mem 1) =
        ctrValue (assocCtr s.mem 1) + (if s.host = [.write 0x000 0x0F] then 1 else 0) := by decide +kernel

/-- A second acceptance on the same entry, after four host actions. -/
theorem witness_SparedCountersNeverDecrease :
    ∃ (s t u v : State) (n : Nat), s.params.wf = true ∧ exec .decSec s = .next t ∧ t.err = 0x00 ∧
      (∀ a ∈ t.host, a.sparesTable = true) ∧ run n t = some u ∧ exec .decSec u = .next v ∧ v.err = 0x00 ∧
      v.assocIdx = t.assocIdx := by
  let s := { receiver .nullDouble (nulFrame 0x17) with host := nextFrame }
  let t := nextOf (exec .decSec s)
  let u := (run 4 t).getD State.reset
  refine ⟨s, t, u, nextOf (exec .decSec u), 4, by decide +kernel, rfl, by decide +kernel, by decide +kernel, by decide +kernel, rfl,
    by decide +kernel, by decide +kernel⟩

theorem witness_EarlyRejectionNeedsNoAead :
    ∀ x ∈ [(State.reset, 0x81), ({ receiver .nullDouble (nulFrame 0x17) with fbLen := 62 }, 0x83),
        ({ receiver .nullDouble (nulFrame 0x17) with
            mem := Memory.write (receiver .nullDouble (nulFrame 0x17)).mem 0x11E 0x19 }, (0x87 : Byte))],
      (nextOf (exec .decSec x.1)).fsmTrace = x.2 ∧ x.2 ∈ [0x81, 0x83, (0x87 : Byte)] := by decide +kernel

/-- Both with and without a body. -/
theorem witness_DecSecAcceptanceIsSound :
    (∃ s t : State, exec .decSec s = .next t ∧ t.err = 0x00 ∧ s.hBl = 32) ∧
    (∃ s t : State, exec .decSec s = .next t ∧ t.err = 0x00 ∧ s.hBl = 0) :=
  ⟨⟨receiver .nullDouble (nulFrame 0x17), _, rfl, by decide +kernel, rfl⟩, ⟨emptyReceiver, _, rfl, by decide +kernel, rfl⟩⟩

theorem witness_DescribedEnginesAreCorrect :
    ∃ (key iv aad pt ct tag : List Byte), key.length = 16 ∧ iv.length = 12 ∧
      aeadEnc .aes128Gcm key iv aad pt = some (ct, tag) :=
  ⟨List.replicate 16 0x00, List.replicate 12 0x00, [], [], _, _, rfl, rfl, rfl⟩

/-- The null double meets R240 (b) and (d). -/
theorem nullDouble_correct : AeadCorrect .nullDouble := by
  intro key iv aad pt ct tag _ hi h
  cases h
  refine ⟨if_pos rfl, rfl, ?_⟩
  simp [nullTag, hi]

/-- A sender with the longest ID that a body admits and a 31-byte plaintext. -/
def longSender : State := { rawSender 5 31 64 with ctrl := 0x01 }

/-- The receiver of its frame. -/
def longReceiver : State :=
  { rawReceiver [] with fbLen := 64, mem := withT3 (nextOf (exec .encSec longSender)).mem, pbCap := 31 }

/-- With `n = 31`, `il = 5`, `ebl = 32`, `k = 1`: the bounds on the two states, each at its limit; their engine, the entry, and
the frame that the receiver holds. -/
theorem witness_SecureRoundTrip :
    ((let s := longSender
     31 = s.pbLen.toNat ∧ 5 = s.aIl.toNat ∧ 1 ≤ s.aFtype.toNat ∧ s.aFtype.toNat ≤ 0x7E ∧ s.fbLen = 64 ∧
     s.ctrl.getLsbD 0 = true ∧ s.params.needEncSec ≤ s.params.scratchBytes ∧
     s.params.needEncRaw ≤ s.params.scratchBytes) ∧
    (let r := longReceiver
     r.params.aead = longSender.params.aead ∧ r.key = longSender.key ∧ r.ctrl = 0x07 ∧ 31 ≤ r.pbCap.toNat ∧
     r.commitOk = true ∧ r.params.needDecSec ≤ r.params.scratchBytes ∧
     r.params.needDecRaw ≤ r.params.scratchBytes ∧ assocId r.mem 1 = longSender.txId ∧
     ctrValue (assocCtr r.mem 1) < ctrValue longSender.ctrA)) ∧
    AeadCorrect longSender.params.aead ∧
    (∀ key iv aad pt, (aeadEnc longSender.params.aead key iv aad pt).isSome = true) ∧
    FirstMatch longReceiver.mem longReceiver.params.assocN longSender.txId 5 1 ∧
    ∃ t, exec .encSec longSender = .next t ∧ fbBytes longReceiver.mem 0 64 = fbBytes t.mem 0 64 ∧
      longReceiver.fbLen = t.result :=
  ⟨by decide +kernel, nullDouble_correct, fun _ _ _ _ => rfl, (lookup_eq_some _ _ _ _ _).mp (by decide +kernel),
    nextOf (exec .encSec longSender), rfl, by decide +kernel, by decide +kernel⟩

end Sys2Proof.Tests
end

-- The encoding family (spec/30_encoding.md)
section
/-! The reserved codes: no command has one for its code, so none selects a command, and writing one to `CMD` takes the
`E_BAD_CMD` branch of `issueCommand` (R110 to R112). -/
namespace Sys2Proof.Machine

/-- Every row of the opcode map (R111) lies outside the reserved range. -/
theorem opcode_lt_or_gt_reserved (i : Instr) : (opcode i).toNat < 0x10 ∨ 0xFE < (opcode i).toNat := by
  cases i with
  | srst => exact .inr (by decide)
  | _ => exact .inl (by decide)

/-- A reserved code selects no command: the one it selected would have it for its code. -/
theorem commandOf_reserved {c : Byte} (hlo : 0x10 ≤ c.toNat) (hhi : c.toNat ≤ 0xFE) : commandOf c = none := by
  rw [Option.eq_none_iff_forall_ne_some]
  intro i hi
  have hc : c = opcode i := Laws.DecodesFromItsCode.opcode_of_commandOf c i hi
  have hout := opcode_lt_or_gt_reserved i
  rw [← hc] at hout
  omega

theorem decode_cons_of_commandOf_none {c : Byte} (h : commandOf c = none) (rest : List Byte) :
    decode (c :: rest) = .error (.reservedCode c) := by
  simp only [decode, h]

theorem issueCommand_of_decode_error {c : Byte} {e : DecodeError} (h : decode [c] = .error e) (s : State) :
    issueCommand c s = .next (reservedCommand c s) := by
  simp only [issueCommand, h]

/-- Settles O3: the code decodes to no command, so the write ends in `reservedCommand`, which is the state R112 names. -/
theorem reservedCodeOnlyReports : Obligations.ReservedCodeOnlyReports := by
  intro s c hlo hhi
  have hdec : decode [c] = .error (.reservedCode c) :=
    decode_cons_of_commandOf_none (commandOf_reserved hlo hhi) []
  calc busWrite s 0x000 c
      = issueCommand c s := busWrite_cmd s c
    _ = .next (reservedCommand c s) := issueCommand_of_decode_error hdec s
    _ = .next { s with cmd := c, result := 0x00, err := 0x7F } := rfl

end Sys2Proof.Machine
end

-- The header codec family (spec/41_header_codec.md)
section
/-! The header codec: `ENC_HDR` and `DEC_HDR` with tests that pass and with a test that fails (R131 to R139), and what every
command that commits a header leaves in the header registers (R142). -/
namespace Sys2Proof.Machine

/-! ## The two commands as runs of the codec -/

/-- `ENC_HDR` is `HdrEncode` of the argument registers (R131). -/
theorem exec_encHdr (s : State) :
    exec .encHdr s = .next (finish (hdrEncode { s with cmd := 0x01 } (s.aSecure == 1#1) s.aFtype s.aSeq s.aId
      s.aIl.toNat s.aBl.toNat s.aTl.toNat)) := rfl

/-- `DEC_HDR` after a header that decodes: the attempt ends in `HeaderValid` (R136). -/
theorem exec_decHdr_of_done {s t : State} {hl : Nat}
    (h : hdrDecode (State.beginAttempt { s with cmd := 0x02 }) = .done t hl) (htrace : t.fsmTrace = 0x01) :
    exec .decHdr s =
      .next { t with fsm := 1, fsmTrace := 0x03, result := BitVec.ofNat 8 hl, err := 0x00 } := by
  have henter : t.enter .headerValid = { t with fsm := 1, fsmTrace := 0x03 } := enter_eq htrace rfl rfl
  simp only [exec, execDecHdr, command_eq, opcode, h, henter, finish_done]

/-- `DEC_HDR` after a header that does not decode: the attempt ends in `Rejected` (R136). -/
theorem exec_decHdr_of_failed {s t : State} {e : Err}
    (h : hdrDecode (State.beginAttempt { s with cmd := 0x02 }) = .failed t e) (htrace : t.fsmTrace = 0x01) :
    exec .decHdr s =
      .next { t with fsm := 7, fsmTrace := 0x81, scratch := [], result := 0x00, err := e.code } := by
  have hreject : reject t e = .failed { t with fsm := 7, fsmTrace := 0x81 } e := reject_eq htrace rfl
  simp only [exec, execDecHdr, command_eq, opcode, h, hreject, finish_failed]

/-! ## `ENC_HDR` -/

/-- Settles O24: the five tests pass, so `HdrEncode` is done, and its one write to `FB` is the header's bytes. -/
theorem encHdrWritesTheHeader : Obligations.EncHdrWritesTheHeader := by
  intro s hpass
  have hil : s.aIl.toNat ≤ 8 := ((encodeVerdict_eq_zero _ _ _ _ _ _).mp hpass).2.2.1
  refine ⟨_, ?_, stored_fbWrite s.mem 0 _ ?_⟩
  · rw [exec_encHdr, hdrEncode_done { s with cmd := 0x01 } _ _ _ _ _ _ _ hpass, finish_done]
    simp only [beq_iff_eq, ofNat_toNat8]
  · rw [headerBytes_length _ _ _ _ _ _ hil]
    omega

/-- Settles O25: a test fails, so `HdrEncode` fails with its code and only clears `H_FL`. -/
theorem encHdrFailsByTheFirstTest : Obligations.EncHdrFailsByTheFirstTest := by
  rintro s _ rfl hfail
  obtain ⟨err, hcode, hfailed⟩ :=
    hdrEncode_failed { s with cmd := 0x01 } _ s.aFtype s.aSeq s.aId s.aIl.toNat s.aBl.toNat s.aTl.toNat hfail
  rw [exec_encHdr, hfailed, finish_failed, hcode]
  rfl

/-! ## `DEC_HDR` -/

/-- Settles O26: the ten tests pass, so `HdrDecode` is done and commits the bytes of the frame. -/
theorem decHdrReadsTheHeader : Obligations.DecHdrReadsTheHeader := by
  rintro s _ hpass rfl
  exact exec_decHdr_of_done (hdrDecode_done (State.beginAttempt { s with cmd := 0x02 }) hpass) rfl

/-- Settles O27: a test fails, so `HdrDecode` fails with its code and the attempt is rejected. -/
theorem decHdrFailsByTheFirstTest : Obligations.DecHdrFailsByTheFirstTest := by
  rintro s _ rfl hfail
  obtain ⟨err, hcode, hfailed⟩ := hdrDecode_failed (State.beginAttempt { s with cmd := 0x02 }) hfail
  rw [exec_decHdr_of_failed hfailed rfl, hcode]
  rfl

/-! ## What a valid header gives (R142), in the terms of the spec -/

theorem State.headerIl_eq (s : State) : s.headerIl = s.hSeqIl.toNat % 16 := ilOf_eq s.hSeqIl

theorem State.hBoff_of_valid {s : State} (h : s.hFl ≠ 0x00) : s.hBoff = 4 + s.headerIl := if_neg h

theorem State.hTl_of_valid {s : State} (h : s.hFl ≠ 0x00) :
    s.hTl = s.hFl.toNat - 3 - s.headerIl - s.hBl.toNat := if_neg h

theorem State.hToff_of_valid {s : State} (h : s.hFl ≠ 0x00) : s.hToff = 4 + s.headerIl + s.hBl.toNat := if_neg h

theorem HeaderOk.hFl_ne_zero {s : State} (h : HeaderOk s) : s.hFl ≠ 0x00 := by
  have hlow := h.flLow
  rw [ne_eq, hFl_zero]
  omega

theorem HeaderOk.hTl_pos {s : State} (h : HeaderOk s) : 1 ≤ s.hTl := by
  have hfits := h.fits
  rw [State.hTl_of_valid h.hFl_ne_zero]
  omega

theorem HeaderOk.hTl_of_nonSecure {s : State} (h : HeaderOk s) (hns : s.hType.toNat < 128) : s.hTl = 1 :=
  h.crcTrailer (by rw [isSecure_eq, decide_eq_false (by omega)])

/-! ## The commands that commit a header -/

/-- Of the ends of a command that commits a header, one leaves a valid header and the others report a failure. -/
theorem exec_headerOk_or_err_ne_zero {i : Instr} (hi : i ∈ [Instr.encHdr, .decHdr, .encNs, .encRaw, .encSec]) (s : State) :
    ∃ t, exec i s = .next t ∧ (HeaderOk t ∨ t.err ≠ 0x00) := by
  cases i with
  | encHdr =>
    rcases encHdr_cases s with ⟨_, _, _, _, _, _, _, h, -, hok⟩ | ⟨_, hmem, h⟩
    · exact ⟨_, h, .inl (hok.congr rfl rfl rfl rfl rfl)⟩
    · exact ⟨_, h, .inr (ne_of_mem_of_not_mem hmem (by decide))⟩
  | decHdr =>
    rcases decHdr_cases s with ⟨_, _, _, _, _, _, h, hok⟩ | ⟨_, hmem, h⟩
    · exact ⟨_, h, .inl (hok.congr rfl rfl rfl rfl rfl)⟩
    · exact ⟨_, h, .inr (ne_of_mem_of_not_mem hmem (by decide))⟩
  | encNs =>
    rcases encNs_cases s with ⟨_, _, _, _, _, _, _, h, -, hok⟩ | ⟨_, hmem, h⟩ | ⟨_, h, -⟩
    · exact ⟨_, h, .inl (hok.congr rfl rfl rfl rfl rfl)⟩
    · exact ⟨_, h, .inr (ne_of_mem_of_not_mem hmem (by decide))⟩
    · exact ⟨_, h, .inr Err.frameFit.code_ne_zero⟩
  | encRaw =>
    rcases encRaw_cases s with ⟨_, _, _, _, _, _, _, h, -, hok⟩ | ⟨_, hmem, h⟩ | ⟨_, _, hmem, h, -⟩
    · exact ⟨_, h, .inl (hok.congr rfl rfl rfl rfl rfl)⟩
    · exact ⟨_, h, .inr (ne_of_mem_of_not_mem hmem (by decide))⟩
    · exact ⟨_, h, .inr (ne_of_mem_of_not_mem hmem (by decide))⟩
  | encSec =>
    rcases encSec_cases s with ⟨_, hmem, h⟩ | ⟨_, _, _, _, _, _, _, _, h, -, hok⟩ | ⟨_, _, hmem, h⟩ | ⟨_, _, _, hmem, h, -⟩
    · exact ⟨_, h, .inr (ne_of_mem_of_not_mem hmem (by decide))⟩
    · exact ⟨_, h, .inl (hok.congr rfl rfl rfl rfl rfl)⟩
    · exact ⟨_, h, .inr (ne_of_mem_of_not_mem hmem (by decide))⟩
    · exact ⟨_, h, .inr (ne_of_mem_of_not_mem hmem (by decide))⟩
  | _ => exact absurd hi (by decide)

/-- A command that commits a header and succeeds leaves a valid one (R142). -/
theorem headerOk_of_exec_success {i : Instr} {s t : State}
    (hi : i ∈ [Instr.encHdr, .decHdr, .encNs, .encRaw, .encSec]) (hx : exec i s = .next t) (herr : t.err = 0x00) :
    HeaderOk t := by
  obtain ⟨u, hu, hend⟩ := exec_headerOk_or_err_ne_zero hi s
  obtain rfl : u = t := Host.Outcome.next.inj (hu.symm.trans hx)
  exact hend.resolve_right (not_not_intro herr)

/-- Settles O17: the command leaves a valid header, whose properties are the statement's, with `il` read off `H_SEQIL`. -/
theorem successfulCodecLeavesAValidHeader : Obligations.SuccessfulCodecLeavesAValidHeader := by
  intro i s t hi hx herr
  have hok : HeaderOk t := headerOk_of_exec_success hi hx herr
  have hvalid := hok.hFl_ne_zero
  have htypeLow := hok.typeLow
  have htypeHigh := hok.typeHigh
  have hil := hok.il
  have hfits := hok.fits
  rw [byte_low7] at htypeLow htypeHigh
  rw [← State.headerIl_eq, State.hBoff_of_valid hvalid, State.hToff_of_valid hvalid]
  exact ⟨hok.flLow, hok.flHigh, htypeLow, htypeHigh, hil, hfits, hok.hTl_pos, hok.hTl_of_nonSecure, rfl, by omega, hfits,
    hok.idZero⟩

end Sys2Proof.Machine
end

-- The non-secure codec family (spec/42_nonsecure_codec.md)
section
/-! The non-secure frame codec: the range of the CRC trailer (R151), `ENC_NS` with a frame that fits (R153), `DEC_NS` in every
state (R157), and the round trip (R160). -/
namespace Sys2Proof.Machine

/-! ## The CRC trailer (R151) -/

theorem crc7Step_lt (crc d : Byte) : (crc7Step crc d).toNat < 0x80 := by
  rw [crc7Step, BitVec.toNat_and]
  exact Nat.lt_succ_of_le Nat.and_le_right

theorem crc7_lt (bs : List Byte) : (crc7 bs).toNat < 0x80 :=
  List.foldlRecOn bs crc7Step (motive := fun crc => crc.toNat < 0x80) (by decide) fun crc _ d _ => crc7Step_lt crc d

/-- The trailer is never a byte that the last-byte test of `HdrDecode` (R137) rejects. -/
theorem crcTrailer_allowed (bs : List Byte) : crcTrailer bs ≠ 0x00 ∧ crcTrailer bs ≠ 0xFF := by
  unfold crcTrailer
  split
  · decide
  · next hcrc =>
    refine ⟨hcrc, fun hff => ?_⟩
    have hlt := crc7_lt bs
    rw [hff] at hlt
    exact absurd hlt (by decide)

/-! ## `DEC_NS` (R157) -/

/-- The end of `DEC_NS` by the result of its tests. -/
def State.decNsEnd (s : State) : Option Err → State
  | none => { s with cmd := 0x04, result := BitVec.ofNat 8 (s.hFl.toNat + 1), err := 0x00 }
  | some e => { s with cmd := 0x04, result := 0x00, err := e.code, scratch := [] }

theorem exec_decNs (s : State) : exec .decNs s = .next (s.decNsEnd (decNsError s)) := by
  have hcmd : decNsError { s with cmd := opcode .decNs } = decNsError s := rfl
  simp only [exec, execDecNs, command_eq, hcmd]
  cases decNsError s <;> rfl

/-- The four tests in the terms of the spec: the trailer is one byte when the frame ends right behind it. -/
theorem decNsError_eq (s : State) : decNsError s =
    if s.hFl = 0x00 then some .hdrInvalid
    else if s.hFl.toNat ≠ 4 + s.hSeqIl.toNat % 16 + s.hBl.toNat then some .trailerLen
    else if s.fbLen.toNat < s.hFl.toNat + 1 then some .frameFit
    else if crcTrailer (fbBytes s.mem 0 s.hFl.toNat) ≠ fbByte s.mem s.hFl.toNat then some .crc
    else none := by
  simp only [decNsError, firstFailing_cons, firstFailing_nil]
  refine ite_step beq_iff_eq fun _ hvalid => ?_
  refine ite_step (by rw [decide_eq_true_eq, tlNonSecure, ne_eq, hTl_eq s 1 Nat.one_pos hvalid]) fun _ _ => ?_
  refine ite_step decide_eq_true_iff fun _ _ => ?_
  exact ite_step bne_iff_ne fun _ _ => rfl

/-- Settles O33: the end of `DEC_NS` is read off its tests, branch by branch. -/
theorem decNsVerdict : Obligations.DecNsVerdict := by
  rintro s _ rfl
  rw [exec_decNs, decNsError_eq]
  simp only [apply_ite s.decNsEnd]
  rfl

/-- `DEC_NS` of a frame in `FB` whose last byte is its CRC. -/
theorem exec_decNs_of_crc {s : State} (hvalid : s.hFl ≠ 0x00)
    (hfl : s.hFl.toNat = 4 + s.hSeqIl.toNat % 16 + s.hBl.toNat) (hfits : s.hFl.toNat + 1 ≤ s.fbLen.toNat)
    (hcrc : crcTrailer (fbBytes s.mem 0 s.hFl.toNat) = fbByte s.mem s.hFl.toNat) :
    exec .decNs s = .next { s with cmd := 0x04, result := BitVec.ofNat 8 (s.hFl.toNat + 1), err := 0x00 } := by
  rw [exec_decNs, decNsError_eq, if_neg hvalid, if_neg (not_not_intro hfl), if_neg (Nat.not_lt.mpr hfits),
    if_neg (not_not_intro hcrc)]
  rfl

/-! ## `ENC_NS` with a frame that fits (R153) -/

/-- The arguments of `ENC_NS` pass the header's tests, and the frame fits `FB_LEN`; the states of
`witness_EncNsBuildsTheFrame` are such. -/
structure NsFits (s : State) : Prop where
  typeLow : 1 ≤ s.aFtype.toNat
  typeHigh : s.aFtype.toNat ≤ 0x7E
  il : s.aIl.toNat ≤ 8
  body : s.aIl.toNat + s.pbLen.toNat ≤ 59
  frame : 5 + s.aIl.toNat + s.pbLen.toNat ≤ s.fbLen.toNat

theorem NsFits.encodeVerdict_eq_zero {s : State} (h : NsFits s) :
    encodeVerdict false s.aFtype s.aIl.toNat s.pbLen.toNat 1 s.fbLen.toNat = 0x00 := by
  obtain ⟨htypeLow, htypeHigh, hil, hbody, hframe⟩ := h
  have htype : s.aFtype ≠ 0x00 := fun h0 => absurd htypeLow (by rw [h0]; decide)
  exact (Machine.encodeVerdict_eq_zero _ _ _ _ _ _).mpr ⟨htype, by omega, hil, by omega, hbody, rfl⟩

/-- The header that `ENC_NS` writes (R100). -/
def State.nsHeader (s : State) : List Byte :=
  headerBytes (4 + s.aIl.toNat + s.pbLen.toNat) s.aFtype s.aSeq.toNat s.aIl.toNat s.pbLen.toNat s.aId

/-- The bytes that the CRC covers: header and body. -/
def State.nsSpan (s : State) : List Byte := s.nsHeader ++ pbBytes s.mem 0 s.pbLen.toNat

/-- The frame: the span and its CRC. -/
def State.nsFrame (s : State) : List Byte := s.nsSpan ++ [crcTrailer s.nsSpan]

theorem NsFits.nsHeader_length {s : State} (h : NsFits s) : s.nsHeader.length = 4 + s.aIl.toNat :=
  headerBytes_length _ _ _ _ _ _ h.il

theorem NsFits.nsSpan_length {s : State} (h : NsFits s) : s.nsSpan.length = 4 + s.aIl.toNat + s.pbLen.toNat := by
  rw [State.nsSpan, List.length_append, h.nsHeader_length, pbBytes_length]

theorem NsFits.nsFrame_length {s : State} (h : NsFits s) : s.nsFrame.length = 5 + s.aIl.toNat + s.pbLen.toNat := by
  rw [State.nsFrame, List.length_append, h.nsSpan_length, List.length_singleton]
  omega

/-- The body, written behind the header, completes the span. -/
theorem NsFits.fbWrite_body {s : State} (h : NsFits s) :
    fbWrite (fbWrite s.mem 0 s.nsHeader) (4 + s.aIl.toNat) (pbBytes s.mem 0 s.pbLen.toNat) = fbWrite s.mem 0 s.nsSpan := by
  have hlen := h.nsHeader_length
  have hbody := h.body
  have happend := fbWrite_append s.mem 0 s.nsHeader (pbBytes s.mem 0 s.pbLen.toNat) (by rw [pbBytes_length]; omega)
  rwa [Nat.zero_add, hlen] at happend

/-- The CRC of the span in `FB`, written behind it, completes the frame. -/
theorem NsFits.fbWrite_crc {s : State} (h : NsFits s) :
    fbWrite (fbWrite s.mem 0 s.nsSpan) (4 + s.aIl.toNat + s.pbLen.toNat)
      [crcSpan (fbWrite s.mem 0 s.nsSpan) (4 + s.aIl.toNat + s.pbLen.toNat)] = fbWrite s.mem 0 s.nsFrame := by
  have hlen := h.nsSpan_length
  have hbody := h.body
  have hspan : fbBytes (fbWrite s.mem 0 s.nsSpan) 0 s.nsSpan.length = s.nsSpan := fbBytes_fbWrite_same _ _ _ (by omega)
  have happend := fbWrite_append s.mem 0 s.nsSpan [crcTrailer s.nsSpan] (by rw [List.length_singleton]; omega)
  rw [← hlen, crcSpan, hspan]
  rwa [Nat.zero_add] at happend

/-- The state of `ENC_NS` once its header is encoded. -/
def State.withNsHeader (s : State) : State :=
  { s with
    mem := fbWrite s.mem 0 s.nsHeader,
    hType := s.aFtype, hSeqIl := BitVec.ofNat 8 (16 * s.aSeq.toNat + s.aIl.toNat), hBl := s.pbLen,
    hId := Vector.ofFn fun j => if j.val < s.aIl.toNat then s.aId[j] else 0x00,
    hFl := BitVec.ofNat 8 (4 + s.aIl.toNat + s.pbLen.toNat) }

theorem NsFits.hdrEncode_done {s : State} (h : NsFits s) :
    hdrEncode s false s.aFtype s.aSeq s.aId s.aIl.toNat s.pbLen.toNat tlNonSecure =
      .done s.withNsHeader (4 + s.aIl.toNat) := by
  have hfl : 3 + s.aIl.toNat + s.pbLen.toNat + 1 = 4 + s.aIl.toNat + s.pbLen.toNat := by omega
  have htype : (s.aFtype ||| if false = true then 0x80 else 0x00) = s.aFtype := BitVec.or_zero
  rw [tlNonSecure, Machine.hdrEncode_done s false s.aFtype s.aSeq s.aId s.aIl.toNat s.pbLen.toNat 1 h.encodeVerdict_eq_zero,
    hfl, htype, ofNat_toNat8]
  rfl

theorem NsFits.encNsBody_done {s : State} (h : NsFits s) :
    encNsBody s.withNsHeader (4 + s.aIl.toNat) =
      .done { s.withNsHeader with mem := fbWrite s.mem 0 s.nsFrame } (5 + s.aIl.toNat + s.pbLen.toNat) := by
  have hbody := h.body
  have hframe : ¬ s.withNsHeader.fbLen.toNat < 5 + s.aIl.toNat + s.pbLen.toNat := Nat.not_lt.mpr h.frame
  have hfl : s.withNsHeader.hFl.toNat = 4 + s.aIl.toNat + s.pbLen.toNat := Nat.mod_eq_of_lt (by omega)
  have hresult : 4 + s.aIl.toNat + s.pbLen.toNat + 1 = 5 + s.aIl.toNat + s.pbLen.toNat := by omega
  have hpb : pbBytes s.withNsHeader.mem 0 s.withNsHeader.pbLen.toNat = pbBytes s.mem 0 s.pbLen.toNat :=
    pbBytes_fbWrite _ _ _ _ _
  have hmem : s.withNsHeader.mem = fbWrite s.mem 0 s.nsHeader := rfl
  rw [encNsBody_eq _ _ _ hfl, hresult, if_neg hframe, hpb, hmem, h.fbWrite_body, h.fbWrite_crc]

/-- `ENC_NS` with arguments that fit: the header registers, the outcome and the frame are all it writes. -/
theorem exec_encNs_of_fits {s : State} (h : NsFits s) :
    exec .encNs s = .next { s.withNsHeader with
      cmd := 0x03, result := BitVec.ofNat 8 (5 + s.aIl.toNat + s.pbLen.toNat), err := 0x00,
      mem := fbWrite s.mem 0 s.nsFrame } := by
  have hcmd : NsFits { s with cmd := 0x03 } := ⟨h.typeLow, h.typeHigh, h.il, h.body, h.frame⟩
  have hhdr := hcmd.hdrEncode_done
  have hbody := hcmd.encNsBody_done
  dsimp only at hhdr hbody
  simp only [exec, execEncNs, command_eq, opcode, hhdr, hbody, Ended.revertHeader_done, finish_done]
  rfl

/-! ## A frame in `FB` (R100, R160) -/

/-- `FB` holds the frame of the arguments of `s`, field by field. -/
structure HoldsNsFrame (s : State) (m : Memory) : Prop where
  fl : (fbByte m 0).toNat = 4 + s.aIl.toNat + s.pbLen.toNat
  type : fbByte m 1 = s.aFtype
  seq : (fbByte m 2).toNat / 16 = s.aSeq.toNat
  il : (fbByte m 2).toNat % 16 = s.aIl.toNat
  bl : fbByte m (3 + s.aIl.toNat) = s.pbLen
  id : ∀ (j : Nat) (_ : j < 8), j < s.aIl.toNat → fbByte m (3 + j) = s.aId[j]
  body : fbBytes m (4 + s.aIl.toNat) s.pbLen.toNat = pbBytes s.mem 0 s.pbLen.toNat
  crc : fbByte m (4 + s.aIl.toNat + s.pbLen.toNat) = crcTrailer (fbBytes m 0 (4 + s.aIl.toNat + s.pbLen.toNat))

theorem State.nsFrame_eq (s : State) :
    s.nsFrame = s.nsHeader ++ (pbBytes s.mem 0 s.pbLen.toNat ++ [crcTrailer s.nsSpan]) := by
  rw [State.nsFrame, State.nsSpan, List.append_assoc]

theorem NsFits.stored_nsFrame {s : State} (h : NsFits s) : Stored s.mem 0x080 s.nsFrame (fbWrite s.mem 0 s.nsFrame) :=
  stored_fbWrite s.mem 0 s.nsFrame (by rw [h.nsFrame_length]; have := h.body; omega)

theorem NsFits.fbByte_nsFrame {s : State} (h : NsFits s) {j : Nat} (hj : j < 5 + s.aIl.toNat + s.pbLen.toNat) :
    fbByte (fbWrite s.mem 0 s.nsFrame) j = s.nsFrame.getD j 0x00 := by
  have hbody := h.body
  have hlen := h.nsFrame_length
  exact h.stored_nsFrame.fbByte j (by omega) (by omega)

/-- The frame that `ENC_NS` writes stands in `FB`. -/
theorem NsFits.holdsNsFrame {s : State} (h : NsFits s) : HoldsNsFrame s (fbWrite s.mem 0 s.nsFrame) := by
  have hil := h.il
  have hbody := h.body
  have hspanLen := h.nsSpan_length
  have hframeLen := h.nsFrame_length
  obtain ⟨hfl, htype, hseqIl, hbl, hid⟩ := headerBytes_getD (4 + s.aIl.toNat + s.pbLen.toNat) s.aFtype s.aSeq.toNat
    s.aIl.toNat s.pbLen.toNat s.aId (pbBytes s.mem 0 s.pbLen.toNat ++ [crcTrailer s.nsSpan]) hil
  rw [← State.nsHeader, ← State.nsFrame_eq] at hfl htype hseqIl hbl
  have hseqIlNat : (fbByte (fbWrite s.mem 0 s.nsFrame) 2).toNat = 16 * s.aSeq.toNat + s.aIl.toNat := by
    rw [h.fbByte_nsFrame (by omega), hseqIl, BitVec.toNat_ofNat]
    exact Nat.mod_eq_of_lt (by have := s.aSeq.isLt; omega)
  constructor
  case fl =>
    rw [h.fbByte_nsFrame (by omega), hfl, BitVec.toNat_ofNat]
    exact Nat.mod_eq_of_lt (by omega)
  case type => rw [h.fbByte_nsFrame (by omega), htype]
  case seq => omega
  case il => omega
  case bl => rw [h.fbByte_nsFrame (by omega), hbl, ofNat_toNat8]
  case id =>
    intro j _ hj
    rw [h.fbByte_nsFrame (by omega), State.nsFrame_eq]
    exact hid j hj
  case body =>
    rw [h.stored_nsFrame.fbSpan _ _ (by omega) (by omega), State.nsFrame_eq, List.drop_left' h.nsHeader_length,
      List.take_left' (pbBytes_length _ _ _)]
  case crc =>
    rw [h.stored_nsFrame.fbBytes _ (by omega) (by omega), h.fbByte_nsFrame (by omega), State.nsFrame,
      List.take_left' hspanLen, ← hspanLen, List.getD_append_right _ _ _ _ (le_refl _), Nat.sub_self, List.getD_cons_zero]

/-- A frame in `FB` passes the ten tests of `HdrDecode` (R137): its last byte is a CRC, which is never a forbidden one. -/
theorem HoldsNsFrame.decodeVerdict_eq_zero {s : State} {m : Memory} (h : HoldsNsFrame s m) (hfits : NsFits s) :
    decodeVerdict (fbByte m) (5 + s.aIl.toNat + s.pbLen.toNat) = 0x00 := by
  obtain ⟨htypeLow, htypeHigh, hil, hbody, -⟩ := hfits
  obtain ⟨hne0, hneFF⟩ := crcTrailer_allowed (fbBytes m 0 (4 + s.aIl.toNat + s.pbLen.toNat))
  rw [← h.crc] at hne0 hneFF
  have hlast := not_or.mpr ⟨hne0, hneFF⟩
  unfold decodeVerdict
  simp only [h.fl, h.type, h.il, h.bl]
  rw [if_neg (by omega), if_neg (by omega), if_neg (by omega), if_neg (by omega), if_neg (by omega), if_neg (by omega),
    if_neg (by omega), if_neg (by omega), if_neg fun hrow => hlast hrow.2, if_neg (by omega)]

/-! ## The round trip (R160) -/

/-- The header registers of `u` hold the arguments of `s`, field by field. -/
structure ReadsNsHeader (s u : State) : Prop where
  fl : u.hFl.toNat = 4 + s.aIl.toNat + s.pbLen.toNat
  type : u.hType = s.aFtype
  seq : u.hSeqIl.toNat / 16 = s.aSeq.toNat
  il : u.hSeqIl.toNat % 16 = s.aIl.toNat
  bl : u.hBl.toNat = s.pbLen.toNat
  id : ∀ (j : Nat) (_ : j < 8), j < s.aIl.toNat → u.hId[j] = s.aId[j]

theorem ReadsNsHeader.valid {s u : State} (h : ReadsNsHeader s u) : u.hFl ≠ 0x00 := by
  rw [ne_eq, hFl_zero, h.fl]
  omega

theorem ReadsNsHeader.hBoff {s u : State} (h : ReadsNsHeader s u) : u.hBoff = 4 + s.aIl.toNat := by
  rw [State.hBoff_of_valid h.valid, State.headerIl_eq, h.il]

/-- `DEC_HDR` of a frame in `FB` reads its fields back. -/
theorem HoldsNsFrame.exec_decHdr {s r : State} (h : HoldsNsFrame s r.mem) (hfits : NsFits s)
    (hlen : r.fbLen.toNat = 5 + s.aIl.toNat + s.pbLen.toNat) :
    ∃ u, exec .decHdr r = .next u ∧ u.err = 0x00 ∧ u.result = BitVec.ofNat 8 (4 + s.aIl.toNat) ∧ ReadsNsHeader s u ∧
      u.mem = r.mem ∧ u.fbLen = r.fbLen := by
  have hverdict : decodeVerdict (fbByte r.mem) r.fbLen.toNat = 0x00 := by rw [hlen, h.decodeVerdict_eq_zero hfits]
  refine ⟨_, decHdrReadsTheHeader r s.aIl.toNat hverdict h.il.symm, rfl, rfl, ?_, rfl, rfl⟩
  refine ⟨h.fl, h.type, h.seq, h.il, congrArg BitVec.toNat h.bl, fun j hj hjil => ?_⟩
  rw [Vector.getElem_ofFn, if_pos hjil]
  exact h.id j hj hjil

/-- `DEC_NS` of a frame in `FB` with its fields in the header registers finds its CRC. -/
theorem HoldsNsFrame.exec_decNs {s u : State} (h : HoldsNsFrame s u.mem) (hreads : ReadsNsHeader s u)
    (hlen : u.fbLen.toNat = 5 + s.aIl.toNat + s.pbLen.toNat) :
    exec .decNs u =
      .next { u with cmd := 0x04, result := BitVec.ofNat 8 (5 + s.aIl.toNat + s.pbLen.toNat), err := 0x00 } := by
  have hfl : u.hFl.toNat = 4 + u.hSeqIl.toNat % 16 + u.hBl.toNat := by rw [hreads.fl, hreads.il, hreads.bl]
  have hflLen : u.hFl.toNat + 1 = 5 + s.aIl.toNat + s.pbLen.toNat := by
    rw [hreads.fl]
    omega
  have hcrc : crcTrailer (fbBytes u.mem 0 u.hFl.toNat) = fbByte u.mem u.hFl.toNat := by rw [hreads.fl, h.crc]
  rw [exec_decNs_of_crc hreads.valid hfl (by omega) hcrc, hflLen]

/-- Settles O34: `ENC_NS` leaves the frame in `FB`, `DEC_HDR` reads its fields back, and `DEC_NS` finds its CRC. -/
theorem nonSecureRoundTrip : Obligations.NonSecureRoundTrip := by
  rintro s _ _ rfl rfl htypeLow htypeHigh hil hbody hcap
  have hcapNat : s.fbLen.toNat = 64 := congrArg BitVec.toNat hcap
  have hfits : NsFits s := ⟨htypeLow, htypeHigh, hil, hbody, by omega⟩
  obtain ⟨t, hencNs, hterr, htresult, htmem⟩ : ∃ t, exec .encNs s = .next t ∧ t.err = 0x00 ∧
      t.result = BitVec.ofNat 8 (5 + s.aIl.toNat + s.pbLen.toNat) ∧ t.mem = fbWrite s.mem 0 s.nsFrame :=
    ⟨_, exec_encNs_of_fits hfits, rfl, rfl, rfl⟩
  have hholds : HoldsNsFrame s t.mem := htmem ▸ hfits.holdsNsFrame
  have hlen : t.result.toNat = 5 + s.aIl.toNat + s.pbLen.toNat := by
    rw [htresult]
    exact Nat.mod_eq_of_lt (by omega)
  obtain ⟨u, hdecHdr, huerr, huresult, hreads, humem, hufbLen⟩ :=
    HoldsNsFrame.exec_decHdr (r := { t with fbLen := t.result }) hholds hfits hlen
  have hholdsU : HoldsNsFrame s u.mem := humem ▸ hholds
  have hbodyU : fbBytes u.mem u.hBoff s.pbLen.toNat = pbBytes s.mem 0 s.pbLen.toNat := by
    rw [hreads.hBoff, hholdsU.body]
  have hlenU : u.fbLen.toNat = 5 + s.aIl.toNat + s.pbLen.toNat := by rw [hufbLen, hlen]
  exact ⟨t, u, _, hencNs, hterr, htresult, hdecHdr, huerr, huresult, hreads.type, hreads.seq, hreads.il, hreads.bl, hreads.id,
    hholdsU.exec_decNs hreads hlenU, rfl, rfl, hbodyU⟩

end Sys2Proof.Machine
end

-- The secure codec family (spec/43_secure_codec.md)
section
/-! Padding: `PAD32` and `UNPAD32` in every state (R166 to R169), and `UNPAD32` after a `PAD32` that succeeded (R117). -/
namespace Sys2Proof.Machine

/-! ## `PAD32` -/

theorem pad32_of_le {s : State} {n : Nat} (h : n ≤ 31) :
    pad32 s n = .done { s with mem := pbWrite s.mem n (padding n) } 32 := if_neg (Nat.not_lt.mpr h)

theorem pad32_of_gt {s : State} {n : Nat} (h : 31 < n) : pad32 s n = .failed s .ptLen := if_pos h

/-- `PAD32` is `Pad32` of `PB_LEN` (R166). -/
theorem exec_pad32 (s : State) : exec .pad32 s = .next (finish (pad32 { s with cmd := 0x05 } s.pbLen.toNat)) := rfl

theorem exec_pad32_of_le {s : State} (h : s.pbLen.toNat ≤ 31) :
    exec .pad32 s = .next { s with
      cmd := 0x05, result := 0x20, err := 0x00, mem := pbWrite s.mem s.pbLen.toNat (padding s.pbLen.toNat) } := by
  rw [exec_pad32, pad32_of_le h, finish_done]
  rfl

theorem exec_pad32_of_gt {s : State} (h : 31 < s.pbLen.toNat) :
    exec .pad32 s = .next { s with cmd := 0x05, result := 0x00, err := 0x1E, scratch := [] } := by
  rw [exec_pad32, pad32_of_gt h, finish_failed]
  rfl

/-- Settles O35: a length that fits ends in the one write of the padding, which leaves the padded block; one that does not fit
ends in `E_PTLEN`. -/
theorem pad32WritesThePaddedBlock : Obligations.Pad32WritesThePaddedBlock :=
  fun s => ⟨fun hfits => ⟨_, exec_pad32_of_le hfits, stored_padding s.mem _ hfits⟩, exec_pad32_of_gt⟩

/-- A `PAD32` that succeeds had a length that fits, and leaves the padded block. -/
theorem stored_of_exec_pad32_success {s t : State} (hx : exec .pad32 s = .next t) (herr : t.err = 0x00) :
    s.pbLen.toNat ≤ 31 ∧ Stored s.mem 0x0C0 (paddedBlock (pbBytes s.mem 0 s.pbLen.toNat)) t.mem := by
  rcases Nat.lt_or_ge 31 s.pbLen.toNat with hlong | hfits
  · obtain rfl := Host.Outcome.next.inj (hx.symm.trans (exec_pad32_of_gt hlong))
    exact absurd herr Err.ptLen.code_ne_zero
  · obtain rfl := Host.Outcome.next.inj (hx.symm.trans (exec_pad32_of_le hfits))
    exact ⟨hfits, stored_padding s.mem _ hfits⟩

/-! ## `UNPAD32` -/

/-- `UNPAD32` looks at the count byte alone: `PB[31]`, which stands at the bus address `0x0DF` (R168, R169, R72). -/
theorem exec_unpad32 (s : State) : exec .unpad32 s = .next
    (if 31 < (Memory.read s.mem 0x0DF).toNat then { s with cmd := 0x06, result := 0x00, err := 0x23, scratch := [] }
     else { s with cmd := 0x06, result := BitVec.ofNat 8 (31 - (Memory.read s.mem 0x0DF).toNat), err := 0x00 }) := by
  have hexec : exec .unpad32 s = .next (finish
      (if 31 < (Memory.read s.mem 0x0DF).toNat then .failed { s with cmd := 0x06 } .pad
       else .done { s with cmd := 0x06 } (31 - (Memory.read s.mem 0x0DF).toNat))) := rfl
  rw [hexec, apply_ite finish, finish_failed, finish_done]
  rfl

/-! ## The count byte of a padded block -/

/-- The last byte of a padded block counts the bytes that are not data (R117). -/
theorem paddedBlock_countByte {bs : List Byte} (h : bs.length ≤ 31) :
    (paddedBlock bs).getD 31 0x00 = BitVec.ofNat 8 (31 - bs.length) := by
  have hfront : (bs ++ List.replicate (31 - bs.length) 0x00).length = 31 := by
    rw [List.length_append, List.length_replicate]
    omega
  rw [paddedBlock, List.getD_append_right _ _ _ _ hfront.le, hfront]
  rfl

theorem Stored.read_countByte {m m' : Memory} {bs : List Byte} (h : Stored m 0x0C0 (paddedBlock bs) m')
    (hlen : bs.length ≤ 31) : (Memory.read m' 0x0DF).toNat = 31 - bs.length := by
  rw [h 0x0DF, paddedBlock_length bs hlen, if_pos (by decide), paddedBlock_countByte hlen, BitVec.toNat_ofNat]
  exact Nat.mod_eq_of_lt (by omega)

/-- Settles O36: `UNPAD32` looks at the count byte alone, and a `PAD32` that succeeded left `31 - PB_LEN` there. -/
theorem unpad32ReadsTheCountByte : Obligations.Unpad32ReadsTheCountByte := by
  refine ⟨exec_unpad32, fun s t hx herr => ?_⟩
  obtain ⟨hfits, hblock⟩ := stored_of_exec_pad32_success hx herr
  have hcount : (Memory.read t.mem 0x0DF).toNat = 31 - s.pbLen.toNat := by
    rw [hblock.read_countByte (by rw [pbBytes_length]; exact hfits), pbBytes_length]
  have hlen : BitVec.ofNat 8 (31 - (31 - s.pbLen.toNat)) = s.pbLen := by
    rw [Nat.sub_sub_self hfits, ofNat_toNat8]
  rw [exec_unpad32, hcount, if_neg (by omega), hlen]

end Sys2Proof.Machine
end

-- The replay guard family (spec/44_replay_guard.md)
section
/-! The replay guard: message counters as numbers (R200 to R205), `Lookup` and the commands on the association table (R208 to
R217), the record of a receive attempt (R227), and the second presentation of an accepted frame (R225). -/
namespace Sys2Proof.Machine

/-! ## Message counters as numbers (R200) -/

theorem foldl_be (n : Nat) (bs : List Byte) :
    bs.foldl (fun n b => n * 256 + b.toNat) n = n * 256 ^ bs.length + be bs := by
  induction bs generalizing n with
  | nil => simp [be]
  | cons b bs ih =>
    rw [be, List.foldl_cons, List.foldl_cons, ih, ih (0 * 256 + b.toNat), List.length_cons]
    ring

@[simp] theorem be_nil : be [] = 0 := rfl

/-- The first byte is the most significant one. -/
theorem be_cons (b : Byte) (bs : List Byte) : be (b :: bs) = b.toNat * 256 ^ bs.length + be bs := by
  rw [be, List.foldl_cons, foldl_be, Nat.zero_mul, Nat.zero_add]

theorem be_lt_pow (bs : List Byte) : be bs < 256 ^ bs.length := by
  induction bs with
  | nil => simp
  | cons b bs ih =>
    calc be (b :: bs) = b.toNat * 256 ^ bs.length + be bs := be_cons b bs
      _ < b.toNat * 256 ^ bs.length + 256 ^ bs.length := Nat.add_lt_add_left ih _
      _ = (b.toNat + 1) * 256 ^ bs.length := (Nat.succ_mul _ _).symm
      _ ≤ 256 * 256 ^ bs.length := Nat.mul_le_mul_right _ b.isLt
      _ = 256 ^ (b :: bs).length := by rw [List.length_cons, Nat.pow_succ, Nat.mul_comm]

/-- Numbers of two digits in base `p` compare by the first digit, then by the second. -/
theorem two_digits_lt_iff {p x y r q : Nat} (hr : r < p) (hq : q < p) :
    x * p + r < y * p + q ↔ x < y ∨ x = y ∧ r < q := by
  rcases Nat.lt_trichotomy x y with hlt | rfl | hgt
  · have hstep : (x + 1) * p ≤ y * p := Nat.mul_le_mul_right p hlt
    rw [Nat.succ_mul] at hstep
    exact iff_of_true (by omega) (.inl hlt)
  · simp
  · have hstep : (y + 1) * p ≤ x * p := Nat.mul_le_mul_right p hgt
    rw [Nat.succ_mul] at hstep
    exact iff_of_false (by omega) (by omega)

/-- Byte strings of one length compare as numbers as they do lexicographically. -/
theorem be_lt_be_iff (xs ys : List Byte) (hlen : xs.length = ys.length) : be xs < be ys ↔ xs < ys := by
  induction xs generalizing ys with
  | nil =>
    obtain rfl := List.length_eq_zero_iff.mp hlen.symm
    exact iff_of_false (Nat.lt_irrefl _) (List.not_lt_nil _)
  | cons x xs ih =>
    cases ys with
    | nil => cases hlen
    | cons y ys =>
      have htail : xs.length = ys.length := Nat.succ.inj hlen
      rw [be_cons, be_cons, htail, two_digits_lt_iff (htail ▸ be_lt_pow xs) (be_lt_pow ys), List.cons_lt_cons_iff,
        ih ys htail, BitVec.lt_def, BitVec.toNat_inj]

theorem ctrValue_lt_iff (a b : Bytes 6) : ctrValue a < ctrValue b ↔ a < b :=
  be_lt_be_iff a.toList b.toList (by rw [Vector.length_toList, Vector.length_toList])

theorem ctrValue_inj {a b : Bytes 6} : ctrValue a = ctrValue b ↔ a = b := by
  refine ⟨fun h => ?_, congrArg ctrValue⟩
  have hab : ¬ a < b := by rw [← ctrValue_lt_iff]; omega
  have hba : ¬ b < a := by rw [← ctrValue_lt_iff]; omega
  exact Vector.le_antisymm (Vector.not_lt.mp hba) (Vector.not_lt.mp hab)

theorem ctrValue_lt_pow (a : Bytes 6) : ctrValue a < 2 ^ 48 := by
  calc ctrValue a < 256 ^ a.toList.length := be_lt_pow a.toList
    _ = 2 ^ 48 := by rw [Vector.length_toList]; norm_num

theorem ctrValue_eq_sum (a : Bytes 6) :
    ctrValue a = a[0].toNat * 2 ^ 40 + a[1].toNat * 2 ^ 32 + a[2].toNat * 2 ^ 24 + a[3].toNat * 2 ^ 16 +
      a[4].toNat * 2 ^ 8 + a[5].toNat := by
  have hbytes : a.toList = [a[0], a[1], a[2], a[3], a[4], a[5]] := by
    refine List.ext_getElem (by simp) fun i _ hi => ?_
    simp only [List.length_cons, List.length_nil] at hi
    interval_cases i <;> rfl
  rw [ctrValue, hbytes]
  simp only [be_cons, be_nil, List.length_cons, List.length_nil]
  omega

theorem ctrOfNat_getElem_toNat (n i : Nat) (h : i < 6) :
    ((ctrOfNat n)[i]).toNat = n / 2 ^ (8 * (5 - i)) % 256 := by
  simp [ctrOfNat, Nat.shiftRight_eq_div_pow]

/-- The bytes of a number that fits six bytes have that number for their value. -/
theorem ctrValue_ctrOfNat {n : Nat} (h : n ≤ 2 ^ 48 - 1) : ctrValue (ctrOfNat n) = n := by
  rw [ctrValue_eq_sum]
  simp only [ctrOfNat_getElem_toNat]
  omega

/-- Settles O46: on byte strings of one length the big-endian value orders as the lexicographic order does, which at six bytes
is the statement's. -/
theorem counterOrderIsLexicographic : Obligations.CounterOrderIsLexicographic := by
  intro a b
  refine ⟨ctrValue_eq_sum a, ?_, ctrValue_inj, Nat.le_sub_one_of_lt (ctrValue_lt_pow a)⟩
  rw [ctrValue_lt_iff, Vector.lt_iff_exists]
  rfl

/-! ## `CTR_CMP` and `CTR_ADD` (R201, R204) -/

theorem exec_ctrCmp (s : State) : exec .ctrCmp s = .next
    { s with cmd := 0x0B, result := BitVec.ofNat 8 (signCode (ctrValue s.ctrA) (ctrValue s.ctrB)), err := 0x00 } := rfl

/-- The sign code as the byte that `RESULT` takes. -/
theorem ofNat_signCode (a b : Nat) :
    BitVec.ofNat 8 (signCode a b) = if a = b then 0x00 else if b < a then 0x01 else 0xFF := by
  simp only [signCode, apply_ite (BitVec.ofNat 8)]
  rfl

/-- Settles O45: the sign code is the only thing `CTR_CMP` computes. -/
theorem ctrCmpGivesTheSign : Obligations.CtrCmpGivesTheSign := by
  intro s
  rw [exec_ctrCmp, ofNat_signCode]

theorem exec_ctrAdd_of_le {s : State} (h : ctrValue s.ctrA + s.delta.toNat ≤ 2 ^ 48 - 1) :
    exec .ctrAdd s = .next { s with
      cmd := 0x0C, result := 0x01, err := 0x00, ctrA := ctrOfNat (ctrValue s.ctrA + s.delta.toNat) } := by
  simp only [exec, execCtrAdd, command_eq, opcode, if_neg (Nat.not_lt.mpr h), finish_done,
    BitVec.ofNat_eq_ofNat]

theorem exec_ctrAdd_of_gt {s : State} (h : 2 ^ 48 - 1 < ctrValue s.ctrA + s.delta.toNat) :
    exec .ctrAdd s = .next { s with cmd := 0x0C, result := 0x00, err := 0x50, scratch := [] } := by
  simp only [exec, execCtrAdd, command_eq, opcode, if_pos h, finish_failed, Err.code]

/-- A `CTR_ADD` that succeeds has added: the sum fits six bytes, and it is the new counter's value. -/
theorem ctrValue_of_exec_ctrAdd_success {s t : State} (hx : exec .ctrAdd s = .next t) (herr : t.err = 0x00) :
    ctrValue t.ctrA = ctrValue s.ctrA + s.delta.toNat := by
  rcases Nat.lt_or_ge (2 ^ 48 - 1) (ctrValue s.ctrA + s.delta.toNat) with hover | hfits
  · obtain rfl := Host.Outcome.next.inj (hx.symm.trans (exec_ctrAdd_of_gt hover))
    exact absurd herr Err.ctrOverflow.code_ne_zero
  · obtain rfl := Host.Outcome.next.inj (hx.symm.trans (exec_ctrAdd_of_le hfits))
    exact ctrValue_ctrOfNat hfits

/-- Settles O47: the bytes written have the sum for their value; with `DELTA > 0` that is greater than the old value. -/
theorem ctrAddAddsOrOverflows : Obligations.CtrAddAddsOrOverflows := by
  refine ⟨fun s => ⟨fun hfits => ⟨_, exec_ctrAdd_of_le hfits, ctrValue_ctrOfNat hfits⟩, exec_ctrAdd_of_gt⟩, ?_⟩
  intro s t hx herr hdelta
  have hsum := ctrValue_of_exec_ctrAdd_success hx herr
  have hpos : 0 < s.delta.toNat := Nat.pos_of_ne_zero fun h => hdelta (BitVec.eq_of_toNat_eq h)
  refine ⟨_, exec_ctrCmp _, ?_⟩
  dsimp only
  rw [ofNat_signCode, if_neg (by omega), if_pos (by omega)]

/-! ## `Lookup` and the three commands on the table (R208 to R217) -/

/-- Settles O48: the lookup searches the entries in ascending order, and its test of an entry is R208's. -/
theorem lookupFindsTheFirstMatch : Obligations.LookupFindsTheFirstMatch :=
  fun m n p len _ => ⟨fun k => lookup_eq_some m n p len k, lookup_eq_none m n p len⟩

theorem exec_rxLookup_of_gt {s : State} (h : 8 < s.aIl.toNat) :
    exec .rxLookup s = .next { s with cmd := 0x0D, result := 0x00, err := 0x11, scratch := [] } := by
  simp only [exec, execRxLookup, command_eq, opcode, maxIl, if_pos h, finish_failed, Err.code]

theorem exec_rxLookup_of_none {s : State} (hil : s.aIl.toNat ≤ 8)
    (h : lookup s.mem s.params.assocN s.aId s.aIl.toNat = none) :
    exec .rxLookup s = .next { s with cmd := 0x0D, result := 0x00, err := 0x30, assocIdx := 0xFF, scratch := [] } := by
  simp only [exec, execRxLookup, command_eq, opcode, maxIl, if_neg (Nat.not_lt.mpr hil), h, finish_failed, Err.code]

theorem exec_rxLookup_of_some {s : State} {k : Nat} (hil : s.aIl.toNat ≤ 8)
    (h : lookup s.mem s.params.assocN s.aId s.aIl.toNat = some k) :
    exec .rxLookup s = .next { s with
      cmd := 0x0D, result := 0x01, err := 0x00, assocIdx := BitVec.ofNat 8 k, nodeId := assocId s.mem k,
      ctrB := assocCtr s.mem k } := by
  simp only [exec, execRxLookup, command_eq, opcode, maxIl, if_neg (Nat.not_lt.mpr hil), h, finish_done,
    BitVec.ofNat_eq_ofNat]

/-- Settles O49: an ID length above 8, and the two answers of the lookup. -/
theorem rxLookupResolvesThePrefix : Obligations.RxLookupResolvesThePrefix := fun _ =>
  ⟨exec_rxLookup_of_gt, fun hil hno => exec_rxLookup_of_none hil ((lookup_eq_none _ _ _ _).mpr hno),
    fun hil _ hk => exec_rxLookup_of_some hil ((lookup_eq_some _ _ _ _ _).mpr hk)⟩

theorem exec_rxValidate_of_none {s : State} (h : lookup s.mem s.params.assocN s.nodeId 8 = none) :
    exec .rxValidate s = .next { s with cmd := 0x0E, result := 0x00, err := 0x30, assocIdx := 0xFF, scratch := [] } := by
  simp only [exec, execRxValidate, command_eq, opcode, h, finish_failed, Err.code]

theorem exec_rxValidate_of_some {s : State} {k : Nat} (h : lookup s.mem s.params.assocN s.nodeId 8 = some k) :
    exec .rxValidate s = .next
      (if ctrValue (assocCtr s.mem k) < ctrValue s.ctrA then
        { s with cmd := 0x0E, result := 0x01, err := 0x00, assocIdx := BitVec.ofNat 8 k }
       else { s with cmd := 0x0E, result := 0x00, err := 0x31, assocIdx := BitVec.ofNat 8 k, scratch := [] }) := by
  simp only [exec, execRxValidate, command_eq, opcode, h, isNewer, decide_eq_true_eq, apply_ite finish, finish_done,
    finish_failed, Err.code, BitVec.ofNat_eq_ofNat]

/-- Settles O50: the two answers of the lookup, and for an entry the strictly-greater test. -/
theorem rxValidateAcceptsOnlyGreater : Obligations.RxValidateAcceptsOnlyGreater := fun _ =>
  ⟨fun hno => exec_rxValidate_of_none ((lookup_eq_none _ _ _ _).mpr hno),
    fun _ hk => exec_rxValidate_of_some ((lookup_eq_some _ _ _ _ _).mpr hk)⟩

theorem exec_rxCommit_of_none {s : State} (h : lookup s.mem s.params.assocN s.nodeId 8 = none) :
    exec .rxCommit s = .next { s with cmd := 0x0F, result := 0x00, err := 0x30, assocIdx := 0xFF, scratch := [] } := by
  simp only [exec, execRxCommit, command_eq, opcode, h, finish_failed, Err.code]

/-- `RX_COMMIT` of a known sender: the strictly-greater test, then `COMMIT_OK`, then the write. -/
theorem exec_rxCommit_of_some {s : State} {k : Nat} (h : lookup s.mem s.params.assocN s.nodeId 8 = some k) :
    exec .rxCommit s = .next
      (if ctrValue s.ctrA ≤ ctrValue (assocCtr s.mem k) then
        { s with cmd := 0x0F, result := 0x00, err := 0x31, assocIdx := BitVec.ofNat 8 k, scratch := [] }
       else if s.commitOk = false then
        { s with cmd := 0x0F, result := 0x00, err := 0x32, assocIdx := BitVec.ofNat 8 k, scratch := [] }
       else { s with
        cmd := 0x0F, result := 0x01, err := 0x00, assocIdx := BitVec.ofNat 8 k, mem := setAssocCtr s.mem k s.ctrA }) := by
  simp only [exec, execRxCommit, command_eq, opcode, h, isNewer, Bool.not_eq_true', decide_eq_false_iff_not, Nat.not_lt,
    apply_ite finish, finish_done, finish_failed, Err.code, BitVec.ofNat_eq_ofNat]

/-- Settles O51: the two answers of the lookup, and for an entry the two tests and the one write of its counter bytes. -/
theorem rxCommitComparesAndSets : Obligations.RxCommitComparesAndSets := by
  refine fun s => ⟨fun hno => exec_rxCommit_of_none ((lookup_eq_none _ _ _ _).mpr hno), fun k hk => ?_⟩
  rw [exec_rxCommit_of_some ((lookup_eq_some _ _ _ _ _).mpr hk)]
  refine ⟨fun hold => ?_, fun hnew hoff => ?_, fun hnew hon => ⟨setAssocCtr s.mem k s.ctrA, ?_, stored_setAssocCtr _ _ _⟩⟩
  · rw [if_pos hold]
  · rw [if_neg (Nat.not_le.mpr hnew), if_pos hoff]
  · rw [if_neg (Nat.not_le.mpr hnew), if_neg (by rw [hon]; decide)]

/-! ## Who writes `FSM` and `FSM_TRACE` (R227, R228) -/

/-- The receive attempt that a state records: `FSM` and `FSM_TRACE`. -/
def State.attempt (s : State) : Byte × Byte := (s.fsm, s.fsmTrace)

/-- The commands that take no part in a receive attempt keep the last one's record. -/
theorem exec_attempt_eq {i : Instr} (hdec : i ≠ .decHdr) (hsec : i ≠ .decSec) (hsrst : i ≠ .srst) (s : State) :
    ∃ t, exec i s = .next t ∧ t.attempt = s.attempt := by
  cases i with
  | nop => exact ⟨_, rfl, rfl⟩
  | encHdr => rcases encHdr_cases s with ⟨_, _, _, _, _, _, _, h, -⟩ | ⟨_, -, h⟩ <;> exact ⟨_, h, rfl⟩
  | decHdr => exact absurd rfl hdec
  | encNs =>
    rcases encNs_cases s with ⟨_, _, _, _, _, _, _, h, -⟩ | ⟨_, -, h⟩ | ⟨_, h, -⟩ <;> exact ⟨_, h, rfl⟩
  | decNs => rcases decNs_cases s with ⟨_, h⟩ | ⟨_, -, h⟩ <;> exact ⟨_, h, rfl⟩
  | pad32 => rcases pad32_cases s with ⟨_, _, h, -⟩ | h <;> exact ⟨_, h, rfl⟩
  | unpad32 => rcases unpad32_cases s with ⟨_, h⟩ | h <;> exact ⟨_, h, rfl⟩
  | encRaw =>
    rcases encRaw_cases s with ⟨_, _, _, _, _, _, _, h, -⟩ | ⟨_, -, h⟩ | ⟨_, _, -, h, -⟩ <;> exact ⟨_, h, rfl⟩
  | decRaw => rcases decRaw_cases s with ⟨_, _, _, h, -⟩ | ⟨_, -, h⟩ <;> exact ⟨_, h, rfl⟩
  | encSec =>
    rcases encSec_cases s with ⟨_, -, h⟩ | ⟨_, _, _, _, _, _, _, _, h, -⟩ | ⟨_, _, -, h⟩ | ⟨_, _, _, -, h, -⟩ <;>
      exact ⟨_, h, rfl⟩
  | decSec => exact absurd rfl hsec
  | ctrCmp => exact ⟨_, rfl, rfl⟩
  | ctrAdd => rcases ctrAdd_cases s with ⟨_, _, h⟩ | h <;> exact ⟨_, h, rfl⟩
  | rxLookup => rcases rxLookup_cases s with ⟨_, _, _, _, -, h⟩ | h | h <;> exact ⟨_, h, rfl⟩
  | rxValidate => rcases rxValidate_cases s with ⟨_, _, -, h⟩ | ⟨_, -, h⟩ | h <;> exact ⟨_, h, rfl⟩
  | rxCommit => rcases rxCommit_cases s with ⟨_, _, -, -, h⟩ | ⟨_, _, -, -, h⟩ | h <;> exact ⟨_, h, rfl⟩
  | srst => exact absurd rfl hsrst

theorem exec_srst_attempt (s : State) : ∃ t, exec .srst s = .next t ∧ t.attempt = (0x00, 0x01) := ⟨_, rfl, rfl⟩

/-- `DEC_HDR` ends in `HeaderValid`, or in `Rejected` from `HeaderPending`. -/
theorem exec_decHdr_attempt (s : State) :
    ∃ t, exec .decHdr s = .next t ∧
      (t.err = 0x00 ∧ t.attempt = (1, 0x03) ∨ t.err ≠ 0x00 ∧ t.attempt = (7, 0x81)) := by
  rcases decHdr_cases s with ⟨_, _, _, _, _, _, h, -⟩ | ⟨_, hmem, h⟩
  · exact ⟨_, h, .inl ⟨rfl, rfl⟩⟩
  · exact ⟨_, h, .inr ⟨ne_of_mem_of_not_mem hmem (by decide), rfl⟩⟩

/-- `DEC_SEC` ends in `CounterCommitted`, or in `Rejected` from one of the states before it. -/
theorem exec_decSec_attempt (s : State) :
    ∃ t, exec .decSec s = .next t ∧
      (t.err = 0x00 ∧ t.attempt = (5, 0x3F) ∨
        t.err ≠ 0x00 ∧ t.fsm = 7 ∧ t.fsmTrace ∈ [0x81, 0x83, 0x87, 0x8F, (0x9F : Byte)]) := by
  rcases decSec_cases s with ⟨_, _, _, _, -, -, -, h⟩ | ⟨_, _, _, -, -, h⟩ | ⟨_, _, hmem, -, h⟩ | ⟨_, -, h⟩ | h |
    ⟨_, _, hmem, htr, h⟩
  · exact ⟨_, h, .inl ⟨rfl, rfl⟩⟩
  · exact ⟨_, h, .inr ⟨Err.commit.code_ne_zero, rfl, (by decide : (0x9F : Byte) ∈ _)⟩⟩
  · exact ⟨_, h, .inr ⟨ne_of_mem_of_not_mem hmem (by decide), rfl, (by decide : (0x8F : Byte) ∈ _)⟩⟩
  · exact ⟨_, h, .inr ⟨Err.replay.code_ne_zero, rfl, (by decide : (0x87 : Byte) ∈ _)⟩⟩
  · exact ⟨_, h, .inr ⟨Err.unknownId.code_ne_zero, rfl, (by decide : (0x83 : Byte) ∈ _)⟩⟩
  · exact ⟨_, h, .inr ⟨ne_of_mem_of_not_mem hmem (by decide), rfl, List.mem_append_left [0x87, 0x8F, 0x9F] htr⟩⟩

theorem writeLoc_attempt (s : State) (v : Byte) (l : Loc) : (writeLoc s v l).attempt = s.attempt := by
  cases l <;> rfl

/-- What a command leaves, given what it leaves in some next state: it has only one. -/
theorem of_exec_next {i : Instr} {s t : State} {P : State → Prop} (hx : exec i s = .next t)
    (h : ∃ u, exec i s = .next u ∧ P u) : P t := by
  obtain ⟨u, hu, hP⟩ := h
  obtain rfl := Host.Outcome.next.inj (hx.symm.trans hu)
  exact hP

/-- Settles O16: the ends of each command, and the one place where each other bus write stores. -/
theorem receiveStateWriters : Obligations.ReceiveStateWriters := by
  refine ⟨fun i s t hx => ⟨fun hdec hsec hsrst => ?_, ?_, ?_, ?_, ?_, ?_⟩, fun s t a v hcmd hw => ?_, rfl, rfl⟩
  · exact Prod.ext_iff.mp (of_exec_next hx (exec_attempt_eq hdec hsec hsrst s))
  · rintro rfl
    exact Prod.ext_iff.mp (of_exec_next hx (exec_srst_attempt s))
  · rintro rfl herr
    rcases of_exec_next hx (exec_decHdr_attempt s) with ⟨-, hend⟩ | ⟨hne, -⟩
    · exact Prod.ext_iff.mp hend
    · exact absurd herr hne
  · rintro rfl herr
    rcases of_exec_next hx (exec_decHdr_attempt s) with ⟨h0, -⟩ | ⟨-, hend⟩
    · exact absurd h0 herr
    · exact Prod.ext_iff.mp hend
  · rintro rfl herr
    rcases of_exec_next hx (exec_decSec_attempt s) with ⟨-, hend⟩ | ⟨hne, -⟩
    · exact Prod.ext_iff.mp hend
    · exact absurd herr hne
  · rintro rfl herr
    rcases of_exec_next hx (exec_decSec_attempt s) with ⟨h0, -⟩ | ⟨-, hend⟩
    · exact absurd h0 herr
    · exact hend
  · obtain rfl := Host.Outcome.next.inj (hw.symm.trans (busWrite_eq s a v hcmd))
    exact Prod.ext_iff.mp (writeLoc_attempt s v _)

/-! ## A second presentation of an accepted frame (R225) -/

/-- `x` presents to `DEC_SEC` the frame that `s` presents: what `DEC_SEC` reads of the header registers, `FB_LEN`, and
the bytes of `FB`. -/
structure SameFrame (x s : State) : Prop where
  fl : x.hFl = s.hFl
  seqIl : x.hSeqIl = s.hSeqIl
  bl : x.hBl = s.hBl
  id : x.hId = s.hId
  fbLen : x.fbLen = s.fbLen
  fb : fbByte x.mem = fbByte s.mem

theorem SameFrame.frameCtr {x s : State} (h : SameFrame x s) : x.frameCtr = s.frameCtr := by
  simp only [State.frameCtr, State.hToff, State.headerIl, h.fl, h.seqIl, h.bl, h.fb]

theorem SameFrame.decSecError {x s : State} (h : SameFrame x s) (hparams : x.params = s.params) :
    decSecError x = decSecError s := by
  have htl : x.hTl = s.hTl := by simp only [State.hTl, State.headerIl, h.fl, h.seqIl, h.bl]
  rw [Machine.decSecError, Machine.decSecError, htl, h.fl, h.fbLen, hparams]

/-- The ID bytes of the frame that `x` presents resolve to entry `k`, and its counter is not above the stored one. -/
structure Spent (x : State) (k : Nat) : Prop where
  resolves : lookup x.mem x.params.assocN x.hId (x.hSeqIl.toNat % 16) = some k
  notNewer : ctrValue x.frameCtr ≤ ctrValue (assocCtr x.mem k)

/-- A spent counter is rejected, at `IDResolved` if an earlier test does not reject the frame before. -/
theorem Spent.exec_decSec {x : State} {k : Nat} (h : Spent x k) :
    ∃ u, exec .decSec x = .next u ∧ u.err ≠ 0x00 ∧ u.fsmTrace ∈ [0x81, 0x83, (0x87 : Byte)] ∧ u.mem = x.mem := by
  by_cases hvalid : x.hFl = 0x00
  · exact ⟨_, exec_decSec_noHeader x hvalid, Err.hdrInvalid.code_ne_zero, (by decide : (0x81 : Byte) ∈ _), rfl⟩
  by_cases htests : errOf (decSecError x) = 0x00
  · exact ⟨_, exec_decSec_replay x k hvalid htests h.resolves h.notNewer, Err.replay.code_ne_zero,
      (by decide : (0x87 : Byte) ∈ _), rfl⟩
  · exact ⟨_, exec_decSec_structure x hvalid htests, htests, (by decide : (0x83 : Byte) ∈ _), rfl⟩

/-- The entry of the table that `DEC_SEC` has accepted the frame of `s` for, and what it has written: the record of the
attempt, the resolution, the nonce, the plaintext, and the entry's counter (R221). -/
theorem decSec_accepted_state {s t : State} (hx : exec .decSec s = .next t) (herr : t.err = 0x00) :
    ∃ k, lookup s.mem s.params.assocN s.hId (s.hSeqIl.toNat % 16) = some k ∧ ∃ r n bs,
      t = { s.checked k with
        result := r, err := 0x00, fsm := 5, fsmTrace := 0x3F, pbLen := n, scratch := [],
        mem := setAssocCtr (pbWrite s.mem 0 bs) k s.frameCtr } := by
  obtain ⟨-, -, -, k, hk, -, u, r, hraw, rfl⟩ := decSec_accepted hx herr
  obtain ⟨-, _, -, bs, -, n, -, rfl⟩ := rawDecode_done_state hraw
  exact ⟨k, hk, _, _, bs, rfl⟩

/-- An acceptance leaves the frame as it was. -/
theorem sameFrame_of_accepted {s t : State} (hx : exec .decSec s = .next t) (herr : t.err = 0x00) : SameFrame t s := by
  obtain ⟨k, -, r, n, bs, rfl⟩ := decSec_accepted_state hx herr
  exact ⟨rfl, rfl, rfl, rfl, rfl, funext fun j => by rw [fbByte_setAssocCtr, fbByte_pbWrite]⟩

theorem params_of_accepted {s t : State} (hx : exec .decSec s = .next t) (herr : t.err = 0x00) : t.params = s.params := by
  obtain ⟨k, -, r, n, bs, rfl⟩ := decSec_accepted_state hx herr
  rfl

/-- An acceptance stores the frame's counter in the entry that its ID bytes resolve to, and that entry stays the first
match. -/
theorem stored_of_accepted {s t : State} (hx : exec .decSec s = .next t) (herr : t.err = 0x00) :
    ∃ k, t.assocIdx = BitVec.ofNat 8 k ∧ lookup t.mem t.params.assocN s.hId (s.hSeqIl.toNat % 16) = some k ∧
      assocCtr t.mem k = s.frameCtr := by
  obtain ⟨k, hk, r, n, bs, rfl⟩ := decSec_accepted_state hx herr
  refine ⟨k, rfl, ?_, by rw [assocCtr_setAssocCtr, if_pos rfl]⟩
  rw [← hk]
  refine lookup_congr _ _ _ _ _ fun j => ⟨?_, ?_⟩
  · rw [assocValid_setAssocCtr, assocValid_pbWrite]
  · rw [assocId_setAssocCtr, assocId_pbWrite]

/-! Two memories that agree from `0x100` up hold the same table (R70). -/
section
variable {m m' : Memory} (h : ∀ a, 0x100 ≤ a → Memory.read m' a = Memory.read m a)
include h

theorem lookup_of_sameTable (n : Nat) (p : Bytes 8) (len : Nat) : lookup m' n p len = lookup m n p len := by
  refine lookup_congr _ _ _ _ _ fun k => ⟨?_, Vector.ext fun j hj => ?_⟩
  · rw [assocValid, assocValid, h _ (by simp only [assocBase]; omega)]
  · rw [assocId_getElem, assocId_getElem, h _ (by omega)]

theorem assocCtr_of_sameTable (k : Nat) : assocCtr m' k = assocCtr m k :=
  Vector.ext fun j hj => by rw [assocCtr_getElem, assocCtr_getElem, h _ (by omega)]

end

/-- After an acceptance, with its table, every presentation of the same ID bytes and counter is spent at its entry. -/
theorem spent_of_accepted {s t x : State} (hx : exec .decSec s = .next t) (herr : t.err = 0x00)
    (hparams : x.params = t.params) (htable : ∀ a, 0x100 ≤ a → Memory.read x.mem a = Memory.read t.mem a)
    (hil : x.hSeqIl.toNat % 16 = s.hSeqIl.toNat % 16) (hid : x.hId = s.hId) (hctr : x.frameCtr = s.frameCtr) :
    ∃ k, t.assocIdx = BitVec.ofNat 8 k ∧ Spent x k := by
  obtain ⟨k, hidx, hk, hstored⟩ := stored_of_accepted hx herr
  refine ⟨k, hidx, ?_, ?_⟩
  · rw [lookup_of_sameTable htable, hparams, hil, hid, hk]
  · rw [assocCtr_of_sameTable htable, hstored, hctr]

/-- `DEC_SEC` of the accepted frame again, in the memory that the acceptance left: a replay, at `IDResolved`. -/
theorem exec_decSec_again {s t x : State} (hx : exec .decSec s = .next t) (herr : t.err = 0x00) (hframe : SameFrame x s)
    (hparams : x.params = t.params) (hmem : x.mem = t.mem) :
    ∃ u, exec .decSec x = .next u ∧ u.err = 0x31 ∧ u.result = 0x00 ∧ u.fsm = 7 ∧ u.fsmTrace = 0x87 ∧ u.mem = t.mem ∧
      u.assocIdx = t.assocIdx := by
  obtain ⟨hvalid, htests, -⟩ := decSec_accepted hx herr
  obtain ⟨k, hidx, hspent⟩ := spent_of_accepted hx herr hparams (fun a _ => by rw [hmem])
    (by rw [hframe.seqIl]) hframe.id hframe.frameCtr
  have hvalidX : x.hFl ≠ 0x00 := hframe.fl ▸ hvalid
  have htestsX : errOf (decSecError x) = 0x00 := by
    rw [hframe.decSecError (hparams.trans (params_of_accepted hx herr)), htests]
  exact ⟨_, exec_decSec_replay x k hvalidX htestsX hspent.resolves hspent.notNewer, rfl, rfl, rfl, rfl, hmem, hidx.symm⟩

/-- A `DEC_HDR` that succeeds found a header that passes the ten tests. -/
theorem decodeVerdict_of_exec_decHdr_success {r s : State} (hx : exec .decHdr r = .next s) (herr : s.err = 0x00) :
    decodeVerdict (fbByte r.mem) r.fbLen.toNat = 0x00 := by
  by_contra hfail
  obtain rfl := Host.Outcome.next.inj (hx.symm.trans (decHdrFailsByTheFirstTest r _ rfl hfail))
  exact hfail herr

/-- `DEC_HDR` reads the same header from the same frame. -/
theorem exec_decHdr_again {r s t : State} (hx : exec .decHdr r = .next s) (herr : s.err = 0x00) (hframe : SameFrame t s) :
    ∃ w, exec .decHdr t = .next w ∧ w.err = 0x00 ∧ SameFrame w s ∧ w.params = t.params ∧ w.mem = t.mem := by
  have hverdict := decodeVerdict_of_exec_decHdr_success hx herr
  obtain rfl := Host.Outcome.next.inj (hx.symm.trans (decHdrReadsTheHeader r _ hverdict rfl))
  have hfb : fbByte t.mem = fbByte r.mem := hframe.fb
  have hlen : t.fbLen = r.fbLen := hframe.fbLen
  refine ⟨_, decHdrReadsTheHeader t _ (by rw [hfb, hlen, hverdict]) rfl, rfl, ?_, rfl, rfl⟩
  constructor <;> simp only [hfb, hlen]

/-- Settles O54: the acceptance has stored the frame's counter, so the frame is spent, and a spent frame is rejected. -/
theorem acceptedFrameIsRejectedTheSecondTime : Obligations.AcceptedFrameIsRejectedTheSecondTime := by
  intro s t hx herr
  have hframe := sameFrame_of_accepted hx herr
  refine ⟨exec_decSec_again hx herr hframe rfl rfl, fun r hr hrerr => ?_, fun x u hparams htable hil hid hctr hu => ?_⟩
  · obtain ⟨w, hw, hwerr, hwframe, hwparams, hwmem⟩ := exec_decHdr_again hr hrerr hframe
    obtain ⟨u, hu⟩ := exec_decSec_again hx herr hwframe hwparams hwmem
    exact ⟨w, u, hw, hwerr, hu⟩
  · obtain ⟨k, -, hspent⟩ := spent_of_accepted hx herr hparams htable hil hid hctr
    exact of_exec_next hu hspent.exec_decSec

end Sys2Proof.Machine
end

-- The system commands family (spec/46_system_commands.md)
section
/-! The system commands: `NOP` (R255), and the bus read of `STATUS.OK` (R35) that follows it. -/
namespace Sys2Proof.Machine

/-! ## `STATUS.OK` on the bus (R35, R70) -/

theorem locOf_status (n : Nat) : locOf n 0x001 = .status := by rw [locOf_low n _ (by decide)]; decide

theorem busRead_status (s : State) : busRead s 0x001 = s.status := by rw [busRead, locOf_status]; rfl

/-- Bit 1 of `STATUS` depends on `ERR` alone: the `HDR_VALID` operand leaves it clear. -/
theorem State.status_ok_iff (s : State) : s.status.getLsbD 1 = true ↔ s.err = 0x00 := by
  have hhdr : (if s.hFl = 0x00 then 0x00 else 0x04 : Byte).getLsbD 1 = false := by split <;> rfl
  rw [State.status, BitVec.getLsbD_or, hhdr, Bool.or_false]
  by_cases herr : s.err = 0x00
  · rw [if_pos herr]; exact iff_of_true rfl herr
  · rw [if_neg herr]; exact iff_of_false (by decide) herr

/-! ## `NOP` (R255) -/

theorem exec_nop (s : State) : exec .nop s = .next { s with cmd := 0x00, result := 0x00, err := 0x00 } := by
  simp only [exec, execNop, command_eq, opcode, finish_done, BitVec.ofNat_eq_ofNat]

/-- Settles O22: the end of the command writes the three registers, and `STATUS.OK` reads the `ERR` it leaves. -/
theorem nopOnlyClearsTheOutcome : Obligations.NopOnlyClearsTheOutcome := by
  refine fun s => ⟨exec_nop s, fun t hx => ?_⟩
  rw [busRead_status, State.status_ok_iff]
  exact of_exec_next (P := fun u => u.err = 0x00) hx ⟨_, exec_nop s, rfl⟩

end Sys2Proof.Machine
end

-- The reset family (spec/70_reset_and_hazards.md)
section
/-! The block just after hardware reset (R290): what the host reads at every address (R291), and how every command ends when
nothing has been loaded (R297). -/
namespace Sys2Proof.Machine

/-- The block just after hardware reset (R290), for any parameters and either level of `COMMIT_OK`. -/
def State.afterReset (p : Params) (b : Bool) : State := { State.reset with params := p, commitOk := b }

/-! ## What the host reads (R291) -/

theorem getD_replicate_zero (n i : Nat) : (Vector.replicate n (0x00 : Byte)).toList.getD i 0x00 = 0x00 := by
  rw [Vector.toList_replicate, List.getD_eq_getElem?_getD, List.getElem?_getD_replicate_default_eq]

theorem fbByte_nil (i : Nat) : fbByte [] i = 0x00 := ite_self _

theorem pbByte_nil (i : Nat) : pbByte [] i = 0x00 := ite_self _

theorem assocValid_nil (k : Nat) : assocValid [] k = false := by rw [assocValid, Memory.read_nil]; decide

/-- Every location reads 0x00 but three: `STATUS`, because `ERR = 0x00` sets `OK`, and the two registers whose reset value is
not zero. -/
theorem readLoc_afterReset (p : Params) (b : Bool) (l : Loc) : readLoc (State.afterReset p b) l =
    if l = .status then 0x02 else if l = .fsmTrace then 0x01 else if l = .assocIdx then 0xFF else 0x00 := by
  cases l with
  | aId i | hId i | txId i | nodeId i | ctrA i | ctrB i | iv i =>
    exact getD_replicate_zero _ i
  | fb i => exact fbByte_nil i
  | pb i => exact pbByte_nil i
  | assocValid k => exact congrArg bitByte (assocValid_nil k)
  | status =>
    have hstatus : State.reset.status = 0x02 := by decide
    exact hstatus
  | _ => rfl

/-- A location that the map names at its own address is named nowhere else. -/
theorem locOf_eq_iff {n : Nat} {l : Loc} (hl : locOf n l.addr = l) (hne : l ≠ .reserved) (a : BusAddr) :
    locOf n a = l ↔ a = l.addr := by
  constructor
  · rintro rfl
    rcases locOf_cases n a with hres | ⟨-, haddr⟩
    · exact absurd hres hne
    · exact haddr.symm
  · rintro rfl
    exact hl

theorem locOf_fsmTrace (n : Nat) : locOf n 0x005 = .fsmTrace := by rw [locOf_low n _ (by decide)]; decide

theorem locOf_assocIdx (n : Nat) : locOf n 0x007 = .assocIdx := by rw [locOf_low n _ (by decide)]; decide

/-- Settles O10: the three locations that do not read 0x00 stand at the three addresses named, and nowhere else. -/
theorem resetReads : Obligations.ResetReads := by
  intro p b a _
  have hstatus : locOf p.assocN a = .status ↔ a = 0x001 := locOf_eq_iff (locOf_status _) (by decide) a
  have htrace : locOf p.assocN a = .fsmTrace ↔ a = 0x005 := locOf_eq_iff (locOf_fsmTrace _) (by decide) a
  have hidx : locOf p.assocN a = .assocIdx ↔ a = 0x007 := locOf_eq_iff (locOf_assocIdx _) (by decide) a
  calc busRead (State.afterReset p b) a
      = readLoc (State.afterReset p b) (locOf p.assocN a) := rfl
    _ = _ := by simp only [readLoc_afterReset, hstatus, htrace, hidx]

/-! ## Commands that end at their first tests -/

/-- `HdrEncode` tests the frame type first (R132). -/
theorem encodeVerdict_of_ftNone (secure : Bool) (il bl tl cap : Nat) : encodeVerdict secure 0x00 il bl tl cap = 0x10 :=
  if_pos (.inl rfl)

/-- `HdrDecode` tests the buffer's length first (R137). -/
theorem decodeVerdict_of_short {fb : Nat → Byte} {n : Nat} (h : n < 5) : decodeVerdict fb n = 0x15 := if_pos h

/-- `ENC_NS` whose header does not encode: `H_FL` is cleared, no byte of memory is written (R134, R153). -/
theorem exec_encNs_of_header_failed {s : State} {e : Byte}
    (he : encodeVerdict false s.aFtype s.aIl.toNat s.pbLen.toNat 1 s.fbLen.toNat = e) (hne : e ≠ 0x00) :
    exec .encNs s = .next { s with cmd := 0x03, result := 0x00, err := e, hFl := 0x00, scratch := [] } := by
  subst he
  obtain ⟨err, hcode, hfailed⟩ :=
    hdrEncode_failed { s with cmd := 0x03 } false s.aFtype s.aSeq s.aId s.aIl.toNat s.pbLen.toNat 1 hne
  simp only [exec, execEncNs, command_eq, opcode, tlNonSecure, hfailed, finish_failed, hcode]
  rfl

/-- `ENC_RAW` without a key: its first test (R173). -/
theorem exec_encRaw_of_noKey {s : State} (h : s.ctrl.getLsbD 0 = false) :
    exec .encRaw s = .next { s with cmd := 0x07, result := 0x00, err := 0x43, scratch := [] } := by
  have herr : errOf (rawEncodeError { s with cmd := 0x07 }) = 0x43 := (errOf_rawEncodeError _).trans (if_pos h)
  obtain ⟨err, hcode, hfailed⟩ := rawEncode_early { s with cmd := 0x07 } s.aId (by rw [herr]; decide)
  simp only [exec, execEncRaw, command_eq, opcode, hfailed, finish_failed, hcode, herr]

/-- `DEC_RAW` without a key: its first test (R181). -/
theorem exec_decRaw_of_noKey {s : State} (h : s.ctrl.getLsbD 0 = false) :
    exec .decRaw s = .next { s with cmd := 0x08, result := 0x00, err := 0x43, scratch := [] } := by
  have herr : errOf (rawDecodeError { s with cmd := 0x08 }) = 0x43 := (errOf_rawDecodeError _).trans (if_pos h)
  obtain ⟨err, hcode, hfailed⟩ := rawDecode_early { s with cmd := 0x08 } (by rw [herr]; decide)
  simp only [exec, execDecRaw, command_eq, opcode, hfailed, finish_failed, hcode, herr]

/-- `ENC_SEC` that fails one of its own tests has written nothing (R190). -/
theorem exec_encSec_of_error {s : State} {e : Byte} (he : errOf (encSecError s) = e) (hne : e ≠ 0x00) :
    exec .encSec s = .next { s with cmd := 0x09, result := 0x00, err := e, scratch := [] } := by
  have hcmd : encSecError { s with cmd := 0x09 } = encSecError s := rfl
  cases htest : encSecError s with
  | none => exact absurd (by rw [← he, htest]; rfl) hne
  | some err =>
    rw [htest, errOf_some] at he
    simp only [exec, execEncSec, command_eq, opcode, hcmd, htest, finish_failed, he]

/-! ## An empty memory -/

/-- No entry of an empty table is valid, so none matches (R208). -/
theorem lookup_nil (n : Nat) (q : Bytes 8) (len : Nat) : lookup [] n q len = none :=
  (lookup_eq_none _ _ _ _).mpr fun k _ ⟨hvalid, _⟩ => Bool.eq_false_iff.mp (assocValid_nil k) hvalid

/-- `PAD32` of an empty body leaves the count byte of an empty block in `PB[31]` (R117, R166). -/
theorem read_countByte_of_pad32_empty {s t : State} (hlen : s.pbLen = 0x00) (hx : exec .pad32 s = .next t)
    (herr : t.err = 0x00) : Memory.read t.mem 0x0DF = 0x1F := by
  obtain ⟨-, hblock⟩ := stored_of_exec_pad32_success hx herr
  rw [hlen] at hblock
  exact BitVec.eq_of_toNat_eq (hblock.read_countByte (Nat.zero_le _))

/-! ## How every command ends (R297) -/

/-- Settles O11, command by command: each ends by the first test of its rule that an unloaded block fails, or succeeds on
zeros. -/
theorem everyCommandHasAnOutcomeAfterReset : Obligations.EveryCommandHasAnOutcomeAfterReset := by
  intro p b i
  change ∃ t, exec i (State.afterReset p b) = .next t ∧ _
  have hkey : State.reset.ctrl.getLsbD 0 = false := by decide
  cases i with
  | nop => exact ⟨_, exec_nop _, rfl, nofun⟩
  | encHdr =>
    exact ⟨_, encHdrFailsByTheFirstTest _ 0x10 (encodeVerdict_of_ftNone _ _ _ _ _) (by decide), rfl, nofun⟩
  | decHdr =>
    have hshort : State.reset.fbLen.toNat < 5 := by decide
    exact ⟨_, decHdrFailsByTheFirstTest _ 0x15 (decodeVerdict_of_short hshort) (by decide), rfl, nofun⟩
  | encNs =>
    exact ⟨_, exec_encNs_of_header_failed (encodeVerdict_of_ftNone _ _ _ _ _) (by decide), rfl, nofun⟩
  | decNs => exact ⟨_, decNsVerdict _ _ rfl, rfl, nofun⟩
  | pad32 =>
    have hfits : State.reset.pbLen.toNat ≤ 31 := by decide
    have hx := exec_pad32_of_le (s := State.afterReset p b) hfits
    exact ⟨_, hx, rfl, fun _ => read_countByte_of_pad32_empty rfl hx rfl⟩
  | unpad32 => exact ⟨_, exec_unpad32 _, rfl, nofun⟩
  | encRaw => exact ⟨_, exec_encRaw_of_noKey hkey, rfl, nofun⟩
  | decRaw => exact ⟨_, exec_decRaw_of_noKey hkey, rfl, nofun⟩
  | encSec =>
    have herr : errOf (encSecError (State.afterReset p b)) = 0x10 := errOf_encSecError _
    exact ⟨_, exec_encSec_of_error herr (by decide), rfl, nofun⟩
  | decSec => exact ⟨_, exec_decSec_noHeader _ rfl, rfl, nofun⟩
  | ctrCmp => exact ⟨_, exec_ctrCmp _, rfl, nofun⟩
  | ctrAdd =>
    have hsum : ctrValue State.reset.ctrA + State.reset.delta.toNat ≤ 2 ^ 48 - 1 := by decide
    exact ⟨_, exec_ctrAdd_of_le hsum, rfl, nofun⟩
  | rxLookup =>
    have hil : State.reset.aIl.toNat ≤ 8 := by decide
    exact ⟨_, exec_rxLookup_of_none hil (lookup_nil _ _ _), rfl, nofun⟩
  | rxValidate => exact ⟨_, exec_rxValidate_of_none (lookup_nil _ _ _), rfl, nofun⟩
  | rxCommit => exact ⟨_, exec_rxCommit_of_none (lookup_nil _ _ _), rfl, nofun⟩
  | srst => exact ⟨_, rfl, rfl, nofun⟩

end Sys2Proof.Machine
end

-- The decoder and the host port (spec/30_encoding.md, spec/20_memory.md)
section
/-! The decoder as the inverse of the encoder (R90, R110, R111), and what a step does for each host action (R65, R80, R120). -/
namespace Sys2Proof.Machine

/-! ## Decoding (R110, R111) -/

/-- Every command decodes from its own code and from no other byte. -/
theorem decodesFromItsCode (i : Instr) : Laws.DecodesFromItsCode.Statement i := by
  cases i with
  | nop => exact Laws.DecodesFromItsCode.nop
  | encHdr => exact Laws.DecodesFromItsCode.encHdr
  | decHdr => exact Laws.DecodesFromItsCode.decHdr
  | encNs => exact Laws.DecodesFromItsCode.encNs
  | decNs => exact Laws.DecodesFromItsCode.decNs
  | pad32 => exact Laws.DecodesFromItsCode.pad32
  | unpad32 => exact Laws.DecodesFromItsCode.unpad32
  | encRaw => exact Laws.DecodesFromItsCode.encRaw
  | decRaw => exact Laws.DecodesFromItsCode.decRaw
  | encSec => exact Laws.DecodesFromItsCode.encSec
  | decSec => exact Laws.DecodesFromItsCode.decSec
  | ctrCmp => exact Laws.DecodesFromItsCode.ctrCmp
  | ctrAdd => exact Laws.DecodesFromItsCode.ctrAdd
  | rxLookup => exact Laws.DecodesFromItsCode.rxLookup
  | rxValidate => exact Laws.DecodesFromItsCode.rxValidate
  | rxCommit => exact Laws.DecodesFromItsCode.rxCommit
  | srst => exact Laws.DecodesFromItsCode.srst

theorem decode_opcode (i : Instr) : decode [opcode i] = .ok (i, []) := by
  obtain ⟨-, -, hdecode, -⟩ := decodesFromItsCode i
  exact hdecode []

/-- Settles O1: the words of the map are the codes of the commands, in their order. -/
theorem opcodeMapDecodes : Obligations.OpcodeMapDecodes :=
  ⟨decode_opcode .nop, decode_opcode .encHdr, decode_opcode .decHdr, decode_opcode .encNs, decode_opcode .decNs,
    decode_opcode .pad32, decode_opcode .unpad32, decode_opcode .encRaw, decode_opcode .decRaw, decode_opcode .encSec,
    decode_opcode .decSec, decode_opcode .ctrCmp, decode_opcode .ctrAdd, decode_opcode .rxLookup, decode_opcode .rxValidate,
    decode_opcode .rxCommit, decode_opcode .srst⟩

/-- The decoder takes one byte, the code of the command it gives. -/
theorem eq_encode_append_of_decode {i : Instr} {bs rest : List Byte} (h : decode bs = .ok (i, rest)) :
    bs = encode i ++ rest := by
  cases bs with
  | nil => exact nomatch h
  | cons c cs =>
    cases hc : commandOf c with
    | none => rw [decode_cons_of_commandOf_none hc] at h; exact nomatch h
    | some j =>
      simp only [decode, hc, Except.ok.injEq, Prod.mk.injEq] at h
      obtain ⟨rfl, rfl⟩ := h
      rw [encode, ← Laws.DecodesFromItsCode.opcode_of_commandOf c j hc, List.singleton_append]

/-- Settles O2: what decodes starts with the command's code, and every command decodes from its code. -/
theorem decodeAndEncodeAgree : Obligations.DecodeAndEncodeAgree := by
  intro i bs rest
  obtain ⟨hwf, -, hdecode, -⟩ := decodesFromItsCode i
  refine ⟨fun h => ⟨hwf, eq_encode_append_of_decode h⟩, ?_⟩
  rintro ⟨-, rfl⟩
  exact hdecode rest

/-! ## One step, by its host action (R80) -/

theorem step_idle {s : State} (hwf : s.params.wf = true) (hhost : s.host = []) : step s = .next s := by
  simp only [step, hwf, if_true, hostStep, hhost]

theorem step_cons {s : State} {a : HostAction} {rest : List HostAction} (hwf : s.params.wf = true)
    (hhost : s.host = a :: rest) : step s = perform { s with host := rest } a := by
  simp only [step, hwf, if_true, hostStep, hhost]

theorem step_refused {s : State} (hwf : s.params.wf = false) : step s = .refused .assocSizeOutOfRange := by
  simp only [step, hwf, Bool.false_eq_true, if_false]

theorem issueCommand_of_decode {c : Byte} {i : Instr} {rest : List Byte} (h : decode [c] = .ok (i, rest)) (s : State) :
    issueCommand c s = exec i s := by
  simp only [issueCommand, h]

/-- The byte that `decodeTableWord` decodes is the low byte of its word (notes/assumptions/20.md). -/
theorem decode_of_decodeTableWord {w : Nat} {i : Instr} (h : decodeTableWord 8 w = some i) :
    ∃ rest, decode [BitVec.ofNat 8 w] = .ok (i, rest) := by
  have hbytes : tableBytes ((8 + 7) / 8) w = [BitVec.ofNat 8 w] := rfl
  rw [decodeTableWord, hbytes] at h
  cases hd : decode [BitVec.ofNat 8 w] with
  | error e => rw [hd] at h; exact nomatch h
  | ok p =>
    rw [hd] at h
    obtain rfl : p.1 = i := Option.some.inj h
    exact ⟨p.2, rfl⟩

/-- Settles O4: the write to `CMD` issues the command that its byte decodes to. -/
theorem stepRunsTheDecodedCommand : Obligations.StepRunsTheDecodedCommand := by
  refine ⟨fun s c i rest hwf hhost hdec _ => ?_, fun s w i hwf hdec => ?_⟩
  · calc step s
        = busWrite { s with host := rest } 0x000 c := step_cons hwf hhost
      _ = issueCommand c { s with host := rest } := busWrite_cmd _ c
      _ = exec i { s with host := rest } := issueCommand_of_decode hdec _
  · obtain ⟨_, hbyte⟩ := decode_of_decodeTableWord hdec
    calc step (s.withFetchWord 8 w)
        = busWrite s 0x000 (BitVec.ofNat 8 w) := step_cons (s := s.withFetchWord 8 w) hwf rfl
      _ = issueCommand (BitVec.ofNat 8 w) s := busWrite_cmd s _
      _ = exec i s := issueCommand_of_decode hbyte s

theorem locOf_ctrl (n : Nat) : locOf n 0x006 = .ctrl := by rw [locOf_low n _ (by decide)]; decide

theorem busRead_ctrl (s : State) : busRead s 0x006 = s.ctrl := by rw [busRead, locOf_ctrl]; rfl

theorem busWrite_ctrl (s : State) (v : Byte) : busWrite s 0x006 v = .next { s with ctrl := v &&& 0x07 } := by
  rw [busWrite_eq s _ v (by rw [locOf_ctrl]; nofun), locOf_ctrl]; rfl

theorem paramsWf_eq_false {p : Params} (h : p.assocN = 0 ∨ 64 < p.assocN) : p.wf = false := by
  rw [Params.wf, decide_eq_false_iff_not]
  omega

/-- Settles O5, action by action; the read-modify-write of `CTRL` is a read of it and a write back. -/
theorem hostActionSteps : Obligations.HostActionSteps := by
  refine ⟨fun s => step_idle, fun s a rest => step_cons, fun s a v rest => step_cons, fun s a m rest => step_cons,
    fun s m rest hwf hhost => ?_, fun s b rest => step_cons, fun s hsize => step_refused (paramsWf_eq_false hsize)⟩
  have hread : busRead { s with host := rest } 0x006 = s.ctrl := busRead_ctrl _
  rw [step_cons hwf hhost, perform, hread, busWrite_ctrl]

theorem busRead_err (s : State) : busRead s Loc.err.addr = s.err := by rw [busRead, locOf_err]; rfl

/-- The conditional write reads `ERR` first (R120). -/
theorem perform_writeIfOk (s : State) (a : BusAddr) (v : Byte) :
    perform s (.writeIfOk a v) =
      if s.err = 0x00 then busWrite { s with rdata := s.err } a v else .next { s with rdata := s.err } := by
  simp only [perform, busRead_err]

/-- Settles O6: the write is made exactly when the `ERR` that it reads is zero. -/
theorem conditionalCommandNeedsSuccess : Obligations.ConditionalCommandNeedsSuccess := by
  intro s c i rest hwf hhost hdec
  rw [step_cons hwf hhost, perform_writeIfOk]
  refine ⟨fun hfail => if_neg hfail, fun hok => ?_⟩
  rw [if_pos hok, busWrite_cmd, issueCommand_of_decode hdec]
  simp only [hok]

end Sys2Proof.Machine
end

-- Rules over all commands (spec/10_state.md, spec/20_memory.md, spec/60_exceptions.md)
section
/-! What any command but a soft reset can do to the state, said once (`Effect`), and the statements over all commands that follow
from it. -/
namespace Sys2Proof.Machine

/-! ## The effect of a command -/

/-- The registers that no command but a soft reset writes (R21, R22), and the model's own fields. -/
def State.fixed (s : State) :=
  (s.aFtype, s.aSecure, s.aSeq, s.aIl, s.aBl, s.aTl, s.aId, s.fbLen, s.pbCap, s.delta, s.key, s.txId, s.params, s.commitOk,
    s.rdata, s.host)

/-- The five header registers (R25). -/
def State.header (s : State) : Byte × Byte × Byte × Byte × Bytes 8 := (s.hFl, s.hType, s.hSeqIl, s.hBl, s.hId)

/-- What a command can do to the header registers (R26, R27, R264). -/
inductive HeaderEffect (i : Instr) (s t : State) : Prop where
  | kept (hi : i ∉ [Instr.encHdr, .decHdr, .encNs]) (heq : t.header = s.header)
  | valid (hi : i ∈ [Instr.encHdr, .decHdr, .encNs, .encRaw, .encSec]) (herr : t.err = 0x00) (hok : HeaderOk t)
  | cleared (hi : i ∈ [Instr.encHdr, .decHdr, .encNs, .encRaw, .encSec])
      (heq : t.header = (0x00, s.hType, s.hSeqIl, s.hBl, s.hId))

/-- What a command can do to memory: write the buffers (R33, R73, R166), and commit a greater counter behind that (R218). -/
inductive MemoryEffect (i : Instr) (s t : State) : Prop where
  | buffers (hbuf : BufferOnly s.fbLen.toNat s.mem t.mem)
  | commit {m : Memory} {k : Nat} {c : Bytes 6} (hi : i = .rxCommit ∨ i = .decSec) (herr : t.err = 0x00)
      (hbuf : BufferOnly s.fbLen.toNat s.mem m) (hk : k < s.params.assocN) (hidx : t.assocIdx = BitVec.ofNat 8 k)
      (hnewer : ctrValue (assocCtr s.mem k) < ctrValue c) (hmem : t.mem = setAssocCtr m k c)

/-- What a command but a soft reset can do to the state. A field's default is the case of a command that succeeds and does not
write there. -/
structure Effect (i : Instr) (s t : State) : Prop where
  cmd : t.cmd = opcode i := by rfl
  outcome : t.err = 0x00 ∨ t.result = 0x00 ∧ t.err ∈ raisedBy i := by exact .inl rfl
  fixed : t.fixed = s.fixed := by rfl
  pbLen : i ≠ .decRaw → i ≠ .decSec → t.pbLen = s.pbLen := by exact fun _ _ => rfl
  ctrA : i ≠ .ctrAdd → t.ctrA = s.ctrA := by exact fun _ => rfl
  ctrB : i ≠ .rxLookup → t.ctrB = s.ctrB := by exact fun _ => rfl
  nodeId : i ≠ .rxLookup → i ≠ .decSec → t.nodeId = s.nodeId := by exact fun _ _ => rfl
  nonce : i ≠ .encSec → i ≠ .decSec → t.iv = s.iv ∧ t.ctrl = s.ctrl := by exact fun _ _ => ⟨rfl, rfl⟩
  ctrl : t.ctrl = s.ctrl ∨ t.ctrl = s.ctrl ||| 0x02 := by exact .inl rfl
  assocIdx : t.assocIdx = s.assocIdx ∨ i ∈ [Instr.rxLookup, .rxValidate, .rxCommit, .decSec] ∧
    (t.assocIdx = 0xFF ∨ ∃ k < s.params.assocN, t.assocIdx = BitVec.ofNat 8 k) := by exact .inl rfl
  header : HeaderEffect i s t := by exact .kept (by decide) rfl
  memory : MemoryEffect i s t := by exact .buffers (BufferOnly.refl _ _)
  scratch : t.scratch = s.scratch ∨ t.scratch = [] := by exact .inl rfl

/-- The effect of every command but a soft reset, read off the ends of each. -/
theorem exec_effect {i : Instr} (hi : i ≠ .srst) (s : State) : ∃ t, exec i s = .next t ∧ Effect i s t := by
  cases i with
  | nop => exact ⟨_, exec_nop s, {}⟩
  | encHdr =>
    rcases encHdr_cases s with ⟨_, _, _, _, _, _, _, h, hbuf, hok⟩ | ⟨_, he, h⟩
    · exact ⟨_, h, { header := .valid (by decide) rfl (hok.congr rfl rfl rfl rfl rfl), memory := .buffers hbuf }⟩
    · exact ⟨_, h, { outcome := .inr ⟨rfl, he⟩, header := .cleared (by decide) rfl, scratch := .inr rfl }⟩
  | decHdr =>
    rcases decHdr_cases s with ⟨_, _, _, _, _, _, h, hok⟩ | ⟨_, he, h⟩
    · exact ⟨_, h, { header := .valid (by decide) rfl (hok.congr rfl rfl rfl rfl rfl) }⟩
    · exact ⟨_, h, { outcome := .inr ⟨rfl, he⟩, header := .cleared (by decide) rfl, scratch := .inr rfl }⟩
  | encNs =>
    have hraised : ∀ e ∈ [0x10, 0x11, 0x12, (0x13 : Byte)], e ∈ raisedBy .encNs := by decide
    rcases encNs_cases s with ⟨_, _, _, _, _, _, _, h, hbuf, hok⟩ | ⟨e, he, h⟩ | ⟨_, h, hbuf⟩
    · exact ⟨_, h, { header := .valid (by decide) rfl (hok.congr rfl rfl rfl rfl rfl), memory := .buffers hbuf }⟩
    · exact ⟨_, h,
        { outcome := .inr ⟨rfl, hraised e he⟩, header := .cleared (by decide) rfl, scratch := .inr rfl }⟩
    · exact ⟨_, h,
        { outcome := .inr ⟨rfl, (by decide : (0x41 : Byte) ∈ raisedBy .encNs)⟩, header := .cleared (by decide) rfl,
          memory := .buffers hbuf, scratch := .inr rfl }⟩
  | decNs =>
    rcases decNs_cases s with ⟨_, h⟩ | ⟨_, he, h⟩
    · exact ⟨_, h, {}⟩
    · exact ⟨_, h, { outcome := .inr ⟨rfl, he⟩, scratch := .inr rfl }⟩
  | pad32 =>
    rcases pad32_cases s with ⟨_, _, h, hbuf⟩ | h
    · exact ⟨_, h, { memory := .buffers hbuf }⟩
    · exact ⟨_, h, { outcome := .inr ⟨rfl, List.mem_singleton_self _⟩, scratch := .inr rfl }⟩
  | unpad32 =>
    rcases unpad32_cases s with ⟨_, h⟩ | h
    · exact ⟨_, h, {}⟩
    · exact ⟨_, h, { outcome := .inr ⟨rfl, List.mem_singleton_self _⟩, scratch := .inr rfl }⟩
  | encRaw =>
    have hraised : ∀ e ∈ [0x1E, 0x40, 0x43, 0x44, 0x10, 0x11, 0x12, 0x14, 0x1E, 0x22, (0x41 : Byte)], e ∈ raisedBy .encRaw := by
      decide
    rcases encRaw_cases s with ⟨_, _, _, _, _, _, _, h, hbuf, hok⟩ | ⟨e, he, h⟩ | ⟨e, _, he, h, hbuf⟩
    · exact ⟨_, h,
        { header := .valid (by decide) rfl (hok.congr rfl rfl rfl rfl rfl), memory := .buffers hbuf, scratch := .inr rfl }⟩
    · exact ⟨_, h, { outcome := .inr ⟨rfl, hraised e (List.mem_append_left _ he)⟩, scratch := .inr rfl }⟩
    · exact ⟨_, h,
        { outcome := .inr ⟨rfl, hraised e (List.mem_append_right [0x1E, 0x40, 0x43, 0x44] he)⟩,
          header := .cleared (by decide) rfl, memory := .buffers hbuf, scratch := .inr rfl }⟩
  | decRaw =>
    rcases decRaw_cases s with ⟨_, _, _, h, hbuf⟩ | ⟨_, he, h⟩
    · exact ⟨_, h, { pbLen := fun hne => absurd rfl hne, memory := .buffers hbuf, scratch := .inr rfl }⟩
    · exact ⟨_, h, { outcome := .inr ⟨rfl, he⟩, scratch := .inr rfl }⟩
  | encSec =>
    have hraised : ∀ e ∈ [0x10, 0x1F, 0x40, 0x1E, 0x40, 0x43, 0x10, 0x11, 0x12, 0x14, 0x1E, 0x22, (0x41 : Byte)],
        e ∈ raisedBy .encSec := by
      decide
    rcases encSec_cases s with ⟨e, he, h⟩ | ⟨_, _, _, _, _, _, _, _, h, hbuf, hok⟩ | ⟨e, _, he, h⟩ | ⟨e, _, _, he, h, hbuf⟩
    · exact ⟨_, h, { outcome := .inr ⟨rfl, hraised e (List.mem_append_left _ he)⟩, scratch := .inr rfl }⟩
    · exact ⟨_, h,
        { nonce := fun hne => absurd rfl hne, ctrl := .inr rfl, memory := .buffers hbuf, scratch := .inr rfl,
          header := .valid (by decide) rfl (hok.congr rfl rfl rfl rfl rfl) }⟩
    · exact ⟨_, h,
        { outcome := .inr ⟨rfl, hraised e (List.mem_append_right [0x10, 0x1F, 0x40] (List.mem_append_left _ he))⟩,
          nonce := fun hne => absurd rfl hne, ctrl := .inr rfl, scratch := .inr rfl }⟩
    · exact ⟨_, h,
        { outcome := .inr ⟨rfl, hraised e (List.mem_append_right [0x10, 0x1F, 0x40, 0x1E, 0x40, 0x43] he)⟩,
          nonce := fun hne => absurd rfl hne, ctrl := .inr rfl, memory := .buffers hbuf, scratch := .inr rfl,
          header := .cleared (by decide) rfl }⟩
  | decSec =>
    have hraised : ∀ e ∈ [0x14, 0x1A, 0x40, 0x41, 0x14, 0x1A, 0x1B, 0x1C, 0x1D, 0x21, 0x40, 0x41, 0x42, (0x43 : Byte)],
        e ∈ raisedBy .decSec := by
      decide
    rcases decSec_cases s with ⟨_, _, _, k, hk, hbuf, hnewer, h⟩ | ⟨_, _, k, hk, hbuf, h⟩ | ⟨e, k, he, hk, h⟩ | ⟨k, hk, h⟩ | h |
      ⟨e, _, he, -, h⟩
    · exact ⟨_, h,
        { pbLen := fun _ hne => absurd rfl hne, nodeId := fun _ hne => absurd rfl hne, nonce := fun _ hne => absurd rfl hne,
          ctrl := .inr rfl, assocIdx := .inr ⟨by decide, .inr ⟨k, hk, rfl⟩⟩, scratch := .inr rfl,
          memory := .commit (.inr rfl) rfl hbuf hk rfl hnewer rfl }⟩
    · exact ⟨_, h,
        { outcome := .inr ⟨rfl, (by decide : (0x32 : Byte) ∈ raisedBy .decSec)⟩,
          pbLen := fun _ hne => absurd rfl hne, nodeId := fun _ hne => absurd rfl hne, nonce := fun _ hne => absurd rfl hne,
          ctrl := .inr rfl, assocIdx := .inr ⟨by decide, .inr ⟨k, hk, rfl⟩⟩, memory := .buffers hbuf, scratch := .inr rfl }⟩
    · exact ⟨_, h,
        { outcome := .inr ⟨rfl, hraised e (List.mem_append_right [0x14, 0x1A, 0x40, 0x41] he)⟩,
          nodeId := fun _ hne => absurd rfl hne, nonce := fun _ hne => absurd rfl hne, ctrl := .inr rfl,
          assocIdx := .inr ⟨by decide, .inr ⟨k, hk, rfl⟩⟩, scratch := .inr rfl }⟩
    · exact ⟨_, h,
        { outcome := .inr ⟨rfl, (by decide : (0x31 : Byte) ∈ raisedBy .decSec)⟩, nodeId := fun _ hne => absurd rfl hne,
          assocIdx := .inr ⟨by decide, .inr ⟨k, hk, rfl⟩⟩, scratch := .inr rfl }⟩
    · exact ⟨_, h,
        { outcome := .inr ⟨rfl, (by decide : (0x30 : Byte) ∈ raisedBy .decSec)⟩, assocIdx := .inr ⟨by decide, .inl rfl⟩,
          scratch := .inr rfl }⟩
    · exact ⟨_, h, { outcome := .inr ⟨rfl, hraised e (List.mem_append_left _ he)⟩, scratch := .inr rfl }⟩
  | ctrCmp => exact ⟨_, exec_ctrCmp s, {}⟩
  | ctrAdd =>
    rcases ctrAdd_cases s with ⟨_, _, h⟩ | h
    · exact ⟨_, h, { ctrA := fun hne => absurd rfl hne }⟩
    · exact ⟨_, h, { outcome := .inr ⟨rfl, List.mem_singleton_self _⟩, scratch := .inr rfl }⟩
  | rxLookup =>
    rcases rxLookup_cases s with ⟨_, k, _, _, hk, h⟩ | h | h
    · exact ⟨_, h,
        { ctrB := fun hne => absurd rfl hne, nodeId := fun hne => absurd rfl hne,
          assocIdx := .inr ⟨by decide, .inr ⟨k, hk, rfl⟩⟩ }⟩
    · exact ⟨_, h, { outcome := .inr ⟨rfl, (by decide : (0x11 : Byte) ∈ raisedBy .rxLookup)⟩, scratch := .inr rfl }⟩
    · exact ⟨_, h,
        { outcome := .inr ⟨rfl, (by decide : (0x30 : Byte) ∈ raisedBy .rxLookup)⟩, assocIdx := .inr ⟨by decide, .inl rfl⟩,
          scratch := .inr rfl }⟩
  | rxValidate =>
    rcases rxValidate_cases s with ⟨_, k, hk, h⟩ | ⟨k, hk, h⟩ | h
    · exact ⟨_, h, { assocIdx := .inr ⟨by decide, .inr ⟨k, hk, rfl⟩⟩ }⟩
    · exact ⟨_, h,
        { outcome := .inr ⟨rfl, (by decide : (0x31 : Byte) ∈ raisedBy .rxValidate)⟩,
          assocIdx := .inr ⟨by decide, .inr ⟨k, hk, rfl⟩⟩, scratch := .inr rfl }⟩
    · exact ⟨_, h,
        { outcome := .inr ⟨rfl, (by decide : (0x30 : Byte) ∈ raisedBy .rxValidate)⟩,
          assocIdx := .inr ⟨by decide, .inl rfl⟩, scratch := .inr rfl }⟩
  | rxCommit =>
    have hraised : ∀ e ∈ [0x31, (0x32 : Byte)], e ∈ raisedBy .rxCommit := by decide
    rcases rxCommit_cases s with ⟨_, k, hk, hnewer, h⟩ | ⟨e, k, he, hk, h⟩ | h
    · exact ⟨_, h,
        { assocIdx := .inr ⟨by decide, .inr ⟨k, hk, rfl⟩⟩,
          memory := .commit (.inl rfl) rfl (BufferOnly.refl _ _) hk rfl hnewer rfl }⟩
    · exact ⟨_, h,
        { outcome := .inr ⟨rfl, hraised e he⟩, assocIdx := .inr ⟨by decide, .inr ⟨k, hk, rfl⟩⟩, scratch := .inr rfl }⟩
    · exact ⟨_, h,
        { outcome := .inr ⟨rfl, (by decide : (0x30 : Byte) ∈ raisedBy .rxCommit)⟩, assocIdx := .inr ⟨by decide, .inl rfl⟩,
          scratch := .inr rfl }⟩
  | srst => exact absurd rfl hi

theorem effect_of_exec {i : Instr} {s t : State} (hi : i ≠ .srst) (hx : exec i s = .next t) : Effect i s t :=
  of_exec_next hx (exec_effect hi s)

theorem exec_srst (s : State) : exec .srst s = .next { State.reset with
    cmd := 0xFF, mem := keepTable s.mem, params := s.params, commitOk := s.commitOk, rdata := s.rdata, host := s.host } := rfl

/-! ## The outcome and the registers (R21, R22, R262) -/

/-- Settles O14: the outcome is part of the effect, and a soft reset reports success. -/
theorem everyCommandReportsItsOutcome : Obligations.EveryCommandReportsItsOutcome := by
  intro i s
  by_cases hi : i = .srst
  · subst hi
    exact ⟨_, exec_srst s, rfl, .inl rfl⟩
  · obtain ⟨t, hx, heffect⟩ := exec_effect hi s
    exact ⟨t, hx, heffect.cmd, heffect.outcome⟩

/-- Settles O15: the fixed registers and the exceptions are part of the effect. -/
theorem commandsKeepTheArgumentRegisters : Obligations.CommandsKeepTheArgumentRegisters := by
  intro i s t hi hx
  have heffect := effect_of_exec hi hx
  have hfixed := heffect.fixed
  simp only [State.fixed, Prod.mk.injEq] at hfixed
  obtain ⟨hftype, hsecure, hseq, hil, hbl, htl, hid, hfbLen, hpbCap, hdelta, hkey, htxId, hown⟩ := hfixed
  have hassocIdx : i ≠ .rxLookup → i ≠ .rxValidate → i ≠ .rxCommit → i ≠ .decSec → t.assocIdx = s.assocIdx := by
    intro hlookup hvalidate hcommit hdecSec
    refine heffect.assocIdx.resolve_right fun ⟨hmem, _⟩ => ?_
    simp only [List.mem_cons, List.not_mem_nil, or_false] at hmem
    rcases hmem with h | h | h | h <;> contradiction
  exact ⟨⟨hftype, hsecure, hseq, hil, hbl, htl, hid, hfbLen, hpbCap, hdelta, hkey, htxId⟩, heffect.pbLen, heffect.ctrA,
    heffect.ctrB, heffect.nodeId, heffect.nonce, heffect.ctrl, hassocIdx, hown⟩

/-! ## The header registers (R26, R27, R264) -/

theorem State.header_eq_iff {s : State} {fl ty q b : Byte} {id : Bytes 8} :
    s.header = (fl, ty, q, b, id) ↔ s.hFl = fl ∧ s.hType = ty ∧ s.hSeqIl = q ∧ s.hBl = b ∧ s.hId = id := by
  simp only [State.header, Prod.mk.injEq]

/-- Settles O18: the three things a command can do to the header registers; a soft reset reports success. -/
theorem headerRegisterWriters : Obligations.HeaderRegisterWriters := by
  intro i s t hx
  have hcodecs : ∀ j ∈ [Instr.encHdr, .decHdr, .encNs, .encRaw, .encSec],
      j ∈ [Instr.encHdr, .decHdr, .encNs, .encRaw, .encSec, .srst] := fun j => List.mem_append_left [Instr.srst]
  by_cases hi : i = .srst
  · subst hi
    obtain rfl := Host.Outcome.next.inj (hx.symm.trans (exec_srst s))
    exact ⟨fun h => absurd (by decide) h, fun h => absurd h (by decide), fun h => absurd rfl h, fun h => absurd h (by decide)⟩
  cases (effect_of_exec hi hx).header with
  | kept hother heq =>
    obtain ⟨hfl, hregs⟩ := State.header_eq_iff.mp heq
    exact ⟨fun _ => ⟨hfl, hregs⟩, fun h => absurd h hother, fun _ => hregs, fun _ _ => .inr hfl⟩
  | valid hcodec herr _ =>
    exact ⟨fun h => absurd (hcodecs i hcodec) h, fun _ h => absurd herr h, fun h => absurd herr h, fun _ h => absurd herr h⟩
  | cleared hcodec heq =>
    obtain ⟨hfl, hregs⟩ := State.header_eq_iff.mp heq
    exact ⟨fun h => absurd (hcodecs i hcodec) h, fun _ _ => hfl, fun _ => hregs, fun _ _ => .inl hfl⟩

/-! ## Memory (R30, R33, R73, R166, R218) -/

theorem assocId_of_sameTable {m m' : Memory} (h : ∀ a, 0x100 ≤ a → Memory.read m' a = Memory.read m a) (k : Nat) :
    assocId m' k = assocId m k :=
  Vector.ext fun j hj => by rw [assocId_getElem, assocId_getElem, h _ (by omega)]

/-- A soft reset keeps the table (R257). -/
theorem read_keepTable_of_le (m : Memory) (a : Nat) (ha : 0x100 ≤ a) : Memory.read (keepTable m) a = Memory.read m a := by
  rw [read_keepTable, if_pos ha]

/-- Settles O19: writing the buffers leaves the table, and a commit writes a greater counter into one entry. -/
theorem storedCountersOnlyIncrease : Obligations.StoredCountersOnlyIncrease := by
  intro i s t hx
  by_cases hi : i = .srst
  · subst hi
    obtain rfl := Host.Outcome.next.inj (hx.symm.trans (exec_srst s))
    have htable := read_keepTable_of_le s.mem
    exact ⟨fun k => ⟨htable _ (by omega), assocId_of_sameTable htable k⟩,
      fun k => .inl (assocCtr_of_sameTable htable k), fun _ => htable⟩
  cases (effect_of_exec hi hx).memory with
  | buffers hbuf =>
    exact ⟨fun k => ⟨hbuf.table _ (by omega), hbuf.assocId k⟩, fun k => .inl (hbuf.assocCtr k), fun _ => hbuf.table⟩
  | @commit m k c hwho herr hbuf hk hidx hnewer hmem =>
    rw [hmem]
    refine ⟨fun j => ⟨?_, ?_⟩, fun j => ?_, fun h => absurd herr h⟩
    · rw [read_setAssocCtr, if_neg (by simp only [assocBase]; omega), hbuf.table _ (by omega)]
    · rw [assocId_setAssocCtr, hbuf.assocId]
    · rw [assocCtr_setAssocCtr]
      by_cases hj : j = k
      · rw [if_pos hj, hj]
        exact .inr ⟨hwho, herr, hidx, hnewer⟩
      · rw [if_neg hj, hbuf.assocCtr]
        exact .inl rfl

/-- Below the table, a command writes `FB[0 .. FB_LEN - 1]` and `PB[0 .. 31]` only. -/
theorem MemoryEffect.read_outside {i : Instr} {s t : State} (h : MemoryEffect i s t) {a : Nat} (ha : a < 0x100)
    (hfb : ¬ (0x080 ≤ a ∧ a < 0x080 + s.fbLen.toNat ∧ a < 0x0C0)) (hpb : ¬ (0x0C0 ≤ a ∧ a < 0x0E0)) :
    Memory.read t.mem a = Memory.read s.mem a := by
  cases h with
  | buffers hbuf => exact hbuf.reads a hfb hpb
  | commit _ _ hbuf _ _ _ hmem =>
    rw [hmem, read_setAssocCtr, if_neg (by simp only [assocBase]; omega), hbuf.reads a hfb hpb]

/-- Settles O20: the three ranges lie below the table and outside what a command writes there. -/
theorem commandsStayInsideTheBuffers : Obligations.CommandsStayInsideTheBuffers := by
  intro i s t hi hx
  have hmemory := (effect_of_exec hi hx).memory
  exact ⟨fun j _ _ => hmemory.read_outside (by omega) (by omega) (by omega),
    fun j _ _ => hmemory.read_outside (by omega) (by omega) (by omega),
    fun a _ => hmemory.read_outside (by omega) (by omega) (by omega)⟩

/-! ## The key (R256, R275) -/

/-- The operation does the same with any other key, and carries that key along. -/
def KeyBlind (body : State → Ended) : Prop :=
  ∀ (s : State) (key : Bytes 16), body { s with key := key } = (body s).map fun t => { t with key := key }

theorem KeyBlind.command {body : State → Ended} (h : KeyBlind body) {i : Instr} {s t : State} (key : Bytes 16)
    (hx : command i s body = .next t) : command i { s with key := key } body = .next { t with key := key } := by
  rw [command_eq] at hx ⊢
  rw [← Host.Outcome.next.inj hx, h { s with cmd := opcode i } key]
  cases body { s with cmd := opcode i } <;> rfl

theorem hdrEncode_withKey (s : State) (key : Bytes 16) (secure : Bool) (ftype : Byte) (q : BitVec 4) (id : Bytes 8)
    (il bl tl : Nat) :
    hdrEncode { s with key := key } secure ftype q id il bl tl =
      (hdrEncode s secure ftype q id il bl tl).map fun t => { t with key := key } := by
  simp only [hdrEncode]
  cases hdrEncodeError secure ftype il bl tl s.fbLen.toNat <;> rfl

theorem hdrDecode_withKey (s : State) (key : Bytes 16) :
    hdrDecode { s with key := key } = (hdrDecode s).map fun t => { t with key := key } := by
  simp only [hdrDecode]
  cases hdrDecodeError s.mem s.fbLen.toNat <;> rfl

theorem encNsBody_withKey (s : State) (key : Bytes 16) (hl : Nat) :
    encNsBody { s with key := key } hl = (encNsBody s hl).map fun t => { t with key := key } := by
  simp only [encNsBody]
  split <;> rfl

theorem execNop_withKey {s t : State} (key : Bytes 16) (hx : execNop s = .next t) :
    execNop { s with key := key } = .next { t with key := key } := KeyBlind.command (fun _ _ => rfl) key hx

theorem execEncHdr_withKey {s t : State} (key : Bytes 16) (hx : execEncHdr s = .next t) :
    execEncHdr { s with key := key } = .next { t with key := key } :=
  KeyBlind.command (fun s key => hdrEncode_withKey s key _ _ _ _ _ _ _) key hx

theorem execDecHdr_withKey {s t : State} (key : Bytes 16) (hx : execDecHdr s = .next t) :
    execDecHdr { s with key := key } = .next { t with key := key } := by
  refine KeyBlind.command (fun s key => ?_) key hx
  have hdecode := hdrDecode_withKey s.beginAttempt key
  simp only [State.beginAttempt] at hdecode ⊢
  rw [hdecode]
  cases hdrDecode { s with fsm := 0x00, fsmTrace := 0x01 } <;> rfl

theorem execEncNs_withKey {s t : State} (key : Bytes 16) (hx : execEncNs s = .next t) :
    execEncNs { s with key := key } = .next { t with key := key } := by
  refine KeyBlind.command (fun s key => ?_) key hx
  simp only [hdrEncode_withKey]
  cases hdrEncode s false s.aFtype s.aSeq s.aId s.aIl.toNat s.pbLen.toNat tlNonSecure with
  | failed u e => rfl
  | done u hl =>
    simp only [Ended.map_done, encNsBody_withKey]
    cases encNsBody u hl <;> rfl

theorem execDecNs_withKey {s t : State} (key : Bytes 16) (hx : execDecNs s = .next t) :
    execDecNs { s with key := key } = .next { t with key := key } := by
  refine KeyBlind.command (fun s key => ?_) key hx
  have herror : decNsError { s with key := key } = decNsError s := rfl
  simp only [herror]
  cases decNsError s <;> rfl

theorem execPad32_withKey {s t : State} (key : Bytes 16) (hx : execPad32 s = .next t) :
    execPad32 { s with key := key } = .next { t with key := key } := by
  refine KeyBlind.command (fun s key => ?_) key hx
  simp only [pad32]
  split <;> rfl

theorem execUnpad32_withKey {s t : State} (key : Bytes 16) (hx : execUnpad32 s = .next t) :
    execUnpad32 { s with key := key } = .next { t with key := key } := by
  refine KeyBlind.command (fun s key => ?_) key hx
  dsimp only
  split <;> rfl

theorem execCtrCmp_withKey {s t : State} (key : Bytes 16) (hx : execCtrCmp s = .next t) :
    execCtrCmp { s with key := key } = .next { t with key := key } := KeyBlind.command (fun _ _ => rfl) key hx

theorem execCtrAdd_withKey {s t : State} (key : Bytes 16) (hx : execCtrAdd s = .next t) :
    execCtrAdd { s with key := key } = .next { t with key := key } := by
  refine KeyBlind.command (fun s key => ?_) key hx
  dsimp only
  split <;> rfl

theorem execRxLookup_withKey {s t : State} (key : Bytes 16) (hx : execRxLookup s = .next t) :
    execRxLookup { s with key := key } = .next { t with key := key } := by
  refine KeyBlind.command (fun s key => ?_) key hx
  dsimp only
  split
  · rfl
  · cases lookup s.mem s.params.assocN s.aId s.aIl.toNat <;> rfl

theorem execRxValidate_withKey {s t : State} (key : Bytes 16) (hx : execRxValidate s = .next t) :
    execRxValidate { s with key := key } = .next { t with key := key } := by
  refine KeyBlind.command (fun s key => ?_) key hx
  cases lookup s.mem s.params.assocN s.nodeId 8 with
  | none => rfl
  | some k => simp only [isNewer, decide_eq_true_eq]; split <;> rfl

theorem execRxCommit_withKey {s t : State} (key : Bytes 16) (hx : execRxCommit s = .next t) :
    execRxCommit { s with key := key } = .next { t with key := key } := by
  refine KeyBlind.command (fun s key => ?_) key hx
  cases lookup s.mem s.params.assocN s.nodeId 8 with
  | none => rfl
  | some k =>
    simp only [isNewer]
    split
    · rfl
    · split <;> rfl

/-- Settles O21, command by command: nothing but the AEAD engine reads the key, and only the secure commands call it. -/
theorem plainCommandsDoNotDependOnTheKey : Obligations.PlainCommandsDoNotDependOnTheKey := by
  intro i s t key hplain hx
  cases i with
  | nop => exact execNop_withKey key hx
  | encHdr => exact execEncHdr_withKey key hx
  | decHdr => exact execDecHdr_withKey key hx
  | encNs => exact execEncNs_withKey key hx
  | decNs => exact execDecNs_withKey key hx
  | pad32 => exact execPad32_withKey key hx
  | unpad32 => exact execUnpad32_withKey key hx
  | ctrCmp => exact execCtrCmp_withKey key hx
  | ctrAdd => exact execCtrAdd_withKey key hx
  | rxLookup => exact execRxLookup_withKey key hx
  | rxValidate => exact execRxValidate_withKey key hx
  | rxCommit => exact execRxCommit_withKey key hx
  | srst =>
    obtain rfl := Host.Outcome.next.inj (hx.symm.trans (exec_srst s))
    exact exec_srst { s with key := key }
  | encRaw | decRaw | encSec | decSec => exact absurd (by decide) hplain

/-! ## The resets (R257, R290) -/

theorem State.status_of_zero {s : State} (herr : s.err = 0x00) (hfl : s.hFl = 0x00) : s.status = 0x02 := by
  rw [State.status, herr, hfl]
  decide

/-- Settles O23: a soft reset is the reset state but for its code and the table, a hardware reset the reset state itself. -/
theorem resetsTakeTheResetValues : Obligations.ResetsTakeTheResetValues := by
  refine ⟨fun s => ⟨keepTable s.mem, exec_srst s, read_keepTable s.mem, fun t hx => ?_⟩, fun s rest hwf hhost => ?_⟩
  · obtain rfl := Host.Outcome.next.inj (hx.symm.trans (exec_srst s))
    exact State.status_of_zero rfl rfl
  · exact ⟨_, step_cons hwf hhost, rfl, fun a => rfl⟩

end Sys2Proof.Machine
end

-- The register space (spec/20_memory.md)
section
/-! The address map in both directions (R70), the computed views (R28, R35), and what a bus write changes (R65). -/
namespace Sys2Proof.Machine

/-! ## The map is one-to-one (R70) -/

/-- A span of one register array below the table. -/
theorem locOf_span {n base size : Nat} {f : Nat → Loc} (hsize : base + size ≤ 0x100)
    (hspan : ∀ i : Fin size, locOf 0 (BitVec.ofNat 12 (base + i.val)) = f i.val) {i : Nat} (hi : i < size) :
    locOf n (BitVec.ofNat 12 (base + i)) = f i := by
  rw [locOf_low n _ (by rw [BitVec.toNat_ofNat]; omega)]
  exact hspan ⟨i, hi⟩

/-- Byte `j` of entry `k`, by its address. -/
theorem locOf_entry {n k j : Nat} (hn : n ≤ 64) (hk : k < n) (hj : j < 16) :
    locOf n (BitVec.ofNat 12 (assocBase k + j)) = tableLoc k j :=
  locOf_table n k j _ hk hj (by rw [BitVec.toNat_ofNat, assocBase]; omega)

/-- The name at the address of an existing location is that location. -/
theorem locOf_addr {n : Nat} (hn : n ≤ 64) {l : Loc} (hl : l.wf n = true) : locOf n l.addr = l := by
  cases l with
  | aId i => exact locOf_span (base := 0x018) (by decide) (by decide +kernel) (of_decide_eq_true hl)
  | hId i => exact locOf_span (base := 0x020) (by decide) (by decide +kernel) (of_decide_eq_true hl)
  | ctrA i => exact locOf_span (base := 0x030) (by decide) (by decide +kernel) (of_decide_eq_true hl)
  | ctrB i => exact locOf_span (base := 0x038) (by decide) (by decide +kernel) (of_decide_eq_true hl)
  | iv i => exact locOf_span (base := 0x040) (by decide) (by decide +kernel) (of_decide_eq_true hl)
  | key i => exact locOf_span (base := 0x050) (by decide) (by decide +kernel) (of_decide_eq_true hl)
  | txId i => exact locOf_span (base := 0x060) (by decide) (by decide +kernel) (of_decide_eq_true hl)
  | nodeId i => exact locOf_span (base := 0x068) (by decide) (by decide +kernel) (of_decide_eq_true hl)
  | fb i => exact locOf_span (base := 0x080) (by decide) (by decide +kernel) (of_decide_eq_true hl)
  | pb i => exact locOf_span (base := 0x0C0) (by decide) (by decide +kernel) (of_decide_eq_true hl)
  | assocValid k => exact locOf_entry (j := 0) hn (of_decide_eq_true hl) (by decide)
  | assocId k j =>
    obtain ⟨hk, hj⟩ := of_decide_eq_true hl
    rw [Loc.addr, Nat.add_assoc, locOf_entry hn hk (by omega), tableLoc, if_neg (by omega), if_pos (by omega),
      Nat.add_sub_cancel_left]
  | assocCtr k j =>
    obtain ⟨hk, hj⟩ := of_decide_eq_true hl
    rw [Loc.addr, Nat.add_assoc, locOf_entry hn hk (by omega), tableLoc, if_neg (by omega), if_neg (by omega),
      if_pos (by omega), Nat.add_sub_cancel_left]
  | reserved => exact nomatch hl
  | _ => exact (locOf_low n _ (by decide)).trans (by decide)

/-- Settles O7: every existing location is found at its address, and an address names nothing or what stands there. -/
theorem addressMapIsOneToOne : Obligations.AddressMapIsOneToOne :=
  fun n hn => ⟨fun _ hl => locOf_addr hn hl, fun a => locOf_cases n a⟩

/-! ## The computed views (R28, R35) -/

theorem busRead_of_low {s : State} {a : BusAddr} {l : Loc} (ha : a.toNat < 0x100) (hl : locOf 0 a = l) :
    busRead s a = readLoc s l := by
  rw [busRead, locOf_low _ a ha, hl]

theorem busRead_hBoff (s : State) : busRead s 0x02C = BitVec.ofNat 8 s.hBoff :=
  busRead_of_low (l := .hBoff) (by decide) (by decide)

theorem busRead_hTl (s : State) : busRead s 0x02D = BitVec.ofNat 8 s.hTl := busRead_of_low (l := .hTl) (by decide) (by decide)

theorem busRead_hToff (s : State) : busRead s 0x02E = BitVec.ofNat 8 s.hToff :=
  busRead_of_low (l := .hToff) (by decide) (by decide)

theorem State.status_toNat (s : State) :
    s.status.toNat = (if s.err = 0x00 then 2 else 0) + (if s.hFl = 0x00 then 0 else 4) := by
  rw [State.status]
  split <;> split <;> rfl

/-- Settles O9: an invalid header makes the views zero, a valid one bounds them below a byte. -/
theorem computedViewsFollowTheRegisters : Obligations.ComputedViewsFollowTheRegisters := by
  intro s hinv
  rw [busRead_hBoff, busRead_hTl, busRead_hToff, busRead_status]
  refine ⟨fun hzero => ?_, fun hvalid => ?_, s.status_toNat⟩
  · rw [State.hBoff, State.hTl, State.hToff, if_pos hzero, if_pos hzero, if_pos hzero]
    exact ⟨rfl, rfl, rfl⟩
  · have hok := hinv.header.resolve_left hvalid
    have hfits := hok.fits
    have hhigh := hok.flHigh
    rw [State.hBoff_of_valid hvalid, State.hTl_of_valid hvalid, State.hToff_of_valid hvalid, BitVec.toNat_ofNat,
      BitVec.toNat_ofNat, BitVec.toNat_ofNat, ← State.headerIl_eq]
    omega

/-! ## What a location reads after a write to it (R65) -/

/-- How a location takes a written byte (R65). -/
inductive Storage where
  | whole
  | masked (mask : Byte)
  | saturated
  | zero
  | kept
  deriving DecidableEq

/-- What a location reads after a write of `v`, when it read `old` before. -/
def Storage.readBack (old v : Byte) : Storage → Byte
  | .whole => v
  | .masked mask => v &&& mask
  | .saturated => if 64 < v.toNat then 64 else v
  | .zero => 0x00
  | .kept => old

/-- How each location takes a written byte, by its name (R70). -/
def Loc.storage : Loc → Storage
  | .ctrl => .masked 0x07
  | .aSecure | .assocValid _ => .masked 0x01
  | .aSeq => .masked 0x0F
  | .fbLen | .pbCap => .saturated
  | .aFtype | .aIl | .aBl | .aTl | .pbLen | .delta | .aId _ | .ctrA _ | .ctrB _ | .iv _ | .txId _ | .nodeId _ | .fb _ | .pb _
  | .assocId _ _ | .assocCtr _ _ => .whole
  | .key _ | .reserved => .zero
  | .cmd | .status | .result | .err | .fsm | .fsmTrace | .assocIdx | .hId _ | .hFl | .hType | .hSeqIl | .hBl | .hBoff | .hTl
  | .hToff => .kept

theorem getD_setIfInBounds_self {n : Nat} (x : Bytes n) {i : Nat} (hi : i < n) (v : Byte) :
    (x.setIfInBounds i v).toList.getD i 0x00 = v := by
  simp [List.getD_eq_getElem?_getD, hi]

theorem getD_setIfInBounds_ne {n : Nat} (x : Bytes n) {i j : Nat} (hij : i ≠ j) (v : Byte) :
    (x.setIfInBounds i v).toList.getD j 0x00 = x.toList.getD j 0x00 := by
  simp [List.getD_eq_getElem?_getD, hij]

theorem zeroExtend_low1 (v : Byte) : (v.extractLsb' 0 1).zeroExtend 8 = v &&& 0x01 := by
  have key : ∀ v : Byte, (v.extractLsb' 0 1).zeroExtend 8 = v &&& 0x01 := by decide +kernel
  exact key v

theorem zeroExtend_low4 (v : Byte) : (v.extractLsb' 0 4).zeroExtend 8 = v &&& 0x0F := by
  have key : ∀ v : Byte, (v.extractLsb' 0 4).zeroExtend 8 = v &&& 0x0F := by decide +kernel
  exact key v

theorem bitByte_low1 (v : Byte) : bitByte ((v &&& 0x01).getLsbD 0) = v &&& 0x01 := by
  have key : ∀ v : Byte, bitByte ((v &&& 0x01).getLsbD 0) = v &&& 0x01 := by decide +kernel
  exact key v

/-- A location reads what was written to it, as far as it stores it. -/
theorem readLoc_writeLoc_same {n : Nat} {l : Loc} (hl : l.wf n = true) (s : State) (v : Byte) :
    readLoc (writeLoc s v l) l = l.storage.readBack (readLoc s l) v := by
  cases l with
  | aSecure => exact zeroExtend_low1 v
  | aSeq => exact zeroExtend_low4 v
  | aId i => exact getD_setIfInBounds_self _ (of_decide_eq_true hl) v
  | ctrA i => exact getD_setIfInBounds_self _ (of_decide_eq_true hl) v
  | ctrB i => exact getD_setIfInBounds_self _ (of_decide_eq_true hl) v
  | iv i => exact getD_setIfInBounds_self _ (of_decide_eq_true hl) v
  | txId i => exact getD_setIfInBounds_self _ (of_decide_eq_true hl) v
  | nodeId i => exact getD_setIfInBounds_self _ (of_decide_eq_true hl) v
  | fb i =>
    have hi : i < 64 := of_decide_eq_true hl
    exact (fbByte_fbWrite _ _ _ _).trans ((if_pos ⟨le_refl i, Nat.lt_succ_self i, hi⟩).trans (by rw [Nat.sub_self]; rfl))
  | pb i =>
    have hi : i < 64 := of_decide_eq_true hl
    exact (pbByte_pbWrite _ _ _ _).trans ((if_pos ⟨le_refl i, Nat.lt_succ_self i, hi⟩).trans (by rw [Nat.sub_self]; rfl))
  | assocValid k =>
    refine Eq.trans ?_ (bitByte_low1 v)
    exact congrArg (fun b : Byte => bitByte (b.getLsbD 0)) ((Memory.read_write _ _ _ _).trans (if_pos rfl))
  | assocId k j => exact (Memory.read_write _ _ _ _).trans (if_pos rfl)
  | assocCtr k j => exact (Memory.read_write _ _ _ _).trans (if_pos rfl)
  | _ => rfl

/-! ## What the other locations read (R65) -/

theorem ofNat12_toNat {x : Nat} (hx : x < 4096) : (BitVec.ofNat 12 x).toNat = x := by
  rw [BitVec.toNat_ofNat, Nat.mod_eq_of_lt hx]

theorem fb_addr {i : Nat} (hi : i < 64) : (Loc.fb i).addr.toNat = 0x080 + i :=
  ofNat12_toNat (by simp only [fbBase]; omega)

theorem pb_addr {i : Nat} (hi : i < 64) : (Loc.pb i).addr.toNat = 0x0C0 + i :=
  ofNat12_toNat (by simp only [pbBase]; omega)

theorem assocValid_addr {k : Nat} (hk : k < 64) : (Loc.assocValid k).addr.toNat = assocBase k :=
  ofNat12_toNat (by simp only [assocBase]; omega)

theorem assocId_addr {k j : Nat} (hk : k < 64) (hj : j < 8) : (Loc.assocId k j).addr.toNat = assocBase k + 1 + j :=
  ofNat12_toNat (by simp only [assocBase]; omega)

theorem assocCtr_addr {k j : Nat} (hk : k < 64) (hj : j < 6) : (Loc.assocCtr k j).addr.toNat = assocBase k + 9 + j :=
  ofNat12_toNat (by simp only [assocBase]; omega)

/-- A location depends on memory at its own address only. -/
theorem readLoc_withMem {n : Nat} (hn : n ≤ 64) {l : Loc} (hl : l.wf n = true) {s : State} {m : Memory}
    (hread : Memory.read m l.addr.toNat = Memory.read s.mem l.addr.toNat) : readLoc { s with mem := m } l = readLoc s l := by
  cases l with
  | fb i =>
    rw [fb_addr (of_decide_eq_true hl)] at hread
    simp only [readLoc, fbByte, fbBase, hread]
  | pb i =>
    rw [pb_addr (of_decide_eq_true hl)] at hread
    simp only [readLoc, pbByte, pbBase, hread]
  | assocValid k =>
    rw [assocValid_addr (Nat.lt_of_lt_of_le (of_decide_eq_true hl) hn)] at hread
    simp only [readLoc, assocValid, hread]
  | assocId k j =>
    obtain ⟨hk, hj⟩ := of_decide_eq_true hl
    rwa [assocId_addr (Nat.lt_of_lt_of_le hk hn) hj] at hread
  | assocCtr k j =>
    obtain ⟨hk, hj⟩ := of_decide_eq_true hl
    rwa [assocCtr_addr (Nat.lt_of_lt_of_le hk hn) hj] at hread
  | _ => rfl

/-- A write to one location leaves what every other location reads. -/
theorem readLoc_writeLoc_ne {n : Nat} (hn : n ≤ 64) {l l' : Loc} (hl : l.wf n = true) (hl' : l'.wf n = true)
    (haddr : l'.addr.toNat ≠ l.addr.toNat) (s : State) (v : Byte) : readLoc (writeLoc s v l) l' = readLoc s l' := by
  have hne : l' ≠ l := fun h => haddr (h ▸ rfl)
  cases l with
  | ctrl => cases l' with | ctrl => exact absurd rfl hne | _ => rfl
  | aFtype => cases l' with | aFtype => exact absurd rfl hne | _ => rfl
  | aSecure => cases l' with | aSecure => exact absurd rfl hne | _ => rfl
  | aSeq => cases l' with | aSeq => exact absurd rfl hne | _ => rfl
  | aIl => cases l' with | aIl => exact absurd rfl hne | _ => rfl
  | aBl => cases l' with | aBl => exact absurd rfl hne | _ => rfl
  | aTl => cases l' with | aTl => exact absurd rfl hne | _ => rfl
  | fbLen => cases l' with | fbLen => exact absurd rfl hne | _ => rfl
  | pbLen => cases l' with | pbLen => exact absurd rfl hne | _ => rfl
  | pbCap => cases l' with | pbCap => exact absurd rfl hne | _ => rfl
  | delta => cases l' with | delta => exact absurd rfl hne | _ => rfl
  | aId i => cases l' with | aId j => exact getD_setIfInBounds_ne _ (fun h => hne (congrArg Loc.aId h.symm)) v | _ => rfl
  | ctrA i => cases l' with | ctrA j => exact getD_setIfInBounds_ne _ (fun h => hne (congrArg Loc.ctrA h.symm)) v | _ => rfl
  | ctrB i => cases l' with | ctrB j => exact getD_setIfInBounds_ne _ (fun h => hne (congrArg Loc.ctrB h.symm)) v | _ => rfl
  | iv i => cases l' with | iv j => exact getD_setIfInBounds_ne _ (fun h => hne (congrArg Loc.iv h.symm)) v | _ => rfl
  | key i => cases l' with | key j => rfl | _ => rfl
  | txId i => cases l' with | txId j => exact getD_setIfInBounds_ne _ (fun h => hne (congrArg Loc.txId h.symm)) v | _ => rfl
  | nodeId i => cases l' with | nodeId j => exact getD_setIfInBounds_ne _ (fun h => hne (congrArg Loc.nodeId h.symm)) v | _ => rfl
  | fb i =>
    rw [fb_addr (of_decide_eq_true hl)] at haddr
    exact readLoc_withMem hn hl' (by rw [read_fbWrite, if_neg (by rw [List.length_singleton]; omega)])
  | pb i =>
    rw [pb_addr (of_decide_eq_true hl)] at haddr
    exact readLoc_withMem hn hl' (by rw [read_pbWrite, if_neg (by rw [List.length_singleton]; omega)])
  | assocValid k =>
    rw [assocValid_addr (Nat.lt_of_lt_of_le (of_decide_eq_true hl) hn)] at haddr
    exact readLoc_withMem hn hl' (by rw [Memory.read_write, if_neg haddr])
  | assocId k j =>
    obtain ⟨hk, hj⟩ := of_decide_eq_true hl
    rw [assocId_addr (Nat.lt_of_lt_of_le hk hn) hj] at haddr
    exact readLoc_withMem hn hl' (by rw [Memory.read_write, if_neg haddr])
  | assocCtr k j =>
    obtain ⟨hk, hj⟩ := of_decide_eq_true hl
    rw [assocCtr_addr (Nat.lt_of_lt_of_le hk hn) hj] at haddr
    exact readLoc_withMem hn hl' (by rw [Memory.read_write, if_neg haddr])
  | _ => rfl

theorem writeLoc_params (s : State) (v : Byte) (l : Loc) : (writeLoc s v l).params = s.params := by
  cases l <;> rfl

/-- A bus write leaves what every other address reads. -/
theorem busRead_writeLoc_ne {s : State} (hn : s.params.assocN ≤ 64) {a b : BusAddr} (hab : b ≠ a) (v : Byte) :
    busRead (writeLoc s v (locOf s.params.assocN a)) b = busRead s b := by
  rw [busRead, busRead, writeLoc_params]
  rcases locOf_cases s.params.assocN a with hres | ⟨hl, haddr⟩
  · rw [hres]
    rfl
  rcases locOf_cases s.params.assocN b with hres' | ⟨hl', haddr'⟩
  · rw [hres']
    rfl
  · refine readLoc_writeLoc_ne hn hl hl' (fun h => hab ?_) s v
    rw [← haddr, ← haddr', BitVec.eq_of_toNat_eq h]

/-! ## The key bytes (R31, R65) -/

theorem writeLoc_key_ne {i : Nat} (hi : i < 16) {l : Loc} (hl : l ≠ .key i) (s : State) (v : Byte) :
    (writeLoc s v l).key[i] = s.key[i] := by
  cases l with
  | key j => exact Vector.getElem_setIfInBounds_ne hi (fun h => hl (congrArg Loc.key h))
  | _ => rfl

/-- A bus write stores a key byte at its own address only. -/
theorem key_writeLoc {s : State} (hn : s.params.assocN ≤ 64) (a : BusAddr) (v : Byte) {i : Nat} (hi : i < 16) :
    (writeLoc s v (locOf s.params.assocN a)).key[i] = if a.toNat = 0x050 + i then v else s.key[i] := by
  have haddr : locOf s.params.assocN a = .key i ↔ a.toNat = 0x050 + i := by
    rw [locOf_eq_iff (locOf_addr (l := .key i) hn (decide_eq_true hi)) nofun, ← BitVec.toNat_inj, Loc.addr,
      ofNat12_toNat (by omega)]
  by_cases h : a.toNat = 0x050 + i
  · rw [if_pos h, haddr.mpr h]
    exact Vector.getElem_setIfInBounds_self hi
  · rw [if_neg h, writeLoc_key_ne hi (mt haddr.mp h)]

/-! ## The map's way of storing, by address (R70) -/

/-- How each address takes a written byte (R65, R70). `n` is `ASSOC_N`. -/
def storageAt (n x : Nat) : Storage :=
  if x = 0x006 then .masked 0x07
  else if x = 0x009 then .masked 0x01
  else if x = 0x00A then .masked 0x0F
  else if x = 0x00E ∨ x = 0x010 then .saturated
  else if x = 0x008 ∨ (0x00B ≤ x ∧ x ≤ 0x011) ∨ (0x018 ≤ x ∧ x ≤ 0x01F) ∨ (0x030 ≤ x ∧ x ≤ 0x035) ∨
      (0x038 ≤ x ∧ x ≤ 0x03D) ∨ (0x040 ≤ x ∧ x ≤ 0x04B) ∨ (0x060 ≤ x ∧ x ≤ 0x06F) ∨ (0x080 ≤ x ∧ x ≤ 0x0FF) then .whole
  else if 0x050 ≤ x ∧ x ≤ 0x05F then .zero
  else if 0x100 ≤ x ∧ x < 0x100 + 16 * n then
    (if x % 16 = 0 then .masked 0x01 else if x % 16 = 15 then .zero else .whole)
  else if (0x012 ≤ x ∧ x ≤ 0x017) ∨ x = 0x02F ∨ x = 0x036 ∨ x = 0x037 ∨ x = 0x03E ∨ x = 0x03F ∨
      (0x04C ≤ x ∧ x ≤ 0x04F) ∨ (0x070 ≤ x ∧ x ≤ 0x07F) ∨ 0x100 ≤ x then .zero
  else .kept

/-- Inside the table, the address decides by its place in the entry. -/
theorem storageAt_entry {n x : Nat} (hlow : 0x100 ≤ x) (hhigh : x < 0x100 + 16 * n) :
    storageAt n x = if x % 16 = 0 then .masked 0x01 else if x % 16 = 15 then .zero else .whole := by
  unfold storageAt
  rw [if_neg (by omega), if_neg (by omega), if_neg (by omega), if_neg (by omega), if_neg (by omega), if_neg (by omega),
    if_pos ⟨hlow, hhigh⟩]

/-- Above the table nothing is stored. -/
theorem storageAt_high {n x : Nat} (hlow : 0x100 ≤ x) (hhigh : 0x100 + 16 * n ≤ x) : storageAt n x = .zero := by
  unfold storageAt
  rw [if_neg (by omega), if_neg (by omega), if_neg (by omega), if_neg (by omega), if_neg (by omega), if_neg (by omega),
    if_neg (by omega), if_pos (by omega)]

/-- Below the table, the way of storing does not depend on the table's size. -/
theorem storageAt_low {n x : Nat} (hx : x < 0x100) : storageAt n x = storageAt 0 x := by
  unfold storageAt
  rw [if_neg (show ¬(0x100 ≤ x ∧ x < 0x100 + 16 * n) by omega),
    if_neg (show ¬(0x100 ≤ x ∧ x < 0x100 + 16 * 0) by omega)]

theorem storage_tableLoc (k : Nat) {j : Nat} (hj : j < 16) :
    (tableLoc k j).storage = if j = 0 then .masked 0x01 else if j = 15 then .zero else .whole := by
  simp only [tableLoc]
  by_cases h0 : j = 0
  · rw [if_pos h0, if_pos h0]; rfl
  rw [if_neg h0, if_neg h0]
  by_cases h8 : j ≤ 8
  · rw [if_pos h8, if_neg (by omega)]; rfl
  rw [if_neg h8]
  by_cases h14 : j ≤ 14
  · rw [if_pos h14, if_neg (by omega)]; rfl
  · rw [if_neg h14, if_pos (by omega)]; rfl

/-- The name of an address decides how it takes a written byte. -/
theorem storage_locOf (n : Nat) (a : BusAddr) : (locOf n a).storage = storageAt n a.toNat := by
  by_cases hlow : a.toNat < 0x100
  · have hmap : ∀ x : Fin 256, (locOf 0 (BitVec.ofNat 12 x.val)).storage = storageAt 0 x.val := by decide +kernel
    rw [locOf_low n a hlow, storageAt_low hlow, ← hmap ⟨a.toNat, hlow⟩, BitVec.ofNat_toNat, BitVec.setWidth_eq]
  by_cases hhigh : 0x100 + 16 * n ≤ a.toNat
  · rw [locOf_high n a hhigh, storageAt_high (by omega) hhigh]
    rfl
  · rw [storageAt_entry (by omega) (by omega),
      locOf_table n ((a.toNat - 0x100) / 16) (a.toNat % 16) a (by omega) (by omega) (by omega),
      storage_tableLoc _ (by omega)]

/-- What an address reads after a write to it. -/
theorem busRead_writeLoc_same (s : State) (a : BusAddr) (v : Byte) :
    busRead (writeLoc s v (locOf s.params.assocN a)) a = (storageAt s.params.assocN a.toNat).readBack (busRead s a) v := by
  rw [busRead, busRead, writeLoc_params, ← storage_locOf]
  rcases locOf_cases s.params.assocN a with hres | ⟨hl, -⟩
  · rw [hres]
    rfl
  · exact readLoc_writeLoc_same hl s v

/-- Settles O8: the write stores at the location that the address names, which reads it back as the map says. -/
theorem busWriteStoresAtItsAddressOnly : Obligations.BusWriteStoresAtItsAddressOnly := by
  intro s a v hwf ha
  have hn : s.params.assocN ≤ 64 := (of_decide_eq_true hwf).2
  refine ⟨_, busWrite_eq s a v (mt (locOf_eq_cmd _ a) ha), fun b hb => busRead_writeLoc_ne hn hb v,
    fun i hi => key_writeLoc hn a v hi, ?_⟩
  rw [busRead_writeLoc_same]
  simp only [storageAt, apply_ite (Storage.readBack (busRead s a) v)]
  rfl

end Sys2Proof.Machine
end

-- The secure codec (spec/43_secure_codec.md)
section
/-! `ENC_RAW`, `ENC_SEC` and `DEC_RAW` with tests that pass and with each test that fails (R172 to R192). -/
namespace Sys2Proof.Machine

/-! ## `ENC_RAW` (R172, R173) -/

theorem exec_encRaw (s : State) : exec .encRaw s = .next (finish (rawEncode { s with cmd := 0x07 } s.aId)) := rfl

/-- The tests of `RawEncode` before its header encode all pass. -/
structure EncodesRaw (s : State) : Prop where
  keyOk : s.ctrl.getLsbD 0 = true
  ivOk : s.ctrl.getLsbD 1 = true
  body : s.pbLen.toNat ≤ 32
  scratch : s.params.needEncRaw ≤ s.params.scratchBytes

theorem EncodesRaw.errOf_eq_zero {s : State} (h : EncodesRaw s) : errOf (rawEncodeError s) = 0x00 := by
  rw [errOf_rawEncodeError, if_neg (by rw [h.keyOk]; decide), if_neg (by rw [h.ivOk]; decide),
    if_neg (Nat.not_lt.mpr h.body), if_neg (Nat.not_lt.mpr h.scratch)]

/-- Settles O37: the tests pass and the engine answers, so `RawEncode` is done. -/
theorem encRawBuildsTheFrame : Obligations.EncRawBuildsTheFrame := by
  rintro s _ _ _ _ _ ct tag rfl rfl rfl hkey hiv hn hscratch hverdict hfits rfl rfl haead
  rw [← encryptedLen_eq] at *
  have hready : EncodesRaw { s with cmd := 0x07 } := ⟨hkey, hiv, by dsimp only; omega, hscratch⟩
  obtain ⟨m', -, hdone, hstored, hlength⟩ :=
    rawEncode_done { s with cmd := 0x07 } s.aId ct tag hready.errOf_eq_zero hverdict hn hfits haead
  refine ⟨s.paddedMem s.mem, m', ?_, stored_paddedMem s hn, hstored, hlength⟩
  rw [exec_encRaw, hdone]
  rfl

/-- Settles O38: the first failing test, before or in the header encode. -/
theorem encRawEarlyFailures : Obligations.EncRawEarlyFailures := by
  rintro s _ _ _ e rfl rfl rfl he
  rw [← encryptedLen_eq] at *
  have herror : errOf (rawEncodeError { s with cmd := 0x07 }) = e := (errOf_rawEncodeError _).trans he.symm
  refine ⟨fun hne => ?_, fun hzero hverdict => ?_⟩
  · obtain ⟨err, hcode, hfailed⟩ := rawEncode_early { s with cmd := 0x07 } s.aId (herror.trans_ne hne)
    rw [exec_encRaw, hfailed, finish_failed, hcode, herror]
  · obtain ⟨err, hcode, hfailed⟩ := rawEncode_header { s with cmd := 0x07 } s.aId (herror.trans hzero) hverdict
    rw [exec_encRaw, hfailed, finish_failed, hcode]
    rfl

theorem stored_withSecureHeader (s : State) (id : Bytes 8) (hil : s.aIl.toNat ≤ 8) :
    Stored s.mem 0x080 (s.secureHeader id) (s.withSecureHeader id).mem :=
  stored_fbWrite s.mem 0 _ (by rw [secureHeader_length s id hil]; omega)

/-- Padding `PB` and writing the header to `FB` do not meet. -/
theorem stored_withPadding (s : State) (id : Bytes 8) (hil : s.aIl.toNat ≤ 8) :
    Stored (s.paddedMem s.mem) 0x080 (s.secureHeader id) (s.withSecureHeader id).withPadding.mem := by
  have hheader := stored_withSecureHeader s id hil
  have hlength := secureHeader_length s id hil
  by_cases hempty : s.pbLen.toNat = 0
  · simp only [State.withPadding, State.paddedMem]
    rw [if_pos hempty, if_pos (show (s.withSecureHeader id).pbLen.toNat = 0 from hempty)]
    exact hheader
  · simp only [State.withPadding, State.paddedMem]
    rw [if_neg hempty, if_neg (show ¬ (s.withSecureHeader id).pbLen.toNat = 0 from hempty)]
    intro a
    rw [read_pbWrite, read_pbWrite, hheader a]
    by_cases hspan : 0x080 ≤ a ∧ a < 0x080 + (s.secureHeader id).length
    · rw [if_pos hspan, if_pos hspan, if_neg (by omega)]
    · rw [if_neg hspan, if_neg hspan]
      rfl

/-- Settles O39: the first failing test behind the header encode, with the header in `FB`. -/
theorem encRawLateFailures : Obligations.EncRawLateFailures := by
  rintro s _ _ _ _ _ e rfl rfl rfl hkey hiv hn hscratch hverdict rfl rfl hcase
  rw [← encryptedLen_eq] at *
  have hready : EncodesRaw { s with cmd := 0x07 } := ⟨hkey, hiv, hn, hscratch⟩
  have hil : s.aIl.toNat ≤ 8 := ((encodeVerdict_eq_zero _ _ _ _ _ _).mp hverdict).2.2.1
  obtain ⟨hframe, hlong, hencrypt⟩ := rawEncode_late { s with cmd := 0x07 } s.aId hready.errOf_eq_zero hverdict
  rcases hcase with ⟨hfits, rfl⟩ | ⟨hfits, h32, rfl⟩ | ⟨hfits, h31, rfl, haead⟩
  · refine ⟨s.mem, _, ?_, stored_nil _ _, stored_withSecureHeader s s.aId hil⟩
    rw [exec_encRaw, hframe hfits]
    rfl
  · refine ⟨s.mem, _, ?_, stored_nil _ _, stored_withSecureHeader s s.aId hil⟩
    rw [exec_encRaw, hlong hfits (by dsimp only; omega)]
    rfl
  · refine ⟨s.paddedMem s.mem, _, ?_, stored_paddedMem s h31, stored_withPadding s s.aId hil⟩
    rw [exec_encRaw, hencrypt hfits h31 haead]
    rfl

/-! ## `ENC_SEC` (R190) -/

/-- The state in which `ENC_SEC` runs `RawEncode`: its code in `CMD`, the nonce built from `TX_ID` and `CTR_A` (R190). -/
def State.nonceBuilt (s : State) : State := State.setNonce { s with cmd := 0x09 } s.txId s.ctrA

theorem State.nonceBuilt_last (s : State) : s.nonceBuilt.iv[11] = s.ctrA[5] := nonceOf_last s.txId s.ctrA

theorem exec_encSec_of_tests {s : State} (h : errOf (encSecError s) = 0x00) :
    exec .encSec s = .next (finish (rawEncode s.nonceBuilt s.txId)) := exec_encSec s h

/-- The tests of `ENC_SEC` before `RawEncode` all pass (R190); for a body the header encode bounds the ID length further. -/
theorem errOf_encSecError_eq_zero {s : State} (hlen : s.aIl.toNat ≤ 6 ∨ s.pbLen = 0x00) (htype : s.aFtype ≠ 0x00)
    (htypeHigh : s.aFtype.toNat < 0x7F) (hscratch : s.params.needEncSec ≤ s.params.scratchBytes) :
    errOf (encSecError s) = 0x00 := by
  rw [errOf_encSecError, if_neg, if_neg, if_neg (Nat.not_lt.mpr hscratch)]
  · exact not_or.mpr ⟨htype, Nat.not_le.mpr htypeHigh⟩
  · rintro ⟨hlong, hbody⟩
    exact hlen.elim (fun h => by omega) hbody

/-- A secure frame with a body that fits 64 bytes has an ID of at most five bytes. -/
theorem short_id_or_no_body {s : State}
    (hverdict : encodeVerdict true s.aFtype s.aIl.toNat s.encryptedLen 23 s.fbLen.toNat = 0x00) :
    s.aIl.toNat ≤ 6 ∨ s.pbLen = 0x00 := by
  obtain ⟨-, -, -, -, -, hfl⟩ := (encodeVerdict_eq_zero _ _ _ _ _ _).mp hverdict
  rw [encryptedLen_eq, if_pos rfl] at hfl
  by_cases hempty : s.pbLen.toNat = 0
  · exact .inr ((pbLen_zero s).mpr hempty)
  · rw [if_neg hempty] at hfl
    exact .inl (by omega)

/-- Settles O43: `RawEncode` in the state with the nonce built. -/
theorem encSecBuildsTheFrame : Obligations.EncSecBuildsTheFrame := by
  rintro s _ _ _ _ _ ct tag rfl rfl rfl hkey hn hneedSec hneedRaw hverdict hfits rfl rfl haead
  rw [← encryptedLen_eq] at *
  obtain ⟨htype, htypeHigh, -⟩ := (encodeVerdict_eq_zero _ _ _ _ _ _).mp hverdict
  have hiv := nonceOf_toList s.txId s.ctrA
  obtain ⟨hivOk, hkeyOk, -⟩ := ctrl_with_iv s.ctrl
  have hready : EncodesRaw s.nonceBuilt := ⟨hkeyOk.trans hkey, hivOk, Nat.le_succ_of_le hn, hneedRaw⟩
  have hheader : s.nonceBuilt.secureHeader s.txId = headerBytes (26 + s.aIl.toNat + s.encryptedLen) (s.aFtype ||| 0x80)
      ((s.ctrA[5]).toNat % 16) s.aIl.toNat s.encryptedLen s.txId := by
    rw [State.secureHeader, State.nonceBuilt_last]
    rfl
  rw [← hiv, ← hheader] at haead
  obtain ⟨m', -, hdone, hstored, hlength⟩ :=
    rawEncode_done s.nonceBuilt s.txId ct tag hready.errOf_eq_zero hverdict hn hfits haead
  have hctr : nonceCtr s.nonceBuilt.iv = s.ctrA.toList := nonceCtr_nonceOf s.txId s.ctrA
  rw [hheader, hctr] at hstored hlength
  refine ⟨s.paddedMem s.mem, m', nonceOf s.txId s.ctrA, ?_, hiv, stored_paddedMem s hn, hstored, hlength⟩
  rw [exec_encSec_of_tests (errOf_encSecError_eq_zero (short_id_or_no_body hverdict) htype htypeHigh hneedSec), hdone]
  simp only [finish_done, State.withSecureHeader]
  rw [State.nonceBuilt_last]
  rfl

/-- Settles O44: the first failing test, or `RawEncode`, which looks at neither `CMD` nor `A_ID`. -/
theorem encSecIsEncRawWithTheBuiltNonce : Obligations.EncSecIsEncRawWithTheBuiltNonce := by
  intro s e he
  have herror : errOf (encSecError s) = e := (errOf_encSecError s).trans he.symm
  refine ⟨fun hne => exec_encSec_of_error herror hne, fun hzero iv t hiv hx => ?_⟩
  obtain rfl := eq_nonceOf _ _ _ hiv
  have hrelabel : rawEncode { s.nonceBuilt with cmd := 0x07, aId := s.txId } s.txId =
      (rawEncode s.nonceBuilt s.txId).map fun u => { u with cmd := 0x07, aId := s.txId } :=
    rawEncode_relabel s.nonceBuilt 0x07 s.txId s.txId
  have hself : rawEncode s.nonceBuilt s.txId =
      (rawEncode s.nonceBuilt s.txId).map fun u => { u with cmd := 0x09, aId := s.aId } :=
    rawEncode_relabel s.nonceBuilt 0x09 s.aId s.txId
  rw [exec_encSec_of_tests (herror.trans hzero), hself]
  have hx' : finish (rawEncode { s.nonceBuilt with cmd := 0x07, aId := s.txId } s.txId) = t := Host.Outcome.next.inj hx
  rw [← hx', hrelabel]
  cases rawEncode s.nonceBuilt s.txId <;> rfl

/-! ## `DEC_RAW` (R180, R181) -/

theorem exec_decRaw (s : State) : exec .decRaw s = .next (finish (rawDecode { s with cmd := 0x08 })) := rfl

/-- The tests of `RawDecode` before the AEAD engine all pass. -/
structure DecodesRaw (s : State) : Prop where
  keyOk : s.ctrl.getLsbD 0 = true
  ivOk : s.ctrl.getLsbD 1 = true
  scratch : s.params.needDecRaw ≤ s.params.scratchBytes
  trailer : s.hFl.toNat = 26 + s.hSeqIl.toNat % 16 + s.hBl.toNat
  frame : s.hFl.toNat + 1 ≤ s.fbLen.toNat
  format : fbByte s.mem s.hFl.toNat = 0x80
  body : s.hBl.toNat = 0 ∨ s.hBl.toNat = 32
  seq : s.hSeqIl.toNat / 16 = (s.iv[11]).toNat % 16

theorem DecodesRaw.errOf_eq_zero {s : State} (h : DecodesRaw s) : errOf (rawDecodeError s) = 0x00 := by
  obtain ⟨hkeyOk, hivOk, hscratch, htrailer, hframe, hformat, hbody, hseq⟩ := h
  rw [errOf_rawDecodeError, if_neg (by rw [hkeyOk]; decide), if_neg (by rw [hivOk]; decide), if_neg (by omega),
    if_neg (by omega), if_neg (by omega), if_neg (by omega), if_neg (not_not_intro hformat), if_neg (by omega),
    if_neg (not_not_intro hseq)]

/-- What the AEAD engine says of the frame in `FB` under the key and the nonce of the state (R181). -/
def State.opened (s : State) : Option (List Byte) :=
  aeadDec s.params.aead s.key.toList s.iv.toList (fbBytes s.mem 0 (4 + s.hSeqIl.toNat % 16))
    (fbBytes s.mem (4 + s.hSeqIl.toNat % 16) s.hBl.toNat) (fbBytes s.mem (s.hFl.toNat - 16) 16)

theorem rawDecode_of_accepted {s : State} {pt : List Byte} (h : errOf (rawDecodeError s) = 0x00) (ha : s.opened = some pt) :
    rawDecode s = deliver s pt := by
  rw [State.opened] at ha
  rw [rawDecode_late s h, ha]

theorem rawDecode_of_refused {s : State} (h : errOf (rawDecodeError s) = 0x00) (ha : s.opened = none) :
    rawDecode s = .failed s .auth := by
  rw [State.opened] at ha
  rw [rawDecode_late s h, ha]

/-- Settles O40: the tests pass, the engine accepts, and the plaintext is wanted and fits. -/
theorem decRawDeliversThePlaintext : Obligations.DecRawDeliversThePlaintext := by
  rintro s _ _ pt rfl rfl hkey hiv hwant hscratch hbl htrailer hframe hformat hseq haead hcap
  have hbody : s.hBl.toNat = 32 := congrArg BitVec.toNat hbl
  have hready : DecodesRaw { s with cmd := 0x08 } :=
    ⟨hkey, hiv, hscratch, by rw [htrailer]; simp only [hbody], hframe, hformat, .inr hbody, hseq⟩
  have hlength : pt.length = 32 := (aeadDec_length (by simp) haead).trans (fbBytes_length _ _ _)
  have hopened : State.opened { s with cmd := 0x08 } = some pt := by rw [← haead, ← hbody]; rfl
  have htake : (pt.take (dataLen pt)).length = dataLen pt := by
    have := dataLen_le pt
    rw [List.length_take]
    omega
  refine ⟨pbWrite s.mem 0 (pt.take (dataLen pt)), ?_,
    stored_pbWrite s.mem 0 _ (by have := dataLen_le pt; omega), htake⟩
  rw [exec_decRaw, rawDecode_of_accepted hready.errOf_eq_zero hopened, deliver_eq, if_pos ⟨hwant, by dsimp only; omega⟩,
    if_neg (Nat.not_lt.mpr hcap)]
  rfl

/-- Settles O41: the tests pass, the engine accepts, and there is no plaintext to deliver. -/
theorem decRawWithoutPlaintext : Obligations.DecRawWithoutPlaintext := by
  rintro s _ _ _ pt rfl rfl rfl hkey hiv hunwanted hscratch hbody htrailer hframe hformat hseq haead
  have hready : DecodesRaw { s with cmd := 0x08 } := ⟨hkey, hiv, hscratch, htrailer, hframe, hformat, hbody, hseq⟩
  have hdeliver : ¬ (s.ctrl.getLsbD 2 = true ∧ s.hBl.toNat ≠ 0) := by
    rintro ⟨hwant, hne⟩
    exact hunwanted.elim (fun h => by rw [h] at hwant; exact nomatch hwant) hne
  rw [exec_decRaw, rawDecode_of_accepted hready.errOf_eq_zero haead, deliver_eq, if_neg hdeliver]
  rfl

/-- The code of `DEC_RAW` once its tests have passed: what the engine says, and the room for the plaintext (R181, R182). -/
def State.openedVerdict (s : State) : Byte :=
  match s.opened with
  | none => 0x21
  | some pt => if s.ctrl.getLsbD 2 = true ∧ s.hBl.toNat ≠ 0 ∧ s.pbCap.toNat < dataLen pt then 0x42 else 0x00

/-- `RawDecode` past its tests fails with the engine, or when the plaintext does not fit; nothing is written. -/
theorem rawDecode_of_openedVerdict {s : State} (h : errOf (rawDecodeError s) = 0x00) (hne : s.openedVerdict ≠ 0x00) :
    ∃ e, e.code = s.openedVerdict ∧ rawDecode s = .failed s e := by
  rw [State.openedVerdict] at hne ⊢
  cases ha : s.opened with
  | none => exact ⟨.auth, rfl, rawDecode_of_refused h ha⟩
  | some pt =>
    rw [ha] at hne
    dsimp only at hne ⊢
    split at hne
    · next hcap =>
      obtain ⟨hwant, hbody, hsmall⟩ := hcap
      refine ⟨.ptCap, by rw [if_pos ⟨hwant, hbody, hsmall⟩]; rfl, ?_⟩
      rw [rawDecode_of_accepted h ha, deliver_eq, if_pos ⟨hwant, hbody⟩, if_pos hsmall]
    · exact absurd rfl hne

/-- The eleven failures in their order: the nine tests, then the engine's answer. -/
theorem decRawFailure_eq (s : State) :
    (if s.ctrl.getLsbD 0 = false then 0x43
     else if s.ctrl.getLsbD 1 = false then 0x44
     else if s.params.scratchBytes < s.params.needDecRaw then 0x40
     else if s.hFl.toNat = 0 then 0x1A
     else if s.hFl.toNat ≠ 26 + s.hSeqIl.toNat % 16 + s.hBl.toNat then 0x14
     else if s.fbLen.toNat < s.hFl.toNat + 1 then 0x41
     else if fbByte s.mem s.hFl.toNat ≠ 0x80 then 0x1B
     else if s.hBl.toNat ≠ 0 ∧ s.hBl.toNat ≠ 32 then 0x1C
     else if s.hSeqIl.toNat / 16 ≠ (s.iv[11]).toNat % 16 then 0x1D
     else s.openedVerdict) =
      if errOf (rawDecodeError s) = 0x00 then s.openedVerdict else errOf (rawDecodeError s) := by
  rw [errOf_rawDecodeError]
  refine verdict_step (by decide) <| verdict_step (by decide) <| verdict_step (by decide) <| verdict_step (by decide) <|
    verdict_step (by decide) <| verdict_step (by decide) <| verdict_step (by decide) <| verdict_step (by decide) <|
    verdict_step (by decide) ?_
  rw [if_pos rfl]

/-- Settles O42: the first failing test, or the engine's refusal, or no room; `RawDecode` then has written nothing. -/
theorem decRawFailuresReleaseNothing : Obligations.DecRawFailuresReleaseNothing := by
  rintro s _ _ _ e rfl rfl rfl he hne
  have he : e = _ := he.trans (decRawFailure_eq s)
  have hfailed : ∃ err : Err, err.code = e ∧ rawDecode { s with cmd := 0x08 } = .failed { s with cmd := 0x08 } err := by
    by_cases hzero : errOf (rawDecodeError s) = 0x00
    · rw [if_pos hzero] at he
      subst he
      exact rawDecode_of_openedVerdict (s := { s with cmd := 0x08 }) hzero hne
    · rw [if_neg hzero] at he
      subst he
      exact rawDecode_early { s with cmd := 0x08 } hzero
  obtain ⟨err, hcode, hfailed⟩ := hfailed
  rw [exec_decRaw, hfailed, finish_failed, hcode]

end Sys2Proof.Machine
end

-- The non-secure codec, continued (spec/42_nonsecure_codec.md)
section
/-! The CRC's check values (R150, R152), the range of its trailer and its detection of single-bit errors (R151), and `ENC_NS`
with every end (R153, R154). -/
namespace Sys2Proof.Machine

/-! ## The CRC (R150 to R152) -/

/-- Settles O28, by running the CRC. -/
theorem crcCheckValues : Obligations.CrcCheckValues := by
  unfold Obligations.CrcCheckValues
  decide +kernel

/-- Settles O29: the register has seven bits, and the trailer is the register or 0x80. -/
theorem crcTrailerIsNeverForbidden : Obligations.CrcTrailerIsNeverForbidden := by
  intro bs
  refine ⟨?_, crcTrailer_allowed bs⟩
  have hlt := crc7_lt bs
  unfold crcTrailer
  split
  · exact .inr rfl
  · next hne =>
    have hpos : (crc7 bs).toNat ≠ 0 := fun h => hne (BitVec.eq_of_toNat_eq h)
    exact .inl ⟨by omega, by omega⟩

/-- What the generator of the CRC folds into the shifted register (R150). -/
def crcFeedback (b : Bool) : Byte := if b then 0x37 else 0x00

theorem crc7Bit_eq (c : Byte) (d : Bool) : crc7Bit c d = c <<< 1 ^^^ crcFeedback (c.getLsbD 6 ^^ d) := by
  rw [crc7Bit, crcFeedback]
  split
  · rfl
  · rw [BitVec.ofNat_eq_ofNat, BitVec.xor_zero]

theorem crcFeedback_xor (b b' : Bool) : crcFeedback (b ^^ b') = crcFeedback b ^^^ crcFeedback b' := by
  cases b <;> cases b' <;> rfl

/-- One bit of the CRC is linear over exclusive or. -/
theorem crc7Bit_xor (c c' : Byte) (d d' : Bool) :
    crc7Bit (c ^^^ c') (d ^^ d') = crc7Bit c d ^^^ crc7Bit c' d' := by
  have hbits : ((c ^^^ c').getLsbD 6 ^^ (d ^^ d')) = ((c.getLsbD 6 ^^ d) ^^ (c'.getLsbD 6 ^^ d')) := by
    rw [BitVec.getLsbD_xor, Bool.xor_assoc, Bool.xor_assoc, Bool.xor_left_comm (c'.getLsbD 6)]
  rw [crc7Bit_eq, crc7Bit_eq, crc7Bit_eq, hbits, crcFeedback_xor, BitVec.shiftLeft_xor_distrib]
  ac_rfl

theorem foldl_crc7Bit_xor (is : List Nat) (d d' : Byte) (c c' : Byte) :
    is.foldl (fun c i => crc7Bit c ((d ^^^ d').getLsbD i)) (c ^^^ c') =
      is.foldl (fun c i => crc7Bit c (d.getLsbD i)) c ^^^ is.foldl (fun c i => crc7Bit c (d'.getLsbD i)) c' := by
  induction is generalizing c c' with
  | nil => rfl
  | cons i is ih => rw [List.foldl_cons, List.foldl_cons, List.foldl_cons, BitVec.getLsbD_xor, crc7Bit_xor, ih]

/-- One byte of the CRC is linear over exclusive or. -/
theorem crc7Step_xor (c c' d d' : Byte) : crc7Step (c ^^^ c') (d ^^^ d') = crc7Step c d ^^^ crc7Step c' d' := by
  rw [crc7Step, crc7Step, crc7Step, foldl_crc7Bit_xor]
  refine BitVec.eq_of_getLsbD_eq fun i _ => ?_
  simp only [BitVec.getLsbD_and, BitVec.getLsbD_xor, Bool.and_xor_distrib_right]

/-- Two registers that meet after the same byte were the same. -/
theorem crc7Step_left_inj {c c' d : Byte} (hc : c.toNat < 0x80) (hc' : c'.toNat < 0x80)
    (h : crc7Step c d = crc7Step c' d) : c = c' := by
  have hkernel : ∀ x : Byte, x.getLsbD 7 = false → crc7Step x 0#8 = 0#8 → x = 0#8 := by decide +kernel
  have htop : ∀ x : Byte, x.toNat < 0x80 → x.getLsbD 7 = false := by decide +kernel
  have hzero : crc7Step (c ^^^ c') (d ^^^ d) = 0#8 := by rw [crc7Step_xor, h, BitVec.xor_self]
  rw [BitVec.xor_self] at hzero
  exact BitVec.xor_eq_zero_iff.mp (hkernel _ (by rw [BitVec.getLsbD_xor, htop c hc, htop c' hc']; rfl) hzero)

/-- A byte with one bit flipped takes the register elsewhere. -/
theorem crc7Step_flip_ne (c d : Byte) {i : Nat} (hi : i < 8) : crc7Step c d ≠ crc7Step c (d ^^^ BitVec.twoPow 8 i) := by
  have hbit : ∀ i : Fin 8, crc7Step 0#8 (BitVec.twoPow 8 i.val) ≠ 0#8 := by decide +kernel
  intro h
  have hzero : crc7Step (c ^^^ c) (d ^^^ (d ^^^ BitVec.twoPow 8 i)) = 0#8 := by rw [crc7Step_xor, ← h, BitVec.xor_self]
  rw [BitVec.xor_self, ← BitVec.xor_assoc, BitVec.xor_self, BitVec.zero_xor] at hzero
  exact hbit ⟨i, hi⟩ hzero

/-- Registers that differ stay different through the same bytes. -/
theorem foldl_crc7Step_inj (bs : List Byte) {c c' : Byte} (hc : c.toNat < 0x80) (hc' : c'.toNat < 0x80)
    (h : bs.foldl crc7Step c = bs.foldl crc7Step c') : c = c' := by
  induction bs generalizing c c' with
  | nil => exact h
  | cons b bs ih => exact crc7Step_left_inj hc hc' (ih (crc7Step_lt c b) (crc7Step_lt c' b) h)

/-- The trailer tells registers of seven bits apart: 0x80 is none of them. -/
theorem crc7_eq_of_crcTrailer_eq {xs ys : List Byte} (h : crcTrailer xs = crcTrailer ys) : crc7 xs = crc7 ys := by
  have hx := crc7_lt xs
  have hy := crc7_lt ys
  unfold crcTrailer at h
  split at h <;> split at h
  · next hx0 hy0 => rw [hx0, hy0]
  · rw [← h] at hy; exact absurd hy (by decide)
  · rw [h] at hx; exact absurd hx (by decide)
  · exact h

/-- Settles O30: the flipped byte takes the register elsewhere, and it stays elsewhere to the end. -/
theorem crcSeesEverySingleBitError : Obligations.CrcSeesEverySingleBitError := by
  intro pre post b i hi h
  have hcrc := crc7_eq_of_crcTrailer_eq h
  simp only [crc7, List.foldl_append, List.foldl_cons, List.foldl_nil] at hcrc
  exact crc7Step_flip_ne _ b hi (foldl_crc7Step_inj post (crc7Step_lt _ _) (crc7Step_lt _ _) hcrc)

/-! ## `ENC_NS` (R153, R154) -/

/-- Settles O31: the arguments pass and the frame fits, so `ENC_NS` writes it. -/
theorem encNsBuildsTheFrame : Obligations.EncNsBuildsTheFrame := by
  rintro s _ hverdict hframe rfl
  obtain ⟨htype, htypeHigh, hil, -, hbody, -⟩ := (encodeVerdict_eq_zero _ _ _ _ _ _).mp hverdict
  have htypeLow : s.aFtype.toNat ≠ 0 := fun h => htype (BitVec.eq_of_toNat_eq h)
  have hfits : NsFits s := ⟨by omega, by omega, hil, hbody, hframe⟩
  exact ⟨_, exec_encNs_of_fits hfits, hfits.stored_nsFrame⟩

/-- `HdrEncode` of the arguments of `ENC_NS`, which pass its tests. -/
theorem hdrEncode_nsHeader {s : State}
    (hverdict : encodeVerdict false s.aFtype s.aIl.toNat s.pbLen.toNat 1 s.fbLen.toNat = 0x00) :
    hdrEncode s false s.aFtype s.aSeq s.aId s.aIl.toNat s.pbLen.toNat tlNonSecure =
      .done s.withNsHeader (4 + s.aIl.toNat) := by
  have hfl : 3 + s.aIl.toNat + s.pbLen.toNat + 1 = 4 + s.aIl.toNat + s.pbLen.toNat := by omega
  have htype : (s.aFtype ||| if false = true then 0x80 else 0x00) = s.aFtype := BitVec.or_zero
  rw [tlNonSecure, hdrEncode_done s false s.aFtype s.aSeq s.aId s.aIl.toNat s.pbLen.toNat 1 hverdict, hfl, htype, ofNat_toNat8]
  rfl

/-- `ENC_NS` whose frame does not fit: the header bytes are in `FB`, `H_FL` is cleared, the other header registers are as
before (R154, R264). -/
theorem exec_encNs_of_not_fits {s : State}
    (hverdict : encodeVerdict false s.aFtype s.aIl.toNat s.pbLen.toNat 1 s.fbLen.toNat = 0x00)
    (hframe : s.fbLen.toNat < 5 + s.aIl.toNat + s.pbLen.toNat) :
    exec .encNs s = .next
      { s with cmd := 0x03, result := 0x00, err := 0x41, hFl := 0x00, scratch := [], mem := fbWrite s.mem 0 s.nsHeader } := by
  obtain ⟨-, -, -, -, hbody, -⟩ := (encodeVerdict_eq_zero _ _ _ _ _ _).mp hverdict
  have hhdr := hdrEncode_nsHeader (s := { s with cmd := 0x03 }) hverdict
  have hfl : (State.withNsHeader { s with cmd := 0x03 }).hFl.toNat = 4 + s.aIl.toNat + s.pbLen.toNat :=
    Nat.mod_eq_of_lt (by dsimp only; omega)
  have hnofit : (State.withNsHeader { s with cmd := 0x03 }).fbLen.toNat < 4 + s.aIl.toNat + s.pbLen.toNat + 1 := by
    change s.fbLen.toNat < _
    omega
  have hbody := (encNsBody_eq _ (4 + s.aIl.toNat) _ hfl).trans (if_pos hnofit)
  dsimp only at hhdr hbody
  simp only [exec, execEncNs, command_eq, opcode, hhdr, hbody, Ended.revertHeader_failed, finish_failed]
  rfl

/-- Settles O32: the header's tests, then the capacity. -/
theorem encNsFailures : Obligations.EncNsFailures := by
  rintro s e he
  refine ⟨exec_encNs_of_header_failed he, fun hzero hframe => ?_⟩
  have hverdict := he.trans hzero
  have hil := ((encodeVerdict_eq_zero _ _ _ _ _ _).mp hverdict).2.2.1
  refine ⟨_, exec_encNs_of_not_fits hverdict hframe, stored_fbWrite s.mem 0 s.nsHeader ?_⟩
  rw [State.nsHeader, headerBytes_length _ _ _ _ _ _ hil]
  omega

end Sys2Proof.Machine
end

-- Top-level secure receive (spec/44_replay_guard.md)
section
/-! `DEC_SEC` stage by stage (R220 to R226): what each stage leaves behind, what an acceptance means, and that an early rejection
does not look at the AEAD engine (R223). -/
namespace Sys2Proof.Machine

/-! ## The state behind the stages before the decryption -/

/-- What `DEC_SEC` presents to `RawDecode`, as a host would present it to `DEC_RAW`: entry `k` resolved, the nonce built
(R221). -/
def State.presented (s : State) (k : Nat) : State :=
  { s with
    iv := nonceOf (assocId s.mem k) s.frameCtr, ctrl := s.ctrl ||| 0x02, assocIdx := BitVec.ofNat 8 k,
    nodeId := assocId s.mem k }

theorem rawDecode_checked (s : State) (k : Nat) :
    rawDecode (s.checked k) =
      (rawDecode (s.presented k)).map fun t => { t with cmd := 0x0A, fsm := 3, fsmTrace := 0x0F } :=
  rawDecode_relabel (s.presented k) 0x0A 3 0x0F

/-- `DEC_RAW` in that state does what `RawDecode` does in it; `CMD` is its own. -/
theorem exec_decRaw_presented (s : State) (k : Nat) :
    exec .decRaw (s.presented k) =
      .next (finish ((rawDecode (s.presented k)).map fun t => { t with cmd := 0x08, fsm := s.fsm, fsmTrace := s.fsmTrace })) :=
  congrArg (fun o => Host.Outcome.next (finish o)) (rawDecode_relabel (s.presented k) 0x08 s.fsm s.fsmTrace)

/-- A frame of a known sender with a counter that is newer than the stored one: the stages before the decryption pass. -/
structure Fresh (s : State) (k : Nat) : Prop where
  valid : s.hFl ≠ 0x00
  tests : errOf (decSecError s) = 0x00
  resolves : lookup s.mem s.params.assocN s.hId (s.hSeqIl.toNat % 16) = some k
  newer : ctrValue (assocCtr s.mem k) < ctrValue s.frameCtr

/-! ## Every stage (R221, R226) -/

/-- `DEC_SEC` of a fresh frame is `DEC_RAW` in the state with the nonce built, then the commit. -/
theorem Fresh.exec_decSec {s : State} {k : Nat} (h : Fresh s k) :
    ∃ u, exec .decRaw (s.presented k) = .next u ∧
      (u.err ≠ 0x00 → exec .decSec s = .next { u with cmd := 0x0A, fsm := 7, fsmTrace := 0x8F }) ∧
      (u.err = 0x00 → s.commitOk = false → exec .decSec s = .next
        { u with cmd := 0x0A, result := 0x00, err := 0x32, fsm := 7, fsmTrace := 0x9F, scratch := [] }) ∧
      (u.err = 0x00 → s.commitOk = true → exec .decSec s = .next
        { u with cmd := 0x0A, fsm := 5, fsmTrace := 0x3F, mem := setAssocCtr u.mem k s.frameCtr }) := by
  refine ⟨_, exec_decRaw_presented s k, ?_⟩
  have hraw := rawDecode_checked s k
  cases hend : rawDecode (s.presented k) with
  | failed y e =>
    obtain rfl := rawDecode_failed_state hend
    rw [hend] at hraw
    refine ⟨fun _ => ?_, fun hok => absurd hok e.code_ne_zero, fun hok => absurd hok e.code_ne_zero⟩
    exact exec_decSec_undecoded s k _ e h.valid h.tests h.resolves h.newer hraw
  | done y r =>
    rw [hend] at hraw
    have hx := exec_decSec_decoded s k _ r h.valid h.tests h.resolves h.newer hraw
    refine ⟨fun hne => absurd rfl hne, fun _ hoff => ?_, fun _ hon => ?_⟩
    · rw [hx, if_neg (by rw [hoff]; decide)]
      rfl
    · rw [hx, if_pos hon]
      rfl

/-- Settles O53, stage by stage. -/
theorem decSecStages : Obligations.DecSecStages := by
  rintro s _ _ _ e rfl rfl rfl he
  have hvalid : s.hFl.toNat ≠ 0 → s.hFl ≠ 0x00 := mt (hFl_zero s).mp
  have htests : s.hFl.toNat ≠ 0 → errOf (decSecError s) = e := fun h => (errOf_decSecError s (hvalid h)).trans he.symm
  refine ⟨fun hzero => exec_decSec_noHeader s ((hFl_zero s).mpr hzero), fun hfl hne => ?_, fun hfl hzero hno => ?_,
    fun hfl hzero k ctr iv hk hctr hiv => ?_⟩
  · rw [exec_decSec_structure s (hvalid hfl) ((htests hfl).trans_ne hne), htests hfl]
  · exact exec_decSec_unknown s (hvalid hfl) ((htests hfl).trans hzero) ((lookup_eq_none _ _ _ _).mpr hno)
  · have hlookup := (lookup_eq_some _ _ _ _ _).mpr hk
    obtain rfl := eq_frameCtr s (hvalid hfl) ctr hctr
    obtain rfl := eq_nonceOf _ _ _ hiv
    refine ⟨fun hold => exec_decSec_replay s k (hvalid hfl) ((htests hfl).trans hzero) hlookup hold, fun hnewer => ?_⟩
    obtain ⟨u, hu, hfail, hcommit, hdone⟩ :=
      Fresh.exec_decSec ⟨hvalid hfl, (htests hfl).trans hzero, hlookup, hnewer⟩
    exact ⟨u, hu, hfail, hcommit, fun herr hon => ⟨_, hdone herr hon, stored_setAssocCtr _ _ _⟩⟩

/-! ## An acceptance (R220, R221) -/

/-- The tests of `DEC_SEC` between `HeaderValid` and the lookup all pass. -/
theorem errOf_decSecError_eq_zero {s : State} (hvalid : s.hFl ≠ 0x00) (hscratch : s.params.needDecSec ≤ s.params.scratchBytes)
    (htrailer : s.hFl.toNat = 26 + s.hSeqIl.toNat % 16 + s.hBl.toNat) (hframe : s.hFl.toNat + 1 ≤ s.fbLen.toNat) :
    errOf (decSecError s) = 0x00 := by
  rw [errOf_decSecError s hvalid, if_neg (by omega), if_neg (by omega), if_neg (by omega)]

/-- Settles O52: the stages before the decryption pass, `DEC_RAW` succeeds with the nonce built, and the counter is committed. -/
theorem decSecAcceptsAFreshFrame : Obligations.DecSecAcceptsAFreshFrame := by
  rintro s _ _ _ k ctr pt rfl rfl rfl hneedSec hneedRaw hbody htrailer hframe hk hctr hnewer hkey hformat hseq haead hcap hon
  have hvalid : s.hFl ≠ 0x00 := mt (hFl_zero s).mp (by omega)
  obtain rfl := eq_frameCtr s hvalid ctr hctr
  obtain ⟨hivOk, hkeyOk, hwantOk⟩ := ctrl_with_iv s.ctrl
  have hlast : (s.presented k).iv[11] = s.frameCtr[5] := nonceOf_last _ _
  have hiv := nonceOf_toList (assocId s.mem k) s.frameCtr
  rw [← hiv] at haead
  rw [← hlast] at hseq
  obtain ⟨u, hu, -, -, hdone⟩ := Fresh.exec_decSec
    ⟨hvalid, errOf_decSecError_eq_zero hvalid hneedSec htrailer hframe, (lookup_eq_some _ _ _ _ _).mpr hk, hnewer⟩
  by_cases hdel : s.ctrl.getLsbD 2 = true ∧ s.hBl.toNat = 32
  · obtain ⟨hwant, h32⟩ := hdel
    have haead32 := haead
    rw [h32] at htrailer haead32
    obtain ⟨m, hm, hstored, -⟩ := decRawDeliversThePlaintext (s.presented k) s.hFl.toNat (s.hSeqIl.toNat % 16) pt rfl rfl
      (hkeyOk.trans hkey) hivOk (hwantOk.trans hwant) hneedRaw (BitVec.eq_of_toNat_eq h32) htrailer hframe hformat hseq haead32
      (hcap hwant h32)
    obtain rfl := Host.Outcome.next.inj (hm.symm.trans hu)
    refine ⟨m, _, _, ?_, hiv, ?_, stored_setAssocCtr m k s.frameCtr⟩
    · rw [hdone rfl hon, if_pos ⟨hwant, h32⟩, if_pos ⟨hwant, h32⟩]
      rfl
    · rw [if_pos ⟨hwant, h32⟩]
      exact hstored
  · have hunwanted : (s.presented k).ctrl.getLsbD 2 = false ∨ s.hBl.toNat = 0 := by
      by_cases hwant : s.ctrl.getLsbD 2 = true
      · exact .inr (hbody.resolve_right fun h32 => hdel ⟨hwant, h32⟩)
      · exact .inl (hwantOk.trans (Bool.not_eq_true _ ▸ hwant))
    have hm := decRawWithoutPlaintext (s.presented k) s.hFl.toNat (s.hSeqIl.toNat % 16) s.hBl.toNat pt rfl rfl rfl
      (hkeyOk.trans hkey) hivOk hunwanted hneedRaw hbody htrailer hframe hformat hseq haead
    obtain rfl := Host.Outcome.next.inj (hm.symm.trans hu)
    refine ⟨s.mem, _, _, ?_, hiv, ?_, stored_setAssocCtr s.mem k s.frameCtr⟩
    · rw [hdone rfl hon, if_neg hdel, if_neg hdel]
      rfl
    · rw [if_neg hdel]
      exact stored_nil _ _

/-- Settles O57: an acceptance passed every test, found the entry, and stored the frame's counter in it. -/
theorem decSecAcceptanceIsSound : Obligations.DecSecAcceptanceIsSound := by
  intro s t hx herr
  obtain ⟨hvalid, -, hon, k, hk, hnewer, u, r, hraw, rfl⟩ := decSec_accepted hx herr
  obtain ⟨htests, pt, haead, bs, -, n, -, rfl⟩ := rawDecode_done_state hraw
  obtain ⟨-, -, -, -, htrailer, hframe, hformat, -, -⟩ := rawDecode_facts _ htests
  refine ⟨hvalid, htrailer, hframe, hformat, hon, k, pt, (lookup_eq_some _ _ _ _ _).mp hk, rfl, hnewer, ?_, ?_⟩
  · rw [assocCtr_setAssocCtr, if_pos rfl]
  · rw [← nonceOf_toList]
    exact haead

/-! ## An early rejection (R223) -/

/-- A `DEC_SEC` that decrypts leaves a trace beyond `CounterChecked`. -/
theorem Fresh.fsmTrace {s t : State} {k : Nat} (h : Fresh s k) (hx : exec .decSec s = .next t) :
    t.fsmTrace ∉ [0x81, 0x83, (0x87 : Byte)] := by
  obtain ⟨u, -, hfail, hcommit, hdone⟩ := h.exec_decSec
  by_cases herr : u.err = 0x00
  · cases hon : s.commitOk with
    | false =>
      obtain rfl := Host.Outcome.next.inj (hx.symm.trans (hcommit herr hon))
      exact (by decide : (0x9F : Byte) ∉ [0x81, 0x83, 0x87])
    | true =>
      obtain rfl := Host.Outcome.next.inj (hx.symm.trans (hdone herr hon))
      exact (by decide : (0x3F : Byte) ∉ [0x81, 0x83, 0x87])
  · obtain rfl := Host.Outcome.next.inj (hx.symm.trans (hfail herr))
    exact (by decide : (0x8F : Byte) ∉ [0x81, 0x83, 0x87])

/-- Settles O56: the stages before `CounterChecked` read neither the key nor the engine. -/
theorem earlyRejectionNeedsNoAead : Obligations.EarlyRejectionNeedsNoAead := by
  intro s t key aead hx htrace
  by_cases hvalid : s.hFl = 0x00
  · obtain rfl := Host.Outcome.next.inj (hx.symm.trans (exec_decSec_noHeader s hvalid))
    exact exec_decSec_noHeader _ hvalid
  by_cases htests : errOf (decSecError s) = 0x00
  swap
  · obtain rfl := Host.Outcome.next.inj (hx.symm.trans (exec_decSec_structure s hvalid htests))
    exact exec_decSec_structure { s with key := key, params := { s.params with aead := aead } } hvalid htests
  cases hk : lookup s.mem s.params.assocN s.hId (s.hSeqIl.toNat % 16) with
  | none =>
    obtain rfl := Host.Outcome.next.inj (hx.symm.trans (exec_decSec_unknown s hvalid htests hk))
    exact exec_decSec_unknown _ hvalid htests hk
  | some k =>
    by_cases hnewer : ctrValue (assocCtr s.mem k) < ctrValue s.frameCtr
    · exact absurd htrace (Fresh.fsmTrace ⟨hvalid, htests, hk, hnewer⟩ hx)
    · have hold := Nat.not_lt.mp hnewer
      obtain rfl := Host.Outcome.next.inj (hx.symm.trans (exec_decSec_replay s k hvalid htests hk hold))
      exact exec_decSec_replay _ k hvalid htests hk hold

end Sys2Proof.Machine
end

-- The invariant and the stored counters along a run (spec/10_state.md, spec/44_replay_guard.md)
section
/-! What every step keeps (`Inv`), and that no step lowers a stored counter while the host spares the table (R218, R225). -/
namespace Sys2Proof.Machine

/-! ## The memory part of the invariant -/

/-- What `Inv` says of memory, for `ASSOC_N = n`. -/
structure MemoryInv (n : Nat) (m : Memory) : Prop where
  wf : Memory.wf m = true
  storage : ∀ c ∈ m, isStorage n c.1
  validBit : ∀ k, (Memory.read m (assocBase k)).toNat ≤ 1

theorem Inv.memory {s : State} (h : Inv s) : MemoryInv s.params.assocN s.mem := ⟨h.memWf, h.storage, h.validBit⟩

theorem memoryInv_nil (n : Nat) : MemoryInv n [] := ⟨rfl, fun _ h => (nomatch h), fun _ => Nat.zero_le 1⟩

/-- `VALID` is the first byte of its entry, and `assocBase` is above the buffers. -/
theorem MemoryInv.of_buffers {n f : Nat} {m m' : Memory} (h : MemoryInv n m) (hbuf : BufferOnly f m m') : MemoryInv n m' where
  wf := hbuf.wf h.wf
  storage c hc := (hbuf.cells c hc).elim .inl (h.storage c)
  validBit k := by
    rw [hbuf.table _ (by simp only [assocBase]; omega)]
    exact h.validBit k

theorem MemoryInv.setAssocCtr {n k : Nat} {m : Memory} (h : MemoryInv n m) (hk : k < n) (c : Bytes 6) :
    MemoryInv n (setAssocCtr m k c) where
  wf := wf_setAssocCtr m k c h.wf
  storage d hd := by
    rcases mem_setAssocCtr m k c d hd with hspan | hold
    · simp only [assocBase] at hspan
      exact .inr ⟨by omega, by omega, by omega⟩
    · exact h.storage d hold
  validBit j := by
    rw [read_setAssocCtr, if_neg (by simp only [assocBase]; omega)]
    exact h.validBit j

theorem MemoryInv.keepTable {n : Nat} {m : Memory} (h : MemoryInv n m) : MemoryInv n (keepTable m) where
  wf := wf_keepTable m h.wf
  storage c hc := h.storage c (List.mem_of_mem_filter hc)
  validBit k := by
    rw [read_keepTable_of_le m _ (by simp only [assocBase]; omega)]
    exact h.validBit k

/-- Writing one byte where the map has storage; a byte that is no `VALID` byte, or one bit. -/
theorem MemoryInv.write {n a : Nat} {m : Memory} (h : MemoryInv n m) (ha : isStorage n a) {v : Byte}
    (hv : (∀ k, assocBase k ≠ a) ∨ v.toNat ≤ 1) : MemoryInv n (Memory.write m a v) where
  wf := Memory.wf_write m a v h.wf
  storage c hc := by
    rcases Memory.mem_write m a v c hc with rfl | hold
    · exact ha
    · exact h.storage c hold
  validBit k := by
    rw [Memory.read_write]
    split
    · next hk => exact hv.resolve_left fun hno => hno k hk
    · exact h.validBit k

theorem fbWrite_singleton (m : Memory) {i : Nat} (hi : i < 64) (v : Byte) :
    fbWrite m i [v] = Memory.write m (0x080 + i) v := by
  rw [fbWrite, List.take_of_length_le (by rw [List.length_singleton]; simp only [fbSize]; omega)]
  rfl

theorem pbWrite_singleton (m : Memory) {i : Nat} (hi : i < 64) (v : Byte) :
    pbWrite m i [v] = Memory.write m (0x0C0 + i) v := by
  rw [pbWrite, List.take_of_length_le (by rw [List.length_singleton]; simp only [pbSize]; omega)]
  rfl

/-- A bus write to an existing location keeps the memory part. -/
theorem MemoryInv.writeLoc {s : State} (h : MemoryInv s.params.assocN s.mem) {l : Loc} (hl : l.wf s.params.assocN = true)
    (v : Byte) : MemoryInv s.params.assocN (writeLoc s v l).mem := by
  have hone : (v &&& 0x01).toNat ≤ 1 := by rw [BitVec.toNat_and]; exact Nat.and_le_right
  cases l with
  | fb i =>
    have hi : i < 64 := of_decide_eq_true hl
    change MemoryInv _ (fbWrite s.mem i [v])
    rw [fbWrite_singleton _ hi]
    exact h.write (.inl (by omega)) (.inl fun k => by simp only [assocBase]; omega)
  | pb i =>
    have hi : i < 64 := of_decide_eq_true hl
    change MemoryInv _ (pbWrite s.mem i [v])
    rw [pbWrite_singleton _ hi]
    exact h.write (.inl (by omega)) (.inl fun k => by simp only [assocBase]; omega)
  | assocValid k =>
    have hk : k < s.params.assocN := of_decide_eq_true hl
    exact h.write (.inr (by simp only [assocBase]; omega)) (.inr hone)
  | assocId k j =>
    obtain ⟨hk, hj⟩ := of_decide_eq_true hl
    exact h.write (.inr (by simp only [assocBase]; omega)) (.inl fun k' => by simp only [assocBase]; omega)
  | assocCtr k j =>
    obtain ⟨hk, hj⟩ := of_decide_eq_true hl
    exact h.write (.inr (by simp only [assocBase]; omega)) (.inl fun k' => by simp only [assocBase]; omega)
  | _ => exact h

/-! ## The resets -/

/-- A hardware reset gives the invariant (R290). -/
theorem inv_hardReset {s : State} (hparams : s.params.wf = true) : Inv (hardReset s) where
  params := hparams
  memWf := rfl
  storage _ h := nomatch h
  validBit _ := Nat.zero_le 1
  scratch := rfl
  fbLen := Nat.zero_le 64
  pbCap := Nat.zero_le 64
  ctrl := (by decide : (0x00 : Byte).toNat < 8)
  header := .inl rfl
  attempt := (by decide : ((0, 0x01) : Byte × Byte) ∈ legalAttempts)
  err := (by decide : (0x00 : Byte) ∈ legalErrs)
  assocIdx := .inl rfl

/-- Settles O12: the reset state is a hardware reset of itself. -/
theorem resetSatisfiesTheInvariant : Obligations.ResetSatisfiesTheInvariant := inv_hardReset (s := State.reset) rfl

/-! ## The commands -/

theorem raisedBy_legal (i : Instr) : ∀ e ∈ raisedBy i, e ∈ legalErrs := by
  cases i <;> decide

theorem Effect.err_legal {i : Instr} {s t : State} (h : Effect i s t) : t.err ∈ legalErrs := by
  rcases h.outcome with hok | ⟨-, hraised⟩
  · rw [hok]
    decide
  · exact raisedBy_legal i _ hraised

/-- A command keeps the record of the last receive attempt, or leaves a legal one (R227, R228). -/
theorem exec_attempt_legal {i : Instr} {s t : State} (hx : exec i s = .next t) :
    t.attempt = s.attempt ∨ t.attempt ∈ legalAttempts := by
  by_cases hdec : i = .decHdr
  · subst hdec
    refine .inr ?_
    rcases of_exec_next hx (exec_decHdr_attempt s) with ⟨-, h⟩ | ⟨-, h⟩ <;> rw [h] <;> decide
  by_cases hsec : i = .decSec
  · subst hsec
    refine .inr ?_
    rcases of_exec_next hx (exec_decSec_attempt s) with ⟨-, h⟩ | ⟨-, hfsm, htrace⟩
    · rw [h]
      decide
    · have hlegal : ∀ b ∈ [0x81, 0x83, 0x87, 0x8F, (0x9F : Byte)], (7, b) ∈ legalAttempts := by decide
      rw [State.attempt, hfsm]
      exact hlegal _ htrace
  by_cases hsrst : i = .srst
  · subst hsrst
    refine .inr ?_
    rw [of_exec_next (P := fun u => u.attempt = (0x00, 0x01)) hx (exec_srst_attempt s)]
    decide
  · exact .inl (of_exec_next hx (exec_attempt_eq hdec hsec hsrst s))

theorem HeaderEffect.valid_or_zero {i : Instr} {s t : State} (h : HeaderEffect i s t) (hs : s.hFl = 0x00 ∨ HeaderOk s) :
    t.hFl = 0x00 ∨ HeaderOk t := by
  cases h with
  | kept _ heq =>
    obtain ⟨hfl, hty, hq, hb, hid⟩ := State.header_eq_iff.mp heq
    exact hs.imp hfl.trans fun hok => hok.congr hfl hty hq hb hid
  | valid _ _ hok => exact .inr hok
  | cleared _ heq => exact .inl (State.header_eq_iff.mp heq).1

theorem MemoryEffect.memoryInv {i : Instr} {s t : State} (h : MemoryEffect i s t) {n : Nat} (hn : s.params.assocN = n)
    (hs : MemoryInv n s.mem) : MemoryInv n t.mem := by
  cases h with
  | buffers hbuf => exact hs.of_buffers hbuf
  | commit _ _ hbuf hk _ _ hmem =>
    rw [hmem]
    exact (hs.of_buffers hbuf).setAssocCtr (hn ▸ hk) _

theorem ctrl_setIvOk_lt {b : Byte} (hb : b.toNat < 8) : (b ||| 0x02).toNat < 8 := by
  have key : ∀ b : Byte, b.toNat < 8 → (b ||| 0x02).toNat < 8 := by decide +kernel
  exact key b hb

/-- The index that a command leaves is one of the table's, or 0xFF. -/
theorem Effect.assocIdx_legal {i : Instr} {s t : State} (h : Effect i s t) (hn : s.params.assocN ≤ 64)
    (hs : s.assocIdx = 0xFF ∨ s.assocIdx.toNat < s.params.assocN) : t.assocIdx = 0xFF ∨ t.assocIdx.toNat < s.params.assocN := by
  rcases h.assocIdx with heq | ⟨-, hnone | ⟨k, hk, heq⟩⟩
  · rw [heq]
    exact hs
  · exact .inl hnone
  · refine .inr ?_
    rw [heq, BitVec.toNat_ofNat, Nat.mod_eq_of_lt (by omega)]
    exact hk

theorem assocN_le_of_wf {p : Params} (h : p.wf = true) : p.assocN ≤ 64 := (of_decide_eq_true h).2

/-- Every command keeps the invariant. -/
theorem Inv.exec {i : Instr} {s t : State} (h : Inv s) (hx : exec i s = .next t) : Inv t := by
  by_cases hi : i = .srst
  · subst hi
    obtain rfl := Host.Outcome.next.inj (hx.symm.trans (exec_srst s))
    have hmem := h.memory.keepTable
    exact { inv_hardReset h.params with
      header := .inl rfl, memWf := hmem.wf, storage := hmem.storage, validBit := hmem.validBit }
  have heffect := effect_of_exec hi hx
  have hfixed := heffect.fixed
  simp only [State.fixed, Prod.mk.injEq] at hfixed
  obtain ⟨-, -, -, -, -, -, -, hfbLen, hpbCap, -, -, -, hparams, -, -, -⟩ := hfixed
  have hmem := heffect.memory.memoryInv rfl h.memory
  rw [← hparams] at hmem
  constructor
  case params => rw [hparams]; exact h.params
  case memWf => exact hmem.wf
  case storage => exact hmem.storage
  case validBit => exact hmem.validBit
  case scratch => exact heffect.scratch.elim (fun heq => heq.trans h.scratch) id
  case fbLen => rw [hfbLen]; exact h.fbLen
  case pbCap => rw [hpbCap]; exact h.pbCap
  case ctrl =>
    rcases heffect.ctrl with heq | heq <;> rw [heq]
    · exact h.ctrl
    · exact ctrl_setIvOk_lt h.ctrl
  case header => exact heffect.header.valid_or_zero h.header
  case attempt =>
    have hlegal : s.attempt ∈ legalAttempts := h.attempt
    exact (exec_attempt_legal hx).elim (fun heq => by rwa [← heq] at hlegal) id
  case err => exact heffect.err_legal
  case assocIdx => rw [hparams]; exact heffect.assocIdx_legal (assocN_le_of_wf h.params) h.assocIdx

/-! ## The host's other actions -/

/-- What the invariant speaks of. -/
def State.guarded (s : State) :=
  (s.params, s.mem, s.scratch, s.fbLen, s.pbCap, s.ctrl, s.header, s.fsm, s.fsmTrace, s.err, s.assocIdx)

theorem Inv.congr {s t : State} (h : Inv s) (heq : t.guarded = s.guarded) : Inv t := by
  simp only [State.guarded, Prod.mk.injEq] at heq
  obtain ⟨hparams, hmem, hscratch, hfbLen, hpbCap, hctrl, hheader, hfsm, htrace, herr, hidx⟩ := heq
  obtain ⟨hfl, hty, hq, hb, hid⟩ := State.header_eq_iff.mp hheader
  constructor
  case params => rw [hparams]; exact h.params
  case memWf => rw [hmem]; exact h.memWf
  case storage => rw [hmem, hparams]; exact h.storage
  case validBit => rw [hmem]; exact h.validBit
  case scratch => rw [hscratch]; exact h.scratch
  case fbLen => rw [hfbLen]; exact h.fbLen
  case pbCap => rw [hpbCap]; exact h.pbCap
  case ctrl => rw [hctrl]; exact h.ctrl
  case header => exact h.header.imp hfl.trans fun hok => hok.congr hfl hty hq hb hid
  case attempt => rw [hfsm, htrace]; exact h.attempt
  case err => rw [herr]; exact h.err
  case assocIdx => rw [hidx, hparams]; exact h.assocIdx

theorem saturate64_le (v : Byte) : (saturate64 v).toNat ≤ 64 := by
  rw [saturate64]
  split
  · exact Nat.le_refl 64
  · omega

theorem low3_lt (v : Byte) : (v &&& 0x07).toNat < 8 := by
  rw [BitVec.toNat_and]
  exact Nat.lt_succ_of_le Nat.and_le_right

/-- The header part of the invariant where the header registers are as before. -/
theorem Inv.header_of_eq {s t : State} (h : Inv s) (heq : t.header = s.header) : t.hFl = 0x00 ∨ HeaderOk t :=
  HeaderEffect.valid_or_zero (i := .nop) (.kept (by decide) heq) h.header

/-- A bus write to an existing location keeps the invariant (R65). -/
theorem Inv.writeLoc {s : State} (h : Inv s) {l : Loc} (hl : l.wf s.params.assocN = true) (v : Byte) :
    Inv (writeLoc s v l) := by
  have hmem := h.memory.writeLoc hl v
  cases l with
  | ctrl => exact { h with ctrl := low3_lt v, header := h.header_of_eq rfl }
  | fbLen => exact { h with fbLen := saturate64_le v, header := h.header_of_eq rfl }
  | pbCap => exact { h with pbCap := saturate64_le v, header := h.header_of_eq rfl }
  | fb _ | pb _ | assocValid _ | assocId _ _ | assocCtr _ _ =>
    exact { h with
      memWf := hmem.wf, storage := hmem.storage, validBit := hmem.validBit, header := h.header_of_eq rfl }
  | _ => exact h.congr rfl

/-- Every bus write keeps the invariant, whatever it starts. -/
theorem Inv.busWrite {s t : State} {a : BusAddr} {v : Byte} (h : Inv s) (hw : busWrite s a v = .next t) : Inv t := by
  by_cases hcmd : locOf s.params.assocN a = .cmd
  · obtain rfl := locOf_eq_cmd _ a hcmd
    rw [busWrite_cmd] at hw
    rcases issueCommand_cases v s with ⟨i, hi⟩ | hreserved
    · exact h.exec (hi.symm.trans hw)
    · obtain rfl := Host.Outcome.next.inj (hw.symm.trans hreserved)
      exact { h with err := (by decide : (0x7F : Byte) ∈ legalErrs), header := h.header_of_eq rfl }
  · obtain rfl := Host.Outcome.next.inj (hw.symm.trans (busWrite_eq s a v hcmd))
    rcases locOf_cases s.params.assocN a with hres | ⟨hl, -⟩
    · rw [hres]
      exact h
    · exact h.writeLoc hl v

/-- Every host action keeps the invariant. -/
theorem Inv.perform {s t : State} {a : HostAction} (h : Inv s) (hp : perform s a = .next t) : Inv t := by
  cases a with
  | read a =>
    obtain rfl := Host.Outcome.next.inj hp
    exact h.congr rfl
  | write a v => exact h.busWrite hp
  | setBits a m =>
    have hread : Inv { s with rdata := busRead s a } := h.congr rfl
    exact hread.busWrite hp
  | writeIfOk a v =>
    have hread : Inv { s with rdata := s.err } := h.congr rfl
    rw [perform_writeIfOk] at hp
    split at hp
    · exact hread.busWrite hp
    · obtain rfl := Host.Outcome.next.inj hp
      exact hread
  | driveCommitOk b =>
    obtain rfl := Host.Outcome.next.inj hp
    exact h.congr rfl
  | hardReset =>
    obtain rfl := Host.Outcome.next.inj hp
    exact inv_hardReset h.params

/-- Settles O13: a step idles or performs one host action, and each keeps the invariant. -/
theorem everyStepKeepsTheInvariant : Obligations.EveryStepKeepsTheInvariant := by
  intro s t h hstep
  cases hhost : s.host with
  | nil =>
    obtain rfl := Host.Outcome.next.inj ((step_idle h.params hhost).symm.trans hstep)
    exact h
  | cons a rest =>
    have htaken : Inv { s with host := rest } := h.congr rfl
    exact htaken.perform ((step_cons h.params hhost).symm.trans hstep)

/-! ## The stored counters (R218) -/

/-- No counter of the table is lower in `m'` than in `m`. -/
def CountersKept (m m' : Memory) : Prop := ∀ k, ctrValue (assocCtr m k) ≤ ctrValue (assocCtr m' k)

theorem CountersKept.refl (m : Memory) : CountersKept m m := fun _ => Nat.le_refl _

theorem CountersKept.trans {m₁ m₂ m₃ : Memory} (h : CountersKept m₁ m₂) (g : CountersKept m₂ m₃) :
    CountersKept m₁ m₃ :=
  fun k => Nat.le_trans (h k) (g k)

theorem exec_countersKept {i : Instr} {s t : State} (hx : exec i s = .next t) : CountersKept s.mem t.mem := by
  intro k
  obtain ⟨-, hctr, -⟩ := storedCountersOnlyIncrease i s t hx
  rcases hctr k with heq | ⟨-, -, -, hlt⟩
  · rw [heq]
  · exact Nat.le_of_lt hlt

/-- A bus write below the table, but to `CMD`, leaves the counters. -/
theorem assocCtr_writeLoc {l : Loc} (hl : l.wf 0 = true) (s : State) (v : Byte) (k : Nat) :
    assocCtr (writeLoc s v l).mem k = assocCtr s.mem k := by
  cases l with
  | fb i => exact assocCtr_fbWrite _ _ _ _
  | pb i => exact assocCtr_pbWrite _ _ _ _
  | assocValid e =>
    have he : e < 0 := of_decide_eq_true hl
    exact absurd he (Nat.not_lt_zero e)
  | assocId e j =>
    have he : e < 0 ∧ j < 8 := of_decide_eq_true hl
    exact absurd he.1 (Nat.not_lt_zero e)
  | assocCtr e j =>
    have he : e < 0 ∧ j < 6 := of_decide_eq_true hl
    exact absurd he.1 (Nat.not_lt_zero e)
  | _ => rfl

theorem busWrite_countersKept {s t : State} {a : BusAddr} {v : Byte} (ha : a.toNat < 0x100) (hw : busWrite s a v = .next t) :
    CountersKept s.mem t.mem := by
  by_cases hcmd : locOf s.params.assocN a = .cmd
  · obtain rfl := locOf_eq_cmd _ a hcmd
    rw [busWrite_cmd] at hw
    rcases issueCommand_cases v s with ⟨i, hi⟩ | hreserved
    · exact exec_countersKept (hi.symm.trans hw)
    · obtain rfl := Host.Outcome.next.inj (hw.symm.trans hreserved)
      exact CountersKept.refl _
  · obtain rfl := Host.Outcome.next.inj (hw.symm.trans (busWrite_eq s a v hcmd))
    rw [locOf_low _ a ha]
    rcases locOf_cases 0 a with hres | ⟨hl, -⟩
    · rw [hres]
      exact CountersKept.refl _
    · exact fun k => by rw [assocCtr_writeLoc hl]

theorem perform_countersKept {s t : State} {a : HostAction} (ha : a.sparesTable = true) (hp : perform s a = .next t) :
    CountersKept s.mem t.mem := by
  cases a with
  | read a =>
    obtain rfl := Host.Outcome.next.inj hp
    exact CountersKept.refl _
  | write a v => exact busWrite_countersKept (of_decide_eq_true ha) hp
  | setBits a m => exact busWrite_countersKept (s := { s with rdata := busRead s a }) (of_decide_eq_true ha) hp
  | writeIfOk a v =>
    rw [perform_writeIfOk] at hp
    split at hp
    · exact busWrite_countersKept (s := { s with rdata := s.err }) (of_decide_eq_true ha) hp
    · obtain rfl := Host.Outcome.next.inj hp
      exact CountersKept.refl _
  | driveCommitOk b =>
    obtain rfl := Host.Outcome.next.inj hp
    exact CountersKept.refl _
  | hardReset => exact nomatch ha

theorem paramsWf_of_step {s t : State} (hstep : step s = .next t) : s.params.wf = true := by
  by_contra hwf
  rw [step_refused (Bool.not_eq_true _ ▸ hwf)] at hstep
  exact nomatch hstep

/-- A step over an action that spares the table lowers no counter. -/
theorem step_countersKept {s t : State} (hspare : ∀ a ∈ s.host.head?, a.sparesTable = true) (hstep : step s = .next t) :
    CountersKept s.mem t.mem := by
  have hwf := paramsWf_of_step hstep
  cases hhost : s.host with
  | nil =>
    obtain rfl := Host.Outcome.next.inj ((step_idle hwf hhost).symm.trans hstep)
    exact CountersKept.refl _
  | cons a rest =>
    rw [hhost] at hspare
    exact perform_countersKept (s := { s with host := rest }) (hspare a rfl) ((step_cons hwf hhost).symm.trans hstep)

/-! ## Runs -/

/-- The parameters and the pending host actions, which no host action's effect changes. -/
def State.outside (s : State) : Params × List HostAction := (s.params, s.host)

theorem exec_outside {i : Instr} {s t : State} (hx : exec i s = .next t) : t.outside = s.outside := by
  by_cases hi : i = .srst
  · subst hi
    obtain rfl := Host.Outcome.next.inj (hx.symm.trans (exec_srst s))
    rfl
  · have hfixed := (effect_of_exec hi hx).fixed
    simp only [State.fixed, Prod.mk.injEq] at hfixed
    obtain ⟨-, -, -, -, -, -, -, -, -, -, -, -, hparams, -, -, hhost⟩ := hfixed
    rw [State.outside, hparams, hhost]
    rfl

theorem busWrite_outside {s t : State} {a : BusAddr} {v : Byte} (hw : busWrite s a v = .next t) : t.outside = s.outside := by
  by_cases hcmd : locOf s.params.assocN a = .cmd
  · obtain rfl := locOf_eq_cmd _ a hcmd
    rw [busWrite_cmd] at hw
    rcases issueCommand_cases v s with ⟨i, hi⟩ | hreserved
    · exact exec_outside (hi.symm.trans hw)
    · obtain rfl := Host.Outcome.next.inj (hw.symm.trans hreserved)
      rfl
  · obtain rfl := Host.Outcome.next.inj (hw.symm.trans (busWrite_eq s a v hcmd))
    cases locOf s.params.assocN a <;> rfl

theorem perform_outside {s t : State} {a : HostAction} (hp : perform s a = .next t) : t.outside = s.outside := by
  cases a with
  | write a v => exact busWrite_outside hp
  | setBits a m => exact busWrite_outside (s := { s with rdata := busRead s a }) hp
  | writeIfOk a v =>
    rw [perform_writeIfOk] at hp
    split at hp
    · exact busWrite_outside (s := { s with rdata := s.err }) hp
    · obtain rfl := Host.Outcome.next.inj hp
      rfl
  | read _ | driveCommitOk _ | hardReset =>
    obtain rfl := Host.Outcome.next.inj hp
    rfl

/-- A step keeps the parameters and takes the oldest host action. -/
theorem step_outside {s t : State} (hstep : step s = .next t) : t.params = s.params ∧ t.host = s.host.tail := by
  have hwf := paramsWf_of_step hstep
  cases hhost : s.host with
  | nil =>
    obtain rfl := Host.Outcome.next.inj ((step_idle hwf hhost).symm.trans hstep)
    exact ⟨rfl, hhost⟩
  | cons a rest => exact Prod.ext_iff.mp (perform_outside ((step_cons hwf hhost).symm.trans hstep))

/-- Along a run over actions that spare the table, the parameters stay and no counter is lowered. -/
theorem run_countersKept {n : Nat} {s t : State} (hspare : ∀ a ∈ s.host, a.sparesTable = true) (hrun : run n s = some t) :
    t.params = s.params ∧ CountersKept s.mem t.mem := by
  induction n generalizing s with
  | zero =>
    obtain rfl := Option.some.inj hrun
    exact ⟨rfl, CountersKept.refl _⟩
  | succ n ih =>
    cases hstep : step s with
    | next u =>
      rw [run, hstep] at hrun
      obtain ⟨hparams, hhost⟩ := step_outside hstep
      have hspareU : ∀ a ∈ u.host, a.sparesTable = true := fun a ha => hspare a (List.mem_of_mem_tail (hhost ▸ ha))
      obtain ⟨hparamsU, hkept⟩ := ih hspareU hrun
      have hfirst := step_countersKept (fun a ha => hspare a (List.mem_of_mem_head? ha)) hstep
      exact ⟨hparamsU.trans hparams, hfirst.trans hkept⟩
    | fault r => rw [run, hstep] at hrun; exact nomatch hrun
    | refused r => rw [run, hstep] at hrun; exact nomatch hrun

/-- Settles O55: no step lowers a counter, so the counter that the first acceptance stored still bounds the second one. -/
theorem sparedCountersNeverDecrease : Obligations.SparedCountersNeverDecrease := by
  refine ⟨fun s t hspare hstep => step_countersKept hspare hstep, ?_⟩
  intro s t u v n hwf hfirst herrFirst hspare hrun hsecond herrSecond hidx
  obtain ⟨-, -, -, -, -, k, -, hk, hidxT, -, hstored, -⟩ := decSecAcceptanceIsSound s t hfirst herrFirst
  obtain ⟨-, -, -, -, -, j, -, hj, hidxV, hnewer, -, -⟩ := decSecAcceptanceIsSound u v hsecond herrSecond
  obtain ⟨hparams, hkept⟩ := run_countersKept hspare hrun
  have hn : s.params.assocN ≤ 64 := assocN_le_of_wf hwf
  have hkN : k < s.params.assocN := hk.1
  have hjN : j < s.params.assocN := by
    have hjU := hj.1
    rwa [hparams, params_of_accepted hfirst herrFirst] at hjU
  have hsame : j = k := by
    rw [hidxT, hidxV, ← BitVec.toNat_inj, BitVec.toNat_ofNat, BitVec.toNat_ofNat] at hidx
    omega
  calc ctrValue s.frameCtr
      = ctrValue (assocCtr t.mem k) := by rw [hstored]
    _ ≤ ctrValue (assocCtr u.mem k) := hkept k
    _ < ctrValue u.frameCtr := hsame ▸ hnewer

end Sys2Proof.Machine
end

-- The AEAD engine and the secure round trip (spec/45_aead_interface.md, spec/43_secure_codec.md)
section
/-! The two described engines (R240 to R248, R252), and the round trip of a secure frame (R193). -/
namespace Sys2Proof.Machine

/-! ## The described engines (R240, R241, R248) -/

theorem aeadCorrect_aes128Gcm : AeadCorrect .aes128Gcm := by
  intro key iv aad pt ct tag hkey _ henc
  obtain ⟨rfl, rfl⟩ := Prod.mk.inj (Option.some.inj henc)
  refine ⟨?_, gcmText_length _ _ _ hkey, gcmTag_length _ _ _ _ hkey⟩
  rw [aeadDec, gcmDec, if_pos rfl, gcmText_twice _ _ _ hkey]

theorem aeadCorrect_nullDouble : AeadCorrect .nullDouble := by
  intro key iv aad pt ct tag _ hiv henc
  obtain ⟨rfl, rfl⟩ := Prod.mk.inj (Option.some.inj henc)
  refine ⟨if_pos rfl, rfl, ?_⟩
  rw [nullTag, List.length_append, hiv]
  rfl

/-- Settles O58: the key stream cancels and the tag is recomputed; the null double compares its tag with the IV's. -/
theorem describedEnginesAreCorrect : Obligations.DescribedEnginesAreCorrect :=
  ⟨aeadCorrect_aes128Gcm, aeadCorrect_nullDouble, fun _ _ _ _ => rfl, fun _ _ _ _ => rfl⟩

/-- Settles O59, by running the cipher. -/
theorem cipherCheckValues : Obligations.CipherCheckValues := by
  refine ⟨?_, ?_, ?_, ?_, ?_, ?_, ?_, ?_, ?_, ?_⟩ <;> decide +kernel

/-! ## Bytes that memory holds -/

/-- Memory that reads a byte string in `FB` reads as if it had just been stored. -/
theorem stored_self_of_fbBytes {m : Memory} {bs : List Byte} (h : fbBytes m 0 bs.length = bs) (hlen : bs.length ≤ 64) :
    Stored m 0x080 bs m := by
  intro a
  split
  · next ha =>
    have hbyte : bs.getD (a - 0x080) 0x00 = fbByte m (a - 0x080) := by
      have hat : a - 0x080 < (fbBytes m 0 bs.length).length := by rw [fbBytes_length]; omega
      calc bs.getD (a - 0x080) 0x00
          = (fbBytes m 0 bs.length).getD (a - 0x080) 0x00 := by rw [h]
        _ = fbByte m (a - 0x080) := by rw [List.getD_eq_getElem _ _ hat, fbBytes_getElem, Nat.zero_add]
    rw [hbyte, fbByte, if_pos (by simp only [fbSize]; omega), fbBase, Nat.add_sub_cancel' ha.1]
  · rfl

/-- The part of a stored frame that stands behind `i` bytes. -/
theorem Stored.fbPart {m m' : Memory} {pre mid post : List Byte} (h : Stored m 0x080 (pre ++ mid ++ post) m')
    (hlen : (pre ++ mid ++ post).length ≤ 64) {i n : Nat} (hi : pre.length = i) (hn : mid.length = n) :
    Machine.fbBytes m' i n = mid := by
  subst hi hn
  rw [h.fbSpan _ _ (by simp only [List.length_append]; omega) hlen, List.append_assoc, List.drop_left, List.take_left]

theorem Stored.pbBytes {m m' : Memory} {bs : List Byte} (h : Stored m 0x0C0 bs m') (hlen : bs.length ≤ 64) :
    Machine.pbBytes m' 0 bs.length = bs := by
  refine List.ext_getElem (pbBytes_length _ _ _) fun j _ hj => ?_
  rw [pbBytes_getElem, Nat.zero_add, pbByte, if_pos (by simp only [pbSize]; omega), h, if_pos (by simp only [pbBase]; omega),
    pbBase, Nat.add_sub_cancel_left, List.getD_eq_getElem _ _ hj]

/-- What is stored above the buffers leaves `PB`. -/
theorem Stored.pbBytes_of_above {m m' : Memory} {b : Nat} {bs : List Byte} (h : Stored m b bs m') (hb : 0x100 ≤ b)
    (i n : Nat) :
    Machine.pbBytes m' i n = Machine.pbBytes m i n := by
  refine pbBytes_congr _ _ _ _ fun j _ _ => ?_
  simp only [pbByte, pbSize, pbBase]
  split
  · rw [h, if_neg (by omega)]
  · rfl

theorem Stored.assocCtr {m m' : Memory} {k : Nat} {c : Bytes 6} (h : Stored m (0x100 + 16 * k + 9) c.toList m') :
    Machine.assocCtr m' k = c := by
  refine Vector.ext fun j hj => ?_
  rw [assocCtr_getElem, h, Vector.length_toList, if_pos (by omega), Nat.add_sub_cancel_left,
    List.getD_eq_getElem _ _ (by rw [Vector.length_toList]; exact hj), Vector.getElem_toList]

theorem take_paddedBlock (bs : List Byte) : (paddedBlock bs).take bs.length = bs := by
  rw [paddedBlock, List.append_assoc, List.take_left]

/-- Of a type in 0x01..0x7E, the secure type byte keeps the type below its flag (R102). -/
theorem secureType {b : Byte} (hlow : 1 ≤ b.toNat) (hhigh : b.toNat ≤ 0x7E) :
    1 ≤ (b ||| 0x80).toNat % 128 ∧ (b ||| 0x80).toNat % 128 ≤ 0x7E ∧ 128 ≤ (b ||| 0x80).toNat := by
  have key : ∀ b : Byte, 1 ≤ b.toNat → b.toNat ≤ 0x7E →
      1 ≤ (b ||| 0x80).toNat % 128 ∧ (b ||| 0x80).toNat % 128 ≤ 0x7E ∧ 128 ≤ (b ||| 0x80).toNat := by decide +kernel
  exact key b hlow hhigh

/-! ## The sender (R190, R193) -/

/-- The arguments of a frame that `ENC_SEC` can build in 64 bytes, with the key loaded and scratch enough. -/
structure SecFits (s : State) : Prop where
  typeLow : 1 ≤ s.aFtype.toNat
  typeHigh : s.aFtype.toNat ≤ 0x7E
  plaintext : s.pbLen.toNat ≤ 31
  il : if s.pbLen.toNat = 0 then s.aIl.toNat ≤ 8 else s.aIl.toNat ≤ 5
  capacity : s.fbLen = 64
  keyOk : s.ctrl.getLsbD 0 = true
  needSec : s.params.needEncSec ≤ s.params.scratchBytes
  needRaw : s.params.needEncRaw ≤ s.params.scratchBytes

theorem SecFits.length_le {s : State} (h : SecFits s) : s.aIl.toNat ≤ 8 ∧ 27 + s.aIl.toNat + s.encryptedLen ≤ 64 := by
  have hil := h.il
  rw [encryptedLen_eq]
  split at hil
  · next hzero => rw [if_pos hzero]; omega
  · next hbody => rw [if_neg hbody]; omega

theorem SecFits.fbLen {s : State} (h : SecFits s) : s.fbLen.toNat = 64 := congrArg BitVec.toNat h.capacity

theorem SecFits.encodeVerdict_eq_zero {s : State} (h : SecFits s) :
    encodeVerdict true s.aFtype s.aIl.toNat s.encryptedLen 23 s.fbLen.toNat = 0x00 := by
  obtain ⟨hil, hlen⟩ := h.length_le
  have hcap := h.fbLen
  have htypeLow := h.typeLow
  have htypeHigh := h.typeHigh
  have htype : s.aFtype ≠ 0x00 := fun h0 => absurd htypeLow (by rw [h0]; decide)
  exact (Machine.encodeVerdict_eq_zero _ _ _ _ _ _).mpr
    ⟨htype, by omega, hil, by omega, by omega, by rw [if_pos rfl]; exact ⟨by omega, by omega⟩⟩

/-- The header of the frame that `ENC_SEC` builds (R100, R190). -/
def State.secHeader (s : State) : List Byte :=
  headerBytes (26 + s.aIl.toNat + s.encryptedLen) (s.aFtype ||| 0x80) ((s.ctrA[5]).toNat % 16) s.aIl.toNat s.encryptedLen s.txId

/-- The nonce of the frame that `ENC_SEC` builds (R170, R190). -/
def State.secNonce (s : State) : List Byte := s.txId.toList.take 6 ++ s.ctrA.toList

/-- The frame: header, ciphertext, counter, tag, format byte (R108). -/
def State.secFrame (s : State) (ct tag : List Byte) : List Byte := s.secHeader ++ ct ++ s.ctrA.toList ++ tag ++ [0x80]

/-- The AEAD engine answers with this ciphertext and this tag for the frame of `s`. -/
structure Seals (s : State) (ct tag : List Byte) : Prop where
  enc : aeadEnc s.params.aead s.key.toList s.secNonce s.secHeader s.plainBlock = some (ct, tag)
  ctLength : ct.length = s.encryptedLen
  tagLength : tag.length = 16

theorem secNonce_length (s : State) : s.secNonce.length = 12 := by simp [State.secNonce]

theorem exists_seals {s : State} (hn : s.pbLen.toNat ≤ 31)
    (hanswers : ∀ key iv aad pt, (aeadEnc s.params.aead key iv aad pt).isSome = true) : ∃ ct tag, Seals s ct tag := by
  obtain ⟨⟨ct, tag⟩, henc⟩ := Option.isSome_iff_exists.mp (hanswers s.key.toList s.secNonce s.secHeader s.plainBlock)
  obtain ⟨hct, htag⟩ := aeadEnc_lengths (Vector.length_toList) (secNonce_length s) henc
  exact ⟨ct, tag, henc, hct.trans (plainBlock_length s hn), htag⟩

theorem secHeader_length {s : State} (hil : s.aIl.toNat ≤ 8) : s.secHeader.length = 4 + s.aIl.toNat :=
  headerBytes_length _ _ _ _ _ _ hil

theorem Seals.secFrame_length {s : State} {ct tag : List Byte} (h : Seals s ct tag) (hil : s.aIl.toNat ≤ 8) :
    (s.secFrame ct tag).length = 27 + s.aIl.toNat + s.encryptedLen := by
  simp only [State.secFrame, List.length_append, secHeader_length hil, h.ctLength, h.tagLength, Vector.length_toList,
    List.length_singleton]
  omega

/-- `ENC_SEC` leaves the frame in `FB` (R190). -/
theorem Seals.exec_encSec {s : State} {ct tag : List Byte} (h : Seals s ct tag) (hfits : SecFits s) :
    ∃ t, exec .encSec s = .next t ∧ t.err = 0x00 ∧ t.result = BitVec.ofNat 8 (27 + s.aIl.toNat + s.encryptedLen) ∧
      fbBytes t.mem 0 (27 + s.aIl.toNat + s.encryptedLen) = s.secFrame ct tag := by
  obtain ⟨hil, hlen⟩ := hfits.length_le
  have hframe := h.secFrame_length hil
  have hfit : 27 + s.aIl.toNat + s.encryptedLen ≤ s.fbLen.toNat := by rw [hfits.fbLen]; exact hlen
  obtain ⟨m, m', iv, hx, -, -, hstored, -⟩ := encSecBuildsTheFrame s s.pbLen.toNat s.aIl.toNat s.encryptedLen s.secHeader
    s.plainBlock ct tag rfl rfl (encryptedLen_eq s) hfits.keyOk hfits.plaintext hfits.needSec hfits.needRaw
    hfits.encodeVerdict_eq_zero hfit rfl rfl h.enc
  refine ⟨_, hx, rfl, rfl, ?_⟩
  rw [Stored.fbBytes (bs := s.secFrame ct tag) hstored _ (by omega) (by omega), ← hframe, List.take_length]

/-! ## The frame in the receiver's buffer -/

/-- `FB` holds the secure frame of the arguments of `s`, field by field (R100, R108). -/
structure HoldsSecFrame (s : State) (ct tag : List Byte) (m : Memory) : Prop where
  fl : (fbByte m 0).toNat = 26 + s.aIl.toNat + s.encryptedLen
  type : fbByte m 1 = s.aFtype ||| 0x80
  seq : (fbByte m 2).toNat / 16 = (s.ctrA[5]).toNat % 16
  il : (fbByte m 2).toNat % 16 = s.aIl.toNat
  bl : (fbByte m (3 + s.aIl.toNat)).toNat = s.encryptedLen
  id : ∀ (j : Nat) (_ : j < 8), j < s.aIl.toNat → fbByte m (3 + j) = s.txId[j]
  header : fbBytes m 0 (4 + s.aIl.toNat) = s.secHeader
  body : fbBytes m (4 + s.aIl.toNat) s.encryptedLen = ct
  counter : fbBytes m (4 + s.aIl.toNat + s.encryptedLen) 6 = s.ctrA.toList
  tag : fbBytes m (10 + s.aIl.toNat + s.encryptedLen) 16 = tag
  format : fbByte m (26 + s.aIl.toNat + s.encryptedLen) = 0x80

theorem Seals.holdsSecFrame {s : State} {ct tag : List Byte} {m : Memory} (h : Seals s ct tag) (hfits : SecFits s)
    (hfb : fbBytes m 0 (27 + s.aIl.toNat + s.encryptedLen) = s.secFrame ct tag) : HoldsSecFrame s ct tag m := by
  obtain ⟨hil, hlen⟩ := hfits.length_le
  have hheaderLen := secHeader_length hil
  have hframeLen := h.secFrame_length hil
  have hctLen := h.ctLength
  have htagLen := h.tagLength
  have hstored : Stored m 0x080 (s.secFrame ct tag) m := stored_self_of_fbBytes (by rw [hframeLen]; exact hfb) (by omega)
  obtain ⟨hfl, htype, hseqIl, hbl, hid⟩ := headerBytes_getD (26 + s.aIl.toNat + s.encryptedLen) (s.aFtype ||| 0x80)
    ((s.ctrA[5]).toNat % 16) s.aIl.toNat s.encryptedLen s.txId (ct ++ (s.ctrA.toList ++ (tag ++ [0x80]))) hil
  have hframe : s.secFrame ct tag = headerBytes (26 + s.aIl.toNat + s.encryptedLen) (s.aFtype ||| 0x80)
      ((s.ctrA[5]).toNat % 16) s.aIl.toNat s.encryptedLen s.txId ++ (ct ++ (s.ctrA.toList ++ (tag ++ [0x80]))) := by
    simp only [State.secFrame, State.secHeader, List.append_assoc]
  have hbyte : ∀ j, j < 27 + s.aIl.toNat + s.encryptedLen → fbByte m j = (s.secFrame ct tag).getD j 0x00 := fun j hj =>
    hstored.fbByte j (by omega) (by omega)
  have hseqIlNat : (fbByte m 2).toNat = 16 * ((s.ctrA[5]).toNat % 16) + s.aIl.toNat := by
    rw [hbyte 2 (by omega), hframe, hseqIl, BitVec.toNat_ofNat]
    exact Nat.mod_eq_of_lt (by omega)
  constructor
  case fl =>
    rw [hbyte 0 (by omega), hframe, hfl, BitVec.toNat_ofNat]
    exact Nat.mod_eq_of_lt (by omega)
  case type => rw [hbyte 1 (by omega), hframe, htype]
  case seq => omega
  case il => omega
  case bl =>
    rw [hbyte _ (by omega), hframe, hbl, BitVec.toNat_ofNat]
    exact Nat.mod_eq_of_lt (by omega)
  case id =>
    intro j _ hj
    rw [hbyte _ (by omega), hframe]
    exact hid j hj
  case header =>
    exact Stored.fbPart (pre := []) (mid := s.secHeader) (post := ct ++ s.ctrA.toList ++ tag ++ [0x80])
      (by simpa only [State.secFrame, List.nil_append, List.append_assoc] using hstored)
      (by simp only [List.length_append, List.length_nil, List.length_singleton, Vector.length_toList]; omega) rfl hheaderLen
  case body =>
    exact Stored.fbPart (pre := s.secHeader) (mid := ct) (post := s.ctrA.toList ++ tag ++ [0x80])
      (by simpa only [State.secFrame, List.append_assoc] using hstored)
      (by simp only [List.length_append, List.length_singleton, Vector.length_toList]; omega) hheaderLen hctLen
  case counter =>
    exact Stored.fbPart (pre := s.secHeader ++ ct) (mid := s.ctrA.toList) (post := tag ++ [0x80])
      (by simpa only [State.secFrame, List.append_assoc] using hstored)
      (by simp only [List.length_append, List.length_singleton, Vector.length_toList]; omega)
      (by rw [List.length_append]; omega) (Vector.length_toList)
  case tag =>
    exact Stored.fbPart (pre := s.secHeader ++ ct ++ s.ctrA.toList) (mid := tag) (post := [0x80]) hstored
      (by simp only [List.length_append, List.length_singleton, Vector.length_toList]; omega)
      (by simp only [List.length_append, Vector.length_toList]; omega) htagLen
  case format =>
    have hlast := Stored.fbPart (pre := s.secHeader ++ ct ++ s.ctrA.toList ++ tag) (mid := [0x80]) (post := [])
      (by rw [List.append_nil]; exact hstored) (by rw [List.append_nil]; exact hframeLen.trans_le hlen)
      (i := 26 + s.aIl.toNat + s.encryptedLen) (n := 1)
      (by simp only [List.length_append, Vector.length_toList]; omega) rfl
    exact List.head_eq_of_cons_eq hlast

/-- The frame passes the ten tests of `HdrDecode` (R137): its last byte is the format byte. -/
theorem HoldsSecFrame.decodeVerdict_eq_zero {s : State} {ct tag : List Byte} {m : Memory} (h : HoldsSecFrame s ct tag m)
    (hfits : SecFits s) : decodeVerdict (fbByte m) (27 + s.aIl.toNat + s.encryptedLen) = 0x00 := by
  obtain ⟨hil, hlen⟩ := hfits.length_le
  obtain ⟨htypeLow, htypeHigh, hsecure⟩ := secureType hfits.typeLow hfits.typeHigh
  unfold decodeVerdict
  simp only [h.fl, h.type, h.il, h.bl, h.format]
  rw [if_neg (by omega), if_neg (by omega), if_neg (by omega), if_neg (by omega), if_neg (by omega), if_neg (by omega),
    if_neg (by omega), if_neg (by omega), if_neg (fun hrow => absurd hrow.2 (by decide)), if_neg (by omega)]

/-! ## The receiver (R193, R221) -/

/-- The receiver can decode the frames of the sender in `s`: it has the key and the engine, wants the plaintext and has room for
it, and entry `k` of its table is the sender's, with an older counter. -/
structure KnowsSender (s r : State) (k : Nat) : Prop where
  engine : r.params.aead = s.params.aead
  key : r.key = s.key
  ctrl : r.ctrl = 0x07
  cap : s.pbLen.toNat ≤ r.pbCap.toNat
  commitOk : r.commitOk = true
  needSec : r.params.needDecSec ≤ r.params.scratchBytes
  needRaw : r.params.needDecRaw ≤ r.params.scratchBytes
  entry : FirstMatch r.mem r.params.assocN s.txId s.aIl.toNat k
  id : assocId r.mem k = s.txId
  older : ctrValue (assocCtr r.mem k) < ctrValue s.ctrA

/-- The header registers hold the frame's header, as far as `DEC_SEC` reads them. -/
structure ReadsSecHeader (s u : State) : Prop where
  fl : u.hFl.toNat = 26 + s.aIl.toNat + s.encryptedLen
  seq : u.hSeqIl.toNat / 16 = (s.ctrA[5]).toNat % 16
  il : u.hSeqIl.toNat % 16 = s.aIl.toNat
  bl : u.hBl.toNat = s.encryptedLen
  id : ∀ (j : Nat) (_ : j < 8), j < s.aIl.toNat → u.hId[j] = s.txId[j]

/-- `DEC_HDR` reads the header back; the receiver still knows the sender. -/
theorem HoldsSecFrame.exec_decHdr {s r : State} {ct tag : List Byte} {k : Nat} (h : HoldsSecFrame s ct tag r.mem)
    (hfits : SecFits s) (hknows : KnowsSender s r k) (hlen : r.fbLen.toNat = 27 + s.aIl.toNat + s.encryptedLen) :
    ∃ u, exec .decHdr r = .next u ∧ u.err = 0x00 ∧ ReadsSecHeader s u ∧ KnowsSender s u k ∧ u.mem = r.mem ∧
      u.fbLen = r.fbLen := by
  have hverdict : decodeVerdict (fbByte r.mem) r.fbLen.toNat = 0x00 := by rw [hlen, h.decodeVerdict_eq_zero hfits]
  obtain ⟨hengine, hkey, hctrl, hcap, hon, hneedSec, hneedRaw, hentry, hid, holder⟩ := hknows
  refine ⟨_, decHdrReadsTheHeader r s.aIl.toNat hverdict h.il.symm, rfl, ⟨h.fl, h.seq, h.il, h.bl, fun j hj hjil => ?_⟩,
    ⟨hengine, hkey, hctrl, hcap, hon, hneedSec, hneedRaw, hentry, hid, holder⟩, rfl, rfl⟩
  rw [Vector.getElem_ofFn, if_pos hjil]
  exact h.id j hj hjil

/-- What the header registers hold of the ID resolves as the sender's full ID does. -/
theorem ReadsSecHeader.firstMatch {s u : State} {k : Nat} (h : ReadsSecHeader s u) (hknows : KnowsSender s u k) :
    FirstMatch u.mem u.params.assocN u.hId s.aIl.toNat k := by
  rw [← lookup_eq_some, lookup_prefix _ _ _ s.txId _ h.id, lookup_eq_some]
  exact hknows.entry

theorem encryptedLen_eq_32 {s : State} : s.encryptedLen = 32 ↔ s.pbLen.toNat ≠ 0 := by
  rw [encryptedLen_eq]
  split <;> simp [*]

/-- What `PB` takes of the decrypted block: the plaintext. -/
theorem plainBlock_delivered {s : State} (hn : s.pbLen.toNat ≤ 31) (hbody : s.encryptedLen = 32) :
    dataLen s.plainBlock = s.pbLen.toNat ∧ s.plainBlock.take s.pbLen.toNat = pbBytes s.mem 0 s.pbLen.toNat := by
  have hne := encryptedLen_eq_32.mp hbody
  have hlength := pbBytes_length s.mem 0 s.pbLen.toNat
  have hdata := dataLen_paddedBlock (pbBytes s.mem 0 s.pbLen.toNat) (by omega)
  have htake := take_paddedBlock (pbBytes s.mem 0 s.pbLen.toNat)
  rw [hlength] at hdata htake
  rw [State.plainBlock, if_neg hne]
  exact ⟨hdata, htake⟩

/-- `DEC_SEC` at a receiver that knows the sender and holds the frame's header accepts the frame. -/
theorem KnowsSender.exec_decSec {s u : State} {ct tag : List Byte} {k : Nat} (hknows : KnowsSender s u k)
    (hreads : ReadsSecHeader s u) (hholds : HoldsSecFrame s ct tag u.mem) (hseals : Seals s ct tag)
    (hcorrect : AeadCorrect s.params.aead) (hfits : SecFits s)
    (hlen : u.fbLen.toNat = 27 + s.aIl.toNat + s.encryptedLen) :
    ∃ v, exec .decSec u = .next v ∧ v.err = 0x00 ∧ v.pbLen = s.pbLen ∧
      v.result = (if s.pbLen.toNat = 0 then 0x01 else BitVec.ofNat 8 (27 + s.aIl.toNat + s.encryptedLen)) ∧
      pbBytes v.mem 0 s.pbLen.toNat = pbBytes s.mem 0 s.pbLen.toNat ∧ assocCtr v.mem k = s.ctrA := by
  have hn := hfits.plaintext
  have hopens : aeadDec u.params.aead u.key.toList ((assocId u.mem k).toList.take 6 ++ s.ctrA.toList)
      (fbBytes u.mem 0 (4 + s.aIl.toNat)) (fbBytes u.mem (4 + s.aIl.toNat) s.encryptedLen)
      (fbBytes u.mem (26 + s.aIl.toNat + s.encryptedLen - 16) 16) = some s.plainBlock := by
    rw [hknows.engine, hknows.key, hknows.id, hholds.header, hholds.body,
      show 26 + s.aIl.toNat + s.encryptedLen - 16 = 10 + s.aIl.toNat + s.encryptedLen by omega, hholds.tag]
    exact (hcorrect _ _ _ _ _ _ Vector.length_toList (secNonce_length s) hseals.enc).1
  have hbody : s.encryptedLen = 0 ∨ s.encryptedLen = 32 := by
    rw [encryptedLen_eq]
    exact ite_eq_or_eq _ _ _
  have hkeyOk : u.ctrl.getLsbD 0 = true := by rw [hknows.ctrl]; rfl
  have hwant : u.ctrl.getLsbD 2 = true := by rw [hknows.ctrl]; rfl
  have hnone : ¬(u.ctrl.getLsbD 2 = true ∧ s.encryptedLen = 32) → s.pbLen.toNat = 0 := fun hdel =>
    Decidable.by_contra fun hne => hdel ⟨hwant, encryptedLen_eq_32.mpr hne⟩
  obtain ⟨m, m', iv, hx, -, hpb, hctr⟩ := decSecAcceptsAFreshFrame u (26 + s.aIl.toNat + s.encryptedLen) s.aIl.toNat
    s.encryptedLen k s.ctrA s.plainBlock hreads.fl.symm hreads.il.symm hreads.bl.symm hknows.needSec hknows.needRaw hbody rfl
    (by omega) (hreads.firstMatch hknows) hholds.counter.symm hknows.older hkeyOk hholds.format hreads.seq hopens
    (fun _ h32 => (plainBlock_delivered hn h32).1 ▸ hknows.cap) hknows.commitOk
  refine ⟨_, hx, rfl, ?_, ?_, ?_, hctr.assocCtr⟩ <;> dsimp only
  case refine_1 =>
    split
    · next hdel => rw [(plainBlock_delivered hn hdel.2).1, BitVec.ofNat_toNat, BitVec.setWidth_eq]
    · next hdel => exact (BitVec.eq_of_toNat_eq (hnone hdel)).symm
  case refine_2 =>
    split
    · next hdel => rw [if_neg (encryptedLen_eq_32.mp hdel.2)]; congr 1; omega
    · next hdel => rw [if_pos (hnone hdel)]
  case refine_3 =>
    rw [hctr.pbBytes_of_above (by omega)]
    split at hpb
    · next hdel =>
      obtain ⟨hdata, htake⟩ := plainBlock_delivered hn hdel.2
      rw [hdata, htake] at hpb
      have hlength := pbBytes_length s.mem 0 s.pbLen.toNat
      simpa only [hlength] using hpb.pbBytes (by omega)
    · next hdel => rw [hnone hdel]; rfl

/-- Settles O60: the engine's contract makes the decryption give the sender's block, and every test of the receiver passes. -/
theorem secureRoundTrip : Obligations.SecureRoundTrip := by
  rintro s r _ _ _ k rfl rfl rfl htypeLow htypeHigh hn hil hcap hkeyOk hneedSec hneedRaw hcorrect hanswers hengine hkey hctrl
    hroom hon hneedDecSec hneedDecRaw hentry hid holder
  rw [← encryptedLen_eq]
  have hfits : SecFits s := ⟨htypeLow, htypeHigh, hn, hil, hcap, hkeyOk, hneedSec, hneedRaw⟩
  have hknows : KnowsSender s r k := ⟨hengine, hkey, hctrl, hroom, hon, hneedDecSec, hneedDecRaw, hentry, hid, holder⟩
  obtain ⟨ct, tag, hseals⟩ := exists_seals hn hanswers
  obtain ⟨t, ht, herr, hresult, hframe⟩ := hseals.exec_encSec hfits
  refine ⟨t, ht, herr, hresult, fun hreceived hrlen => ?_⟩
  have hlen : r.fbLen.toNat = 27 + s.aIl.toNat + s.encryptedLen := by
    obtain ⟨-, hle⟩ := hfits.length_le
    rw [hrlen, hresult, BitVec.toNat_ofNat]
    exact Nat.mod_eq_of_lt (by omega)
  have hholds := hseals.holdsSecFrame hfits (hreceived.trans hframe)
  obtain ⟨u, hu, huerr, hreads, hknowsU, hmem, hfbLen⟩ := hholds.exec_decHdr hfits hknows hlen
  obtain ⟨v, hv, hverr, hpbLen, hvresult, hpb, hctr⟩ := hknowsU.exec_decSec hreads (hmem ▸ hholds) hseals hcorrect hfits
    (hfbLen ▸ hlen)
  exact ⟨u, v, hu, huerr, hv, hverr, hpbLen, by rw [hvresult, hresult], hpb, hctr⟩

end Sys2Proof.Machine
end
